-- ==== Sys2Proof/Word.lean ====
section
/-! DEFINITION. The word types of MRCT-CORE (00_scope.md R10 to R12). Counts, cursors and offsets are
exact integers (92_eei_decisions.md D8) and are plain `Nat` or `Int`; only register contents and bytes
are bit vectors. -/

namespace Sys2Proof

/-- One byte of the buffer memory, of the payload or of a pixel. -/
abbrev Byte := BitVec 8

/-- The contents of one 32-bit register of the register file (10_state.md R32). -/
abbrev Word := BitVec 32

end Sys2Proof
end

