-- ==== Sys2Proof/Syntax.lean ====
section
/-! DEFINITION. The instructions of MRCT-CORE: one constructor per row of spec/opcode_table.json, in the
table's order, and the two job parameters they are read under. -/

namespace Sys2Proof

/-- `CTRL.KIND` (10_state.md R33; 00_scope.md R3): true-color or palette. -/
inductive Kind where
  | tc
  | pal
deriving DecidableEq, Repr

/-- `CTRL.OP` (10_state.md R33): the operation of a job. -/
inductive Op where
  | decode
  | encode
deriving DecidableEq, Repr

/-- The instructions: the commands of the compressed stream with the fields of 30_encoding.md R113 to
R115, and the two job commands the host gives by writing `CTRL` with START = 1 (10_state.md R33). A
literal's data bytes are not part of the instruction: its meaning reads them from the payload (41_decoder.md R177). -/
inductive Instr where
  /-- SEED (R172): the first pixel of the payload, known by its position. -/
  | seed
  /-- LIT (R175): the length field `cmd[6:0]`. -/
  | lit (len : BitVec 7)
  /-- LITX (R176): the 16-bit extension. -/
  | litx (ext : BitVec 16)
  /-- CPY, kind TC (R178, R114): table index `cmd[6:2]`, count field `cmd[1:0]`. -/
  | cpyTc (idx : BitVec 5) (count : BitVec 2)
  /-- CPYX, kind TC (R179, R114): table index `cmd[6:2]`, the 16-bit extension. -/
  | cpyxTc (idx : BitVec 5) (ext : BitVec 16)
  /-- CPY, kind PAL (R178, R115): table index `cmd[6:3]`, count field `cmd[2:0]`. -/
  | cpyPal (idx : BitVec 4) (count : BitVec 3)
  /-- CPYX, kind PAL (R179, R115): table index `cmd[6:3]`, the 16-bit extension. -/
  | cpyxPal (idx : BitVec 4) (ext : BitVec 16)
  /-- DECODE (R170, R303): `CTRL` written with START = 1, OP = 0. -/
  | decode (kind : Kind) (irqEn : Bool)
  /-- ENCODE (R210, R303): `CTRL` written with START = 1, OP = 1. -/
  | encode (kind : Kind) (irqEn : Bool)
deriving DecidableEq, Repr

end Sys2Proof
end

