-- ==== Sys2Proof/Machine/Layout.lean ====
section
/-! DEFINITION. BitLayout (40_shift_resolver.md R150 to R155): pure functions of the table size and the
byte depth, written as the spec's formulas. -/

namespace Sys2Proof.Machine

/-- Entries of the shift table of a kind (00_scope.md R3, R8). -/
def tableSize : Kind → Nat
  | .tc => 32
  | .pal => 16

/-- Bytes per pixel of a kind, `d` (00_scope.md R3, R8). -/
def byteDepth : Kind → Nat
  | .tc => 3
  | .pal => 1

/-- R151: `countMask = 16 + (sbyte)~(8 + (tableSize>>5)*4)`, where the byte is read as signed. -/
def countMaskOf (size : Nat) : Nat :=
  (16 + (~~~ (BitVec.ofNat 8 (8 + (size >>> 5) * 4))).toInt).toNat

/-- R152: `shiftStart = 3 - (tableSize>>5)`. -/
def shiftStartOf (size : Nat) : Nat := 3 - (size >>> 5)

/-- R153: `countBase = byteDepth==1 ? 3 : 1`. -/
def countBaseOf (depth : Nat) : Nat := if depth = 1 then 3 else 1

/-- R154: `ignoreThreshold = byteDepth==1 ? 2 : 0`. -/
def ignoreThresholdOf (depth : Nat) : Nat := if depth = 1 then 2 else 0

/-- The count mask of a kind: mask of the count field and its saturated value (R151). -/
def countMask (k : Kind) : Nat := countMaskOf (tableSize k)

/-- The lowest bit of the shift-index field of a kind (R152). -/
def shiftStart (k : Kind) : Nat := shiftStartOf (tableSize k)

/-- The implied minimum copy length of a kind (R153). -/
def countBase (k : Kind) : Nat := countBaseOf (byteDepth k)

/-- The match length a copy must exceed (R154). -/
def ignoreThreshold (k : Kind) : Nat := ignoreThresholdOf (byteDepth k)

/-- R155: `countThreshold = countBase + countMask`. -/
def countThreshold (k : Kind) : Nat := countBase k + countMask k

/-- `maxMatchSize = 0xFFFF + 1` pixels (00_scope.md R8, 42_encoder.md R220). -/
def maxMatchSize : Nat := 0x10000

/-- `maxThunkSize = 0xFFFF + 0x7F` pixels (00_scope.md R8, 42_encoder.md R229). -/
def maxThunkSize : Nat := 0x1007E

end Sys2Proof.Machine
end

