-- ==== Sys2Proof/WellFormed.lean ====
section
/-! DEFINITION. Which instructions the encoding can write (30_encoding.md R113 to R115, R120): the
saturated field values belong to the escaped forms. -/

namespace Sys2Proof

/-- The saturated literal length and the saturated copy counts are not short forms (R113, R114, R115). -/
def Instr.wf : Instr → Bool
  | .seed => true
  | .lit len => len != 0x7F#7
  | .litx _ => true
  | .cpyTc _ count => count != 3#2
  | .cpyxTc _ _ => true
  | .cpyPal _ count => count != 7#3
  | .cpyxPal _ _ => true
  | .decode _ _ => true
  | .encode _ _ => true

/-- Whether an instruction can be read in a stream of kind `k`: the copy format is the kind's (R114,
R115, R125), everything else is the same for both. -/
def Instr.fitsKind (k : Kind) : Instr → Bool
  | .cpyTc _ _ => k == .tc
  | .cpyxTc _ _ => k == .tc
  | .cpyPal _ _ => k == .pal
  | .cpyxPal _ _ => k == .pal
  | .seed => true
  | .lit _ => true
  | .litx _ => true
  | .decode _ _ => true
  | .encode _ _ => true

end Sys2Proof
end

