-- ==== Sys2Proof/Decode.lean ====
section
/-! DEFINITION. The decoder of the command stream (30_encoding.md R111 to R121; 41_decoder.md R173, R174)
and of the host's job commands (10_state.md R33), total on any bytes, and after it the encoder of
instructions (30_encoding.md R113 to R115, R119). -/

namespace Sys2Proof

/-- Why no instruction was read. -/
inductive DecodeError where
  /-- The command byte or an extension byte is missing (41_decoder.md R173, R174). -/
  | truncated
  /-- A `CTRL` write with START = 0, which is no job command (10_state.md R33). -/
  | noStart
deriving DecidableEq, Repr

/-- `LE16(lo, hi)`: the byte read first is the low one (00_scope.md R12, 20_memory.md R83). -/
def le16 (lo hi : Byte) : BitVec 16 := hi ++ lo

/-- `ReadExt` (41_decoder.md R174): two further bytes, low byte first, then the instruction they complete. -/
def withExt (make : BitVec 16 → Instr) : List Byte → Except DecodeError (Instr × List Byte)
  | lo :: hi :: rest => .ok (make (le16 lo hi), rest)
  | _ => .error .truncated

/-- A copy command from its command byte and the bytes after it: the format of 30_encoding.md R114 (TC) or
R115 (PAL); a saturated count field is the escaped form. -/
def decodeCopy (k : Kind) (cmd : Byte) (rest : List Byte) : Except DecodeError (Instr × List Byte) :=
  match k with
  | .tc =>
    if cmd.extractLsb' 0 2 = 3#2 then withExt (.cpyxTc (cmd.extractLsb' 2 5)) rest
    else .ok (.cpyTc (cmd.extractLsb' 2 5) (cmd.extractLsb' 0 2), rest)
  | .pal =>
    if cmd.extractLsb' 0 3 = 7#3 then withExt (.cpyxPal (cmd.extractLsb' 3 4)) rest
    else .ok (.cpyPal (cmd.extractLsb' 3 4) (cmd.extractLsb' 0 3), rest)

/-- One command of a stream of kind `k`, in the decode order of 30_encoding.md R121, and the bytes after its header. -/
def decodeCommand (k : Kind) : List Byte → Except DecodeError (Instr × List Byte)
  | [] => .error .truncated
  | cmd :: rest =>
    if cmd = 0x7F#8 then withExt .litx rest
    else if cmd.getLsbD 7 = false then .ok (.lit (cmd.extractLsb' 0 7), rest)
    else decodeCopy k cmd rest

/-- `CTRL.KIND` from bit 2 (10_state.md R33). -/
def kindOfBit (b : Bool) : Kind := if b then .pal else .tc

/-- `CTRL.OP` from bit 1 (10_state.md R33). -/
def opOfBit (b : Bool) : Op := if b then .encode else .decode

/-- The job command in a word written to `CTRL` (10_state.md R33; rows DECODE and ENCODE): bits 31:4 are ignored. -/
def decodeCtrl (v : Word) : Except DecodeError Instr :=
  if v.getLsbD 0 then
    match opOfBit (v.getLsbD 1) with
    | .decode => .ok (.decode (kindOfBit (v.getLsbD 2)) (v.getLsbD 3))
    | .encode => .ok (.encode (kindOfBit (v.getLsbD 2)) (v.getLsbD 3))
  else .error .noStart

/-! ### The encoder of instructions -/

/-- Where an instruction stands: by position, in the stream, or in a word written to `CTRL`. -/
inductive Code where
  | positional
  | stream (bytes : List Byte)
  | ctrl (value : Word)
deriving DecidableEq, Repr

/-- The two bytes of an extension, low byte first (20_memory.md R83). -/
def extBytes (ext : BitVec 16) : List Byte := [ext.extractLsb' 0 8, ext.extractLsb' 8 8]

/-- The word a host writes to `CTRL` for a job command (10_state.md R33): reserved bits 0. -/
def ctrlCommand (op : Op) (kind : Kind) (irqEn : Bool) : Word :=
  (0#28 : BitVec 28) ++ BitVec.ofBool irqEn ++ BitVec.ofBool (kind == .pal) ++ BitVec.ofBool (op == .encode) ++ 1#1

/-- The header bytes of a stream command (30_encoding.md R113 to R115). -/
def headerBytes : Instr → List Byte
  | .lit len => [0#1 ++ len]
  | .litx ext => 0x7F#8 :: extBytes ext
  | .cpyTc idx count => [1#1 ++ idx ++ count]
  | .cpyxTc idx ext => (1#1 ++ idx ++ 3#2) :: extBytes ext
  | .cpyPal idx count => [1#1 ++ idx ++ count]
  | .cpyxPal idx ext => (1#1 ++ idx ++ 7#3) :: extBytes ext
  | .seed => []
  | .decode _ _ => []
  | .encode _ _ => []

/-- The words of an instruction, from the encoding tables of 30_encoding.md and 10_state.md R33. -/
def encode : Instr → Code
  | .seed => .positional
  | .lit len => .stream (headerBytes (.lit len))
  | .litx ext => .stream (headerBytes (.litx ext))
  | .cpyTc idx count => .stream (headerBytes (.cpyTc idx count))
  | .cpyxTc idx ext => .stream (headerBytes (.cpyxTc idx ext))
  | .cpyPal idx count => .stream (headerBytes (.cpyPal idx count))
  | .cpyxPal idx ext => .stream (headerBytes (.cpyxPal idx ext))
  | .decode kind irqEn => .ctrl (ctrlCommand .decode kind irqEn)
  | .encode kind irqEn => .ctrl (ctrlCommand .encode kind irqEn)

/-- The instruction a code stands for under the job's kind (the kind is a job parameter and not part of the
stream, 30_encoding.md R125), with the stream bytes that follow it. -/
def decodeCode (k : Kind) : Code → Except DecodeError (Instr × List Byte)
  | .positional => .ok (.seed, [])
  | .stream bytes => decodeCommand k bytes
  | .ctrl v =>
    match decodeCtrl v with
    | .ok i => .ok (i, [])
    | .error e => .error e

/-! ### The host's view of the opcode table -/

/-- The header bytes a word of the opcode table stands for: its first byte is bits 7:0, and so on; the longest
header has three bytes (30_encoding.md R125). -/
def tableBytes (w : Nat) : List Byte :=
  [BitVec.ofNat 8 w, BitVec.ofNat 8 (w / 256), BitVec.ofNat 8 (w / 65536)]

/-- The instruction the decoder reads from a word of the opcode table. Log entry 14: a row with no bits is the
positional SEED; 32 bits are a word written to `CTRL`; anything shorter is a stream command, read under the kind that
holds after reset, TC. -/
def decodeTableWord (nbits w : Nat) : Option Instr :=
  if nbits = 0 then some .seed
  else if 32 ≤ nbits then (decodeCtrl (BitVec.ofNat 32 w)).toOption
  else ((decodeCommand .tc (tableBytes w)).toOption).map Prod.fst

end Sys2Proof
end

