-- ==== Sys2Proof/Config.lean ====
section
/-! DEFINITION. What an implementation or a platform fixes (00_scope.md R8; 10_state.md R52, R53), with
the spec's defaults, and the free values. `Params` is a field of the state, which no step changes, so
that a statement about every state is one about every value of the OPEN parameters. -/

namespace Sys2Proof

/-- The parameters of MRCT-CORE (00_scope.md R8; 93_implementation_defined.md U1, U19). -/
structure Params where
  /-- `ADDR_W`: the buffer memory has `2 ^ addrW` bytes (20_memory.md R80). -/
  addrW : Nat
  /-- `MAX_TOTAL_BYTES` (60_exceptions.md R273 check 2). -/
  maxTotalBytes : Nat
  /-- `HAS_IRQ`: the completion interrupt line is present (60_exceptions.md R285). -/
  hasIrq : Bool
  /-- `REG_BASE`: the bus address of the register file (10_state.md R32). -/
  regBase : Word
  /-- `SHIFT_TABLE_TC[0..31]`, signed 8-bit codes (10_state.md R51). -/
  shiftTableTc : Vector (BitVec 8) 32
  /-- `SHIFT_TABLE_PAL[0..15]`, signed 8-bit codes (10_state.md R51). -/
  shiftTablePal : Vector (BitVec 8) 16
  /-- Address ranges (base, length) where the platform places devices with side effects (20_memory.md R88). -/
  devices : List (Nat × Nat)
deriving DecidableEq, Repr

namespace Config

/-- PRESUMED (log entry 4), unsafe: the default contents of `SHIFT_TABLE_TC` of 10_state.md R52, which the
spec itself marks as general knowledge; no statement rests on them. -/
def defaultTableTc : Vector (BitVec 8) 32 :=
  #v[0xF0, 0xE0, 0xD0, 0xC0, 0xB0, 0xA0,
     0x31, 0x21, 0x11, 0x01, 0xF1, 0xE1, 0xD1,
     0x32, 0x22, 0x12, 0x02, 0xF2, 0xE2, 0xD2,
     0x33, 0x23, 0x13, 0x03, 0xF3, 0xE3, 0xD3,
     0x24, 0x14, 0x04, 0xF4, 0xE4]

/-- PRESUMED (log entry 4), unsafe: the default contents of `SHIFT_TABLE_PAL` of 10_state.md R52. -/
def defaultTablePal : Vector (BitVec 8) 16 :=
  #v[0xF0, 0xE0, 0xD0, 0xC0,
     0x31, 0x21, 0x11, 0x01, 0xF1, 0xE1, 0xD1,
     0x22, 0x12, 0x02, 0xF2, 0xE2]

/-- The defaults of 00_scope.md R8. `REG_BASE` has none in the spec: 0 is a DESIGN CHOICE (log entry 3),
unsafe only for a claim about one bus address. No devices in memory: DESIGN CHOICE (log entry 12), unsafe for a
platform that has some. -/
def defaultParams : Params :=
  { addrW := 32
    maxTotalBytes := 2 ^ 32 - 1
    hasIrq := true
    regBase := 0
    shiftTableTc := defaultTableTc
    shiftTablePal := defaultTablePal
    devices := [] }

/-- Free value (log entry 7), safe: which of the step boundaries the running job has passed a read of `SRC_POS` or
`DST_POS` while BUSY shows (93_implementation_defined.md U2). Applied to `State.draws`; no body. -/
opaque boundaryDraw : Nat → Nat

/-- Free value (log entry 8), safe: the byte a host read of the destination window returns while BUSY
(20_memory.md R93 (c)). Applied to `State.draws`; no body. -/
opaque busyByte : Nat → Byte

end Config

end Sys2Proof
end

