-- ==== Sys2Proof/Machine/State.lean ====
section
/-! DEFINITION. The state of MRCT-CORE as plain data (10_state.md; INVENTORY.md, "## State"), the reasons a
step can stop, and the state after reset (70_reset_and_hazards.md R301). -/

namespace Sys2Proof.Machine

/-- The buffer memory (20_memory.md R80) as a list of cells in one canonical form (`Memory.wf` in Ops.lean):
addresses strictly rising, no cell equal to what an unlisted address reads as. -/
abbrev Memory := List Host.Cell

/-- DESIGN CHOICE (log entry 5), unsafe: what a byte of the buffer memory that nothing has written reads as. -/
def fillByte : Byte := 0

/-- What the engine does in its next step (10_state.md R31; 70_reset_and_hazards.md R312): IDLE, or BUSY and
about to make the configuration check, the seed, or a pass of the job's loop (its last pass ends the job). -/
inductive Engine where
  | idle
  | check
  | seed
  | loop
deriving DecidableEq, Repr

/-- The error codes of 60_exceptions.md R271. -/
inductive JobError where
  | truncated
  | srcShort
  | pixelOob
  | shiftParam
  | config
  | dstOverflow
deriving DecidableEq, Repr

/-- The job state (10_state.md R42 to R50): the constants latched at START, the decoder's cursors, the
encoder's cursors, and the boundaries the job has passed. Cursors are exact integers (92_eei_decisions.md D8). -/
structure Job where
  /-- Latched `CTRL.OP` (R42). -/
  op : Op
  /-- Latched `CTRL.KIND` (R42). -/
  kind : Kind
  /-- Latched `WIDTH` (R42). -/
  width : Word
  /-- Latched `HEIGHT` (R42). -/
  height : Word
  /-- The latched source window (20_memory.md R81). -/
  srcBase : Word
  srcLen : Word
  /-- The latched destination window (20_memory.md R81). -/
  dstBase : Word
  dstCap : Word
  /-- `shiftDeltas[0..tableSize-1]`, in pixels (R42; 40_shift_resolver.md R158). -/
  shiftDeltas : List Int
  /-- Decoder read cursor (R43). -/
  srcPos : Nat
  /-- Decoder write cursor (R44). -/
  dstPos : Nat
  /-- Decoder remaining byte count (R45). -/
  remBytes : Nat
  /-- Source offset of the current command byte (41_decoder.md R173). -/
  cmdStart : Nat
  /-- Encoder pixel cursor (R47). -/
  current : Nat
  /-- First pixel of the pending literal (R48). -/
  litStart : Nat
  /-- Pixels in the pending literal (R48). -/
  litLen : Nat
  /-- Encoder output cursor (R49). -/
  outPos : Nat
  /-- Longest match of the last search (R50). -/
  bestLen : Nat
  /-- Its table index (R50). -/
  bestIdx : Nat
  /-- The model's own field (log entry 7): the (`SRC_POS`, `DST_POS`) values at the step boundaries this job has
  passed, latest first. -/
  passed : List (Nat × Nat)
deriving DecidableEq, Repr

/-- DESIGN CHOICE (log entry 6), unsafe only for a claim about a value no rule reads: the job state after reset,
which 70_reset_and_hazards.md R301 leaves unspecified. -/
def Job.blank : Job :=
  { op := .decode, kind := .tc, width := 0, height := 0
    srcBase := 0, srcLen := 0, dstBase := 0, dstCap := 0
    shiftDeltas := []
    srcPos := 0, dstPos := 0, remBytes := 0, cmdStart := 0
    current := 0, litStart := 0, litLen := 0, outPos := 0, bestLen := 0, bestIdx := 0
    passed := [] }

/-- What the host can do to the block (10_state.md R30, R32; 60_exceptions.md R282; 70_reset_and_hazards.md R300).
Register addresses are bus addresses; memory addresses are those of the buffer memory. -/
inductive HostAction where
  /-- A register read of `size` bytes at bus address `addr`. -/
  | regRead (addr : Word) (size : Nat)
  /-- A register write of `size` bytes at bus address `addr`. -/
  | regWrite (addr : Word) (size : Nat) (value : Word)
  /-- A read of one byte of the buffer memory. -/
  | memRead (addr : Nat)
  /-- A write of one byte of the buffer memory, by the host or another bus agent. -/
  | memWrite (addr : Nat) (value : Byte)
  /-- The platform's reset input (R300). -/
  | reset
deriving DecidableEq, Repr

/-- Whose move is next (log entry 1): the engine, or the host with an action. -/
inductive Turn where
  | engine
  | host (action : HostAction)
deriving DecidableEq, Repr

/-- The state of the machine: the parameters (00_scope.md R8), the register file (10_state.md R32 to R41), the
engine's mode and job state (R31, R42 to R50), the buffer memory (20_memory.md R80), and the model's own fields. -/
structure State where
  /-- The parameters and the shift-table ROM (00_scope.md R8; 10_state.md R51, R53); no step changes them. -/
  params : Params
  /-- `CTRL.OP` (R33). -/
  op : Op
  /-- `CTRL.KIND` (R33). -/
  kind : Kind
  /-- `CTRL.IRQ_EN` (R33). -/
  irqEn : Bool
  /-- `STATUS.DONE` (R34). -/
  done : Bool
  /-- `STATUS.ERROR` (R34). -/
  error : Bool
  /-- `STATUS.ERR_CODE` (R34). -/
  errCode : BitVec 4
  /-- `WIDTH` (R35). -/
  width : Word
  /-- `HEIGHT` (R35). -/
  height : Word
  /-- `SRC_BASE` (R36). -/
  srcBase : Word
  /-- `SRC_LEN` (R36). -/
  srcLen : Word
  /-- `DST_BASE` (R37). -/
  dstBase : Word
  /-- `DST_CAP` (R37). -/
  dstCap : Word
  /-- `SRC_POS` as START and the end of a job leave it (R38). -/
  srcPosReg : Word
  /-- `DST_POS` as START and the end of a job leave it (R39). -/
  dstPosReg : Word
  /-- `ERR_POS` (R40). -/
  errPos : Word
  /-- The engine's mode and next step (R31; 70_reset_and_hazards.md R312). -/
  engine : Engine
  /-- The job state (R42 to R50). -/
  job : Job
  /-- The buffer memory (20_memory.md R80). -/
  mem : Memory
  /-- The model's own field (log entry 1): who moves next; when the list is used up, the engine. -/
  turns : List Turn
  /-- The model's own field (log entry 19): the value the host's last read returned. -/
  rdata : Word
  /-- The model's own field (log entries 7 and 8): how many free values have been drawn. -/
  draws : Nat
deriving DecidableEq, Repr

/-- Why the machine stops with a fault. The errors of 60_exceptions.md R271 are none of these: they end a job in a
next state. -/
inductive Fault where
  /-- Raised by an engine read where `SrcByte` is not defined (00_scope.md R13; 20_memory.md R81): outside the
  source window, or the window passes the top of memory. Safe (log entry 9): no state that satisfies the invariant
  of Safety.lean raises it. -/
  | sourceWindow
  /-- Raised by an engine access where `DstByte` or `SetDst` is not defined (00_scope.md R13; 20_memory.md R81).
  Safe (log entry 9), as above. -/
  | destinationWindow
  /-- Raised by a host access to a byte at or past `2 ^ ADDR_W`, which does not exist (20_memory.md R80). Safe
  (log entry 21). -/
  | noSuchByte
deriving DecidableEq, Repr

/-- Why a step has no meaning in the model. -/
inductive Refusal where
  /-- Raised by `exec` for an instruction without a meaning yet: none. Safe. -/
  | notModelled (mnemonic : String)
  /-- Raised by a register access that is not a naturally aligned 32-bit access (10_state.md R32;
  93_implementation_defined.md U10: refuse). Safe (log entry 10). -/
  | registerAccessShape
  /-- Raised by a write to a byte of a running job's window (70_reset_and_hazards.md R310; U8: refuse). Safe (log
  entry 11). -/
  | writeToBusyWindow
  /-- Raised by a job whose window holds a device, and by a host access to a device (20_memory.md R88; U11: refuse).
  Safe (log entry 12). -/
  | deviceAccess
deriving DecidableEq, Repr

/-- The machine right after reset (70_reset_and_hazards.md R300, R301), with the parameters at their defaults and no
byte of memory listed. -/
def State.reset : State :=
  { params := Config.defaultParams
    op := .decode, kind := .tc, irqEn := false
    done := false, error := false, errCode := 0
    width := 0, height := 0, srcBase := 0, srcLen := 0, dstBase := 0, dstCap := 0
    srcPosReg := 0, dstPosReg := 0, errPos := 0
    engine := .idle
    job := Job.blank
    mem := []
    turns := []
    rdata := 0
    draws := 0 }

end Sys2Proof.Machine
end

