-- ==== Sys2Proof/Machine/Flags.lean ====
section
/-! DEFINITION. The flags of MRCT-CORE: the bits of `STATUS` and the interrupt line (10_state.md R31, R34;
60_exceptions.md R271, R285). The command stream has no condition codes (R34). -/

namespace Sys2Proof.Machine

/-- `STATUS.BUSY` reads the engine's mode (R31, R34). -/
def State.busy (s : State) : Bool := s.engine != .idle

/-- The 4-bit code of a job error (R271). -/
def JobError.code : JobError → BitVec 4
  | .truncated => 1
  | .srcShort => 2
  | .pixelOob => 3
  | .shiftParam => 4
  | .config => 5
  | .dstOverflow => 6

/-- `CTRL` as it reads (10_state.md R33): START and the reserved bits read 0. -/
def State.ctrlWord (s : State) : Word :=
  (0#28 : BitVec 28) ++ BitVec.ofBool s.irqEn ++ BitVec.ofBool (s.kind == .pal) ++ BitVec.ofBool (s.op == .encode) ++ 0#1

/-- `STATUS` as it reads (R34): the reserved bits read 0. -/
def State.statusWord (s : State) : Word :=
  (0#20 : BitVec 20) ++ s.errCode ++ 0#5 ++ BitVec.ofBool s.error ++ BitVec.ofBool s.done ++ BitVec.ofBool s.busy

/-- The interrupt output (R285): `IRQ = CTRL.IRQ_EN & (STATUS.DONE | STATUS.ERROR)`, where the line is present. -/
def State.irq (s : State) : Bool := s.params.hasIrq && s.irqEn && (s.done || s.error)

end Sys2Proof.Machine
end

