-- ==== Sys2Proof/Machine/Operands.lean ====
section
/-! DEFINITION. The operand forms of the commands: run lengths (30_encoding.md R113 to R118), the job's derived
values (00_scope.md R9), and the fields of the registers the host writes (10_state.md R33, R36). -/

namespace Sys2Proof.Machine

/-- Pixels of a LIT: `n = L + 1` (R113). -/
def litPixels (len : BitVec 7) : Nat := len.toNat + 1

/-- Pixels of a LITX: `n = 0x7F + ext + 1` (R113, R118). -/
def litxPixels (ext : BitVec 16) : Nat := 0x7F + ext.toNat + 1

/-- Pixels of a CPY: `n = C + countBase` (R114, R115). -/
def copyPixels (k : Kind) (count : Nat) : Nat := count + countBase k

/-- Pixels of a CPYX: `n = countMask + ext + countBase` (R114, R115, R118). -/
def copyxPixels (k : Kind) (ext : BitVec 16) : Nat := countMask k + ext.toNat + countBase k

/-- `d`, the job's bytes per pixel (10_state.md R42). -/
def Job.d (j : Job) : Nat := byteDepth j.kind

/-- `totalPixels = width * height`, exact (00_scope.md R9). -/
def Job.totalPixels (j : Job) : Nat := j.width.toNat * j.height.toNat

/-- `totalBytes = totalPixels * d`, exact (00_scope.md R9). -/
def Job.totalBytes (j : Job) : Nat := j.totalPixels * j.d

/-- The byte delta of table index `i`: `shiftDeltas[i] * d` (40_shift_resolver.md R158). -/
def Job.byteDelta (j : Job) (i : Nat) : Int := j.shiftDeltas.getD i 0 * (j.d : Int)

/-- A value written to `SRC_BASE` or `DST_BASE`: bits 31 down to `ADDR_W` are hard-wired to 0 (10_state.md R36, R37). -/
def baseValue (p : Params) (v : Word) : Word := BitVec.ofNat 32 (v.toNat % 2 ^ p.addrW)

end Sys2Proof.Machine
end

