-- ==== Sys2Proof/Machine/Ops.lean ====
section
/-! DEFINITION. The operations over the buffer memory (20_memory.md), the engine's windows onto it, the step
boundary, and the end of a job: taking a job error and its acknowledgement (60_exceptions.md R276 to R280). -/

namespace Sys2Proof.Machine

/-! ### The buffer memory -/

/-- `MemRead(addr, 1)` (00_scope.md R13): an unlisted byte reads as `fillByte`. -/
def Memory.read : Memory → Nat → Byte
  | [], _ => fillByte
  | (b, v) :: rest, a => if a = b then v else Memory.read rest a

/-- `MemWrite(addr, 1, v)` (00_scope.md R13), keeping the canonical form. -/
def Memory.write : Memory → Nat → Byte → Memory
  | [], a, v => if v = fillByte then [] else [(a, v)]
  | (b, w) :: rest, a, v =>
    if a < b then (if v = fillByte then (b, w) :: rest else (a, v) :: (b, w) :: rest)
    else if a = b then (if v = fillByte then rest else (a, v) :: rest)
    else (b, w) :: Memory.write rest a v

/-- The addresses rise strictly from `lo` and no cell holds `fillByte`. -/
def Memory.risesFrom : Memory → Nat → Bool
  | [], _ => true
  | (b, v) :: rest, lo => decide (lo ≤ b) && v != fillByte && Memory.risesFrom rest (b + 1)

/-- The canonical form of the buffer memory. -/
def Memory.wf (m : Memory) : Bool := m.risesFrom 0

/-- Every listed byte lies below `top`. -/
def Memory.below (m : Memory) (top : Nat) : Bool := m.all fun c => decide (c.1 < top)

/-- The `n` bytes from address `a` up. -/
def Memory.readList (m : Memory) (a : Nat) : Nat → List Byte
  | 0 => []
  | n + 1 => m.read a :: m.readList (a + 1) n

/-- Writes bytes at increasing addresses from `a` (20_memory.md R84). -/
def Memory.writeList (m : Memory) (a : Nat) : List Byte → Memory
  | [] => m
  | v :: rest => (m.write a v).writeList (a + 1) rest

/-- The forward byte loop of 41_decoder.md R177 and R181: `n` bytes, one at a time in increasing order, each
read after every earlier one is written (20_memory.md R91; 70_reset_and_hazards.md R313). -/
def Memory.copyForward (m : Memory) (src dst : Nat) : Nat → Memory
  | 0 => m
  | n + 1 => (m.write dst (m.read src)).copyForward (src + 1) (dst + 1) n

/-! ### The windows -/

/-- One past the last byte of the buffer memory (20_memory.md R80). -/
def State.addressTop (s : State) : Nat := 2 ^ s.params.addrW

/-- Two address ranges have no byte in common (20_memory.md R82). -/
def rangesDisjoint (base1 len1 base2 len2 : Nat) : Bool :=
  decide (len1 = 0) || decide (len2 = 0) || decide (base1 + len1 ≤ base2) || decide (base2 + len2 ≤ base1)

/-- Whether address `a` lies in the range of `len` bytes from `base`. -/
def inRange (base len a : Nat) : Bool := decide (base ≤ a) && decide (a < base + len)

/-- `SrcByte` is defined on the offsets `[off, off + n)` (00_scope.md R13; 20_memory.md R81, R82). -/
def State.srcDefined (s : State) (off n : Nat) : Bool :=
  decide (off + n ≤ s.job.srcLen.toNat) && decide (s.job.srcBase.toNat + s.job.srcLen.toNat ≤ s.addressTop)

/-- `DstByte` and `SetDst` are defined on the offsets `[off, off + n)` (00_scope.md R13; 20_memory.md R81, R82). -/
def State.dstDefined (s : State) (off n : Nat) : Bool :=
  decide (off + n ≤ s.job.dstCap.toNat) && decide (s.job.dstBase.toNat + s.job.dstCap.toNat ≤ s.addressTop)

/-- The address of source offset `i`: `SRC_BASE + i` (00_scope.md R13). -/
def Job.srcAddr (j : Job) (i : Nat) : Nat := j.srcBase.toNat + i

/-- The address of destination offset `i`: `DST_BASE + i` (00_scope.md R13). -/
def Job.dstAddr (j : Job) (i : Nat) : Nat := j.dstBase.toNat + i

/-! ### Step boundaries -/

/-- The job has passed a step boundary at which the position registers would hold `sp` and `dp` (10_state.md R38,
R39; 93_implementation_defined.md U2). -/
def State.passBoundary (s : State) (sp dp : Nat) : State :=
  { s with job := { s.job with passed := (sp, dp) :: s.job.passed } }

/-- The end of a decoder command that read up to `srcPos` and produced `nb` bytes into `mem` (41_decoder.md R177,
R180). -/
def State.commandDone (s : State) (mem : Memory) (srcPos nb : Nat) : State :=
  State.passBoundary
    { s with
      mem := mem
      job := { s.job with
        srcPos := srcPos
        dstPos := s.job.dstPos + nb
        remBytes := s.job.remBytes - nb
        cmdStart := s.job.srcPos } }
    srcPos (s.job.dstPos + nb)

/-! ### The end of a job -/

/-- Taking a job error: `raise JobError(code)` (60_exceptions.md R276) with the positions of R277. One atomic step:
the code, `ERROR`, the three positions, and the mode becomes IDLE; nothing else. -/
def State.raise (s : State) (e : JobError) (sp dp ep : Nat) : State :=
  { s with
    errCode := e.code
    error := true
    srcPosReg := BitVec.ofNat 32 sp
    dstPosReg := BitVec.ofNat 32 dp
    errPos := BitVec.ofNat 32 ep
    engine := .idle }

/-- A decoder command that starts at the read cursor fails: the positions are `cmdStart`, `dstPos`, `cmdStart` (R277). -/
def State.raiseInCommand (s : State) (e : JobError) : State :=
  State.raise { s with job := { s.job with cmdStart := s.job.srcPos } } e s.job.srcPos s.job.dstPos s.job.srcPos

/-- An encoder's emission unit fails: the positions are `current * d`, `outPos`, `current` (R277). -/
def State.raiseInUnit (s : State) (e : JobError) : State :=
  s.raise e (s.job.current * s.job.d) s.job.outPos s.job.current

/-- `EndJob(DONE)` (60_exceptions.md R279): one atomic step. -/
def State.endDone (s : State) (sp dp : Nat) : State :=
  { s with
    done := true
    srcPosReg := BitVec.ofNat 32 sp
    dstPosReg := BitVec.ofNat 32 dp
    engine := .idle }

/-- The host's acknowledgement, the counterpart of taking an error (60_exceptions.md R280): a write of `v` to
`STATUS` (10_state.md R34). Bit 1 clears `DONE`, bit 2 clears `ERROR` and `ERR_CODE`. -/
def State.acknowledge (s : State) (v : Word) : State :=
  { s with
    done := s.done && !v.getLsbD 1
    error := s.error && !v.getLsbD 2
    errCode := if v.getLsbD 2 then 0 else s.errCode }

end Sys2Proof.Machine
end

