-- ==== Sys2Proof/Machine/Copy.lean ====
section
/-! DEFINITION. The copy runs (41_decoder.md R178 to R181). -/

namespace Sys2Proof.Machine

/-- `CopyBody(n, shiftIdx)` (R180) of a command with `header` header bytes: the length test, the shift test, then the
overlap-aware copy of `n * d` bytes (R181). -/
def copyBody (header n idx : Nat) (s : State) : Host.Outcome State Fault Refusal :=
  let nb := n * s.job.d
  let delta := s.job.byteDelta idx
  if s.job.remBytes < nb then .next (s.raiseInCommand .pixelOob)
  else if 0 ≤ delta ∨ (s.job.dstPos : Int) + delta < 0 then .next (s.raiseInCommand .shiftParam)
  else if !s.dstDefined s.job.dstPos nb then .fault .destinationWindow
  else .next (s.commandDone
    (s.mem.copyForward (s.job.dstAddr ((s.job.dstPos : Int) + delta).toNat) (s.job.dstAddr s.job.dstPos) nb)
    (s.job.srcPos + header) nb)

/-- CPY, kind TC (R178): `n = C + 1` pixels. -/
def execCpyTc (idx : BitVec 5) (count : BitVec 2) (s : State) : Host.Outcome State Fault Refusal :=
  copyBody 1 (copyPixels .tc count.toNat) idx.toNat s

/-- CPYX, kind TC (R179): `n = 3 + ext + 1` pixels. -/
def execCpyxTc (idx : BitVec 5) (ext : BitVec 16) (s : State) : Host.Outcome State Fault Refusal :=
  copyBody 3 (copyxPixels .tc ext) idx.toNat s

/-- CPY, kind PAL (R178): `n = C + 3` pixels. -/
def execCpyPal (idx : BitVec 4) (count : BitVec 3) (s : State) : Host.Outcome State Fault Refusal :=
  copyBody 1 (copyPixels .pal count.toNat) idx.toNat s

/-- CPYX, kind PAL (R179): `n = 7 + ext + 3` pixels. -/
def execCpyxPal (idx : BitVec 4) (ext : BitVec 16) (s : State) : Host.Outcome State Fault Refusal :=
  copyBody 3 (copyxPixels .pal ext) idx.toNat s

end Sys2Proof.Machine
end

