-- ==== Sys2Proof/Machine/Resolver.lean ====
section
/-! DEFINITION. The shift-table back-reference resolver (40_shift_resolver.md R156 to R158). -/

namespace Sys2Proof.Machine

/-- R156: `rowDelta = code & 0x0F`, 0 to 15. -/
def rowDelta (code : BitVec 8) : Nat := (code &&& 0x0F#8).toNat

/-- R156: `colComponent = code >> 4`, the arithmetic shift of the signed byte, -8 to 7. -/
def colComponent (code : BitVec 8) : Int := (code.sshiftRight 4).toInt

/-- R158: `colComponent - rowDelta * width`, exact and in pixels. -/
def pixelDelta (width : Nat) (code : BitVec 8) : Int := colComponent code - (rowDelta code : Int) * (width : Int)

/-- The table a job's kind selects (10_state.md R51). -/
def shiftTable (p : Params) : Kind → List (BitVec 8)
  | .tc => p.shiftTableTc.toList
  | .pal => p.shiftTablePal.toList

/-- R158: `shiftDeltas[i]` for every index of the kind's table. -/
def resolveDeltas (p : Params) (k : Kind) (width : Nat) : List Int := (shiftTable p k).map (pixelDelta width)

end Sys2Proof.Machine
end

