-- ==== Sys2Proof/Machine/Job.lean ====
section
/-! DEFINITION. The start of a job (70_reset_and_hazards.md R303), which is the meaning of the job commands DECODE
and ENCODE, and the configuration check that the engine makes in its next step (60_exceptions.md R273). -/

namespace Sys2Proof.Machine

/-- The job constants latched at START (10_state.md R42; 20_memory.md R81), with the cursors cleared (R48: nothing
of one job reaches the next) and START itself as the first boundary (`SRC_POS` and `DST_POS` are 0 there, R303). -/
def latchJob (op : Op) (kind : Kind) (s : State) : Job :=
  { Job.blank with
    op := op
    kind := kind
    width := s.width
    height := s.height
    srcBase := s.srcBase
    srcLen := s.srcLen
    dstBase := s.dstBase
    dstCap := s.dstCap
    shiftDeltas := resolveDeltas s.params kind s.width.toNat
    passed := [(0, 0)] }

/-- A write of `CTRL` with START = 1 (10_state.md R33; 70_reset_and_hazards.md R303): accepted while IDLE; while BUSY
it stores only `IRQ_EN`. -/
def startJob (op : Op) (kind : Kind) (irqEn : Bool) (s : State) : State :=
  if s.busy then { s with irqEn := irqEn }
  else
    { s with
      op := op
      kind := kind
      irqEn := irqEn
      done := false
      error := false
      errCode := 0
      srcPosReg := 0
      dstPosReg := 0
      errPos := 0
      engine := .check
      job := latchJob op kind s }

/-- DECODE (41_decoder.md R170; 70_reset_and_hazards.md R303). -/
def execDecode (kind : Kind) (irqEn : Bool) (s : State) : Host.Outcome State Fault Refusal :=
  .next (startJob .decode kind irqEn s)

/-- ENCODE (42_encoder.md R210; 70_reset_and_hazards.md R303). -/
def execEncode (kind : Kind) (irqEn : Bool) (s : State) : Host.Outcome State Fault Refusal :=
  .next (startJob .encode kind irqEn s)

/-- A window's end does not pass the top of the address space (20_memory.md R82). -/
def wellPlaced (s : State) (base len : Word) : Bool := decide (base.toNat + len.toNat ≤ s.addressTop)

/-- R273 check 5: decode needs `DST_CAP ≥ totalBytes`, encode `SRC_LEN ≥ totalBytes`. -/
def capacityOk (j : Job) : Bool :=
  match j.op with
  | .decode => decide (j.totalBytes ≤ j.dstCap.toNat)
  | .encode => decide (j.totalBytes ≤ j.srcLen.toNat)

/-- The configuration checks of R273, in its order; every failure is `ERR_CONFIG`. -/
def configOk (s : State) : Bool :=
  decide (s.job.totalPixels ≠ 0)
  && decide (s.job.totalBytes ≤ s.params.maxTotalBytes)
  && wellPlaced s s.job.srcBase s.job.srcLen
  && wellPlaced s s.job.dstBase s.job.dstCap
  && rangesDisjoint s.job.srcBase.toNat s.job.srcLen.toNat s.job.dstBase.toNat s.job.dstCap.toNat
  && capacityOk s.job

/-- A device with side effects lies inside a window of the job (20_memory.md R88, U11). -/
def deviceInWindow (s : State) : Bool :=
  s.params.devices.any fun r =>
    !rangesDisjoint s.job.srcBase.toNat s.job.srcLen.toNat r.1 r.2
    || !rangesDisjoint s.job.dstBase.toNat s.job.dstCap.toNat r.1 r.2

/-- The configuration check step (R273; 70_reset_and_hazards.md R312 (2)). No memory is accessed. -/
def configCheck (s : State) : Host.Outcome State Fault Refusal :=
  if !configOk s then .next (s.raise .config 0 0 0)
  else if deviceInWindow s then .refused .deviceAccess
  else .next { s with engine := .seed }

end Sys2Proof.Machine
end

