-- ==== Sys2Proof/Machine/Literal.lean ====
section
/-! DEFINITION. The seed and the literal runs (41_decoder.md R172, R175 to R177). A command's meaning runs from the
read cursor at its command byte; its operands are already read (R173, R174). -/

namespace Sys2Proof.Machine

/-- `LiteralBody(n)` (R177) of a command with `header` header bytes: the length test, the data test, then the copy of
`n * d` bytes from the payload. -/
def literalBody (header n : Nat) (s : State) : Host.Outcome State Fault Refusal :=
  let nb := n * s.job.d
  let data := s.job.srcPos + header
  if s.job.remBytes < nb then .next (s.raiseInCommand .pixelOob)
  else if s.job.srcLen.toNat < data + nb then .next (s.raiseInCommand .srcShort)
  else if !s.srcDefined data nb then .fault .sourceWindow
  else if !s.dstDefined s.job.dstPos nb then .fault .destinationWindow
  else .next (s.commandDone (s.mem.copyForward (s.job.srcAddr data) (s.job.dstAddr s.job.dstPos) nb) (data + nb) nb)

/-- SEED (R172): copies the first `d` payload bytes and sets the cursors; too short a payload is `ERR_TRUNCATED` at
position 0 (60_exceptions.md R277). -/
def execSeed (s : State) : Host.Outcome State Fault Refusal :=
  let d := s.job.d
  if s.job.srcLen.toNat < d then .next (s.raise .truncated 0 0 0)
  else if !s.srcDefined 0 d then .fault .sourceWindow
  else if !s.dstDefined 0 d then .fault .destinationWindow
  else .next (State.passBoundary
    { s with
      mem := s.mem.copyForward (s.job.srcAddr 0) (s.job.dstAddr 0) d
      engine := .loop
      job := { s.job with
        srcPos := d
        dstPos := d
        remBytes := s.job.totalBytes - d
        cmdStart := 0 } }
    d d)

/-- LIT (R175): `n = cmd + 1` pixels after a header of 1 byte. -/
def execLit (len : BitVec 7) (s : State) : Host.Outcome State Fault Refusal :=
  literalBody 1 (litPixels len) s

/-- LITX (R176): `n = 0x7F + ext + 1` pixels after a header of 3 bytes. -/
def execLitx (ext : BitVec 16) (s : State) : Host.Outcome State Fault Refusal :=
  literalBody 3 (litxPixels ext) s

end Sys2Proof.Machine
end

