-- ==== Sys2Proof/Machine/Dispatch.lean ====
section
/-! DEFINITION. The meaning of every instruction: one arm per constructor of `Instr`. -/

namespace Sys2Proof.Machine

def exec (i : Instr) (s : State) : Host.Outcome State Fault Refusal :=
  match i with
  | .seed => Sys2Proof.Machine.execSeed s
  | .lit len => Sys2Proof.Machine.execLit len s
  | .litx ext => Sys2Proof.Machine.execLitx ext s
  | .cpyTc idx count => Sys2Proof.Machine.execCpyTc idx count s
  | .cpyxTc idx ext => Sys2Proof.Machine.execCpyxTc idx ext s
  | .cpyPal idx count => Sys2Proof.Machine.execCpyPal idx count s
  | .cpyxPal idx ext => Sys2Proof.Machine.execCpyxPal idx ext s
  | .decode kind irqEn => Sys2Proof.Machine.execDecode kind irqEn s
  | .encode kind irqEn => Sys2Proof.Machine.execEncode kind irqEn s

end Sys2Proof.Machine
end

