-- ==== Sys2Proof/Machine/Encoder.lean ====
section
/-! DEFINITION. The encode job after its configuration check (42_encoder.md): the match finder (R220 to R223), the
emission of the payload (R211, R228 to R230), and the engine's three encoder steps: seed, pass, finish. -/

namespace Sys2Proof.Machine

/-! ### The match finder -/

/-- `Pix(p) == Pix(q)`: two source pixels are byte-equal (00_scope.md R14). -/
def pixelsEqual (s : State) (p q : Nat) : Bool :=
  decide (s.mem.readList (s.job.srcAddr (p * s.job.d)) s.job.d = s.mem.readList (s.job.srcAddr (q * s.job.d)) s.job.d)

/-- Extends a match of `k` pixels by at most `room` more, while the next pair of pixels is equal (R220). -/
def extendMatch (same : Nat → Bool) : Nat → Nat → Nat
  | 0, k => k
  | room + 1, k => if same k then extendMatch same room (k + 1) else k

/-- `bound = min(current + maxMatchSize, totalPixels)` (R220, R223). -/
def matchBound (s : State) : Nat := min (s.job.current + maxMatchSize) s.job.totalPixels

/-- The match length of table index `i` at `current`, 0 where the entry is skipped (R220, R221). -/
def matchEntry (s : State) (i : Nat) : Nat :=
  let delta := s.job.shiftDeltas.getD i 0
  let prev := (s.job.current : Int) + delta
  if 0 ≤ delta then 0
  else if prev < 0 then 0
  else if !pixelsEqual s prev.toNat s.job.current then 0
  else extendMatch (fun k => pixelsEqual s (prev.toNat + k) (s.job.current + k)) (matchBound s - s.job.current - 1) 1

/-- The better of the best match so far and entry `i`: strictly longer wins, so ties go to the lowest index (R222). -/
def betterMatch (len : Nat → Nat) (best : Nat × Nat) (i : Nat) : Nat × Nat :=
  if best.1 < len i then (len i, i) else best

/-- `MatchSearch(current)` (R220): `(bestLen, bestIdx)` over the table in increasing index order. -/
def matchSearch (s : State) : Nat × Nat :=
  (List.range (tableSize s.job.kind)).foldl (betterMatch (matchEntry s)) (0, 0)

/-! ### Emission -/

/-- What an emission does: go on from a state, or end the step (a job error or a fault). -/
inductive Flow where
  | go (s : State)
  | stop (o : Host.Outcome State Fault Refusal)

/-- Continues a step after an emission. -/
def Flow.run (f : Flow) (rest : State → Host.Outcome State Fault Refusal) : Host.Outcome State Fault Refusal :=
  match f with
  | .go s => rest s
  | .stop o => o

/-- `EmitSeq(s)` (R211): the capacity test covers the whole unit before any byte of it is written. -/
def emitSeq (bytes : List Byte) (s : State) : Flow :=
  if s.job.dstCap.toNat < s.job.outPos + bytes.length then .stop (.next (s.raiseInUnit .dstOverflow))
  else if !s.dstDefined s.job.outPos bytes.length then .stop (.fault .destinationWindow)
  else .go
    { s with
      mem := s.mem.writeList (s.job.dstAddr s.job.outPos) bytes
      job := { s.job with outPos := s.job.outPos + bytes.length } }

/-- The bytes of a copy of `len` pixels at index `i` (R228; 30_encoding.md R119). -/
def copyUnit (k : Kind) (i len : Nat) : List Byte :=
  if countThreshold k ≤ len then
    [BitVec.ofNat 8 ((i <<< shiftStart k) ||| 0x80 ||| countMask k),
     BitVec.ofNat 8 ((len - countThreshold k) &&& 0xFF),
     BitVec.ofNat 8 ((len - countThreshold k) >>> 8)]
  else [BitVec.ofNat 8 ((i <<< shiftStart k) ||| 0x80 ||| (len - countBase k))]

/-- The header of a literal of `size` pixels (R230; 30_encoding.md R119). -/
def literalHeader (size : Nat) : List Byte :=
  if size ≤ 0x7F then [BitVec.ofNat 8 (size - 1)]
  else [0x7F#8, BitVec.ofNat 8 ((size - 0x80) &&& 0xFF), BitVec.ofNat 8 ((size - 0x80) >>> 8)]

/-- `EmitCopy(i, L)` (R228). -/
def emitCopy (i len : Nat) (s : State) : Flow := emitSeq (copyUnit s.job.kind i len) s

/-- The bytes of the pending literal: its header, then its pixels re-read from the source window (R230; 10_state.md R48). -/
def literalUnit (s : State) : List Byte :=
  literalHeader s.job.litLen ++ s.mem.readList (s.job.srcAddr (s.job.litStart * s.job.d)) (s.job.litLen * s.job.d)

/-- `FlushLiteral()` (R230): an empty buffer writes nothing. -/
def flushLiteral (s : State) : Flow :=
  if s.job.litLen = 0 then .go s
  else if !s.srcDefined (s.job.litStart * s.job.d) (s.job.litLen * s.job.d) then .stop (.fault .sourceWindow)
  else
    match emitSeq (literalUnit s) s with
    | .go t => .go { t with job := { t.job with litLen := 0 } }
    | .stop o => .stop o

/-- `AppendLiteral()` (R226). -/
def appendLiteral (s : State) : State :=
  { s with
    job := { s.job with
      litStart := if s.job.litLen = 0 then s.job.current else s.job.litStart
      litLen := s.job.litLen + 1
      current := s.job.current + 1 } }

/-! ### The engine's encoder steps -/

/-- The end of a step that leaves the encoder running: a boundary at `current * d` and `outPos` (10_state.md R38, R39). -/
def encoderBoundary (s : State) : State := s.passBoundary (s.job.current * s.job.d) s.job.outPos

/-- The setup and the seed of an encode job (R212; 70_reset_and_hazards.md R312 (3)). -/
def encodeSeed (s : State) : Host.Outcome State Fault Refusal :=
  let t := { s with job := { s.job with outPos := 0, litLen := 0, litStart := 1, current := 1 } }
  if !t.srcDefined 0 t.job.d then .fault .sourceWindow
  else (emitSeq (t.mem.readList (t.job.srcAddr 0) t.job.d) t).run fun u =>
    .next (encoderBoundary { u with engine := .loop })

/-- The copy path of a pass (R227): flush the pending literal, emit the copy, move past the match. -/
def copyPath (len idx : Nat) (s : State) : Host.Outcome State Fault Refusal :=
  (flushLiteral s).run fun t =>
    (emitCopy idx len t).run fun u =>
      .next (encoderBoundary { u with job := { u.job with current := u.job.current + len } })

/-- The literal path of a pass (R226, R229): append the pixel, and flush a literal that reached `maxThunkSize`. -/
def literalPath (s : State) : Host.Outcome State Fault Refusal :=
  let t := appendLiteral s
  if t.job.litLen = maxThunkSize then (flushLiteral t).run fun u => .next (encoderBoundary u)
  else .next (encoderBoundary t)

/-- One pass of the encoder's loop (R213, R224). The match finder reads the whole source image (R223). -/
def encodePass (s : State) : Host.Outcome State Fault Refusal :=
  if !s.srcDefined 0 s.job.totalBytes then .fault .sourceWindow
  else
    let best := matchSearch s
    let t := { s with job := { s.job with bestLen := best.1, bestIdx := best.2 } }
    if ignoreThreshold s.job.kind < best.1 then copyPath best.1 best.2 t else literalPath t

/-- The final flush and the end of an encode job (R231). -/
def encodeFinish (s : State) : Host.Outcome State Fault Refusal :=
  (flushLiteral s).run fun t => .next (t.endDone t.job.totalBytes t.job.outPos)

end Sys2Proof.Machine
end

