-- ==== Sys2Proof/Machine/Engine.lean ====
section
/-! DEFINITION. The engine's steps (70_reset_and_hazards.md R312): the fetch of a decode command (41_decoder.md
R173, R174) and the choice of the next step. -/

namespace Sys2Proof.Machine

/-- How many payload bytes a command header can still take: three at most (30_encoding.md R125), none past `SRC_LEN`
(10_state.md R43). -/
def headerRoom (j : Job) : Nat := min 3 (j.srcLen.toNat - j.srcPos)

/-- The payload bytes at the read cursor from which the decoder reads the next command's header. -/
def fetchBytes (s : State) : List Byte := s.mem.readList (s.job.srcAddr s.job.srcPos) (headerRoom s.job)

/-- One decode command (R173): the header is read at the read cursor and the instruction it encodes is run; a missing
command byte or extension byte is `ERR_TRUNCATED` (R173, R174). -/
def decodeStep (s : State) : Host.Outcome State Fault Refusal :=
  if !s.srcDefined s.job.srcPos (headerRoom s.job) && headerRoom s.job != 0 then .fault .sourceWindow
  else
    match decodeCommand s.job.kind (fetchBytes s) with
    | .ok (i, _) => exec i s
    | .error _ => .next (s.raiseInCommand .truncated)

/-- The end of a decode job (R184): `SRC_POS` and `DST_POS` take the cursors. -/
def decodeFinish (s : State) : Host.Outcome State Fault Refusal :=
  .next (s.endDone s.job.srcPos s.job.dstPos)

/-- One step of the engine (R312). While IDLE it does nothing (R302; log entry 15). -/
def engineTurn (s : State) : Host.Outcome State Fault Refusal :=
  match s.engine, s.job.op with
  | .idle, _ => .next s
  | .check, _ => configCheck s
  | .seed, .decode => exec .seed s
  | .seed, .encode => encodeSeed s
  | .loop, .decode => if s.job.remBytes = 0 then decodeFinish s else decodeStep s
  | .loop, .encode => if s.job.current < s.job.totalPixels then encodePass s else encodeFinish s

end Sys2Proof.Machine
end

