-- ==== Sys2Proof/Machine/Fetch.lean ====
section
/-! DEFINITION. Placing one instruction where the machine takes its next one from (log entry 13): a word for `CTRL`
in the host's next turn, or header bytes at the read cursor of a decode job. -/

namespace Sys2Proof.Machine

/-- Whether the engine's next step is the fetch of a decode command with room for a whole header. -/
def State.atCommand (s : State) : Bool :=
  s.engine == .loop && s.job.op == .decode && s.job.remBytes != 0
  && s.srcDefined s.job.srcPos 3

/-- DESIGN CHOICE (log entry 13): a decode job in the middle of an image, for a state that is not at a command:
kind TC, 8 pixels wide, 64 pixels done, the source window below the destination window, and room for the longest
command of the encoding. Registers and latched constants agree. -/
def loadedDecodeJob (s : State) : State :=
  { s with
    op := .decode, kind := .tc
    done := false, error := false, errCode := 0
    width := 8, height := 0x4000
    srcBase := 0, srcLen := 0x40000, dstBase := 0x100000, dstCap := 0x60000
    srcPosReg := 0, dstPosReg := 0, errPos := 0
    engine := .loop
    job := { Job.blank with
      op := .decode, kind := .tc
      width := 8, height := 0x4000
      srcBase := 0, srcLen := 0x40000, dstBase := 0x100000, dstCap := 0x60000
      shiftDeltas := resolveDeltas s.params .tc 8
      srcPos := 16, dstPos := 192, remBytes := 0x60000 - 192
      passed := [(16, 192), (0, 0)] } }

/-- The same job before its seed, for the positional instruction SEED. -/
def loadedSeedJob (s : State) : State :=
  let t := loadedDecodeJob s
  { t with
    engine := .seed
    job := { t.job with srcPos := 0, dstPos := 0, remBytes := 0, passed := [(0, 0)] } }

/-- Stores header bytes at the read cursor. -/
def storeAtCursor (bytes : List Byte) (s : State) : State :=
  { s with mem := s.mem.writeList (s.job.srcAddr s.job.srcPos) bytes }

/-- The host's next turn writes `v` to `CTRL`. -/
def placeCtrlWrite (v : Word) (s : State) : State :=
  { s with turns := .host (.regWrite s.params.regBase 4 v) :: s.turns }

/-- The engine's next turn fetches a command with these header bytes. -/
def placeCommand (bytes : List Byte) (s : State) : State :=
  let t := if s.atCommand then s else loadedDecodeJob s
  storeAtCursor bytes { t with turns := .engine :: t.turns }

/-- The engine's next turn copies the seed pixel. -/
def placeSeed (s : State) : State :=
  let t := if s.engine = .seed ∧ s.job.op = .decode then s else loadedSeedJob s
  { t with turns := .engine :: t.turns }

end Sys2Proof.Machine
end

