-- ==== Sys2Proof/Machine/HostPort.lean ====
section
/-! DEFINITION. The host's accesses (10_state.md R32 to R41; 60_exceptions.md R282): the register file, the buffer
memory, and reset (70_reset_and_hazards.md R300). -/

namespace Sys2Proof.Machine

/-- `ID`, hard-wired (10_state.md R41). -/
def idWord : Word := 0x4D524354

/-- The byte offset of a bus address from `REG_BASE` (R32). -/
def regOffset (s : State) (addr : Word) : Nat := (addr - s.params.regBase).toNat

/-- A naturally aligned 32-bit access (R32). -/
def alignedWord (offset size : Nat) : Bool := decide (size = 4) && decide (offset % 4 = 0)

/-- One of the values a position register held at the boundaries the job has passed, chosen by the free value
`Config.boundaryDraw` (93_implementation_defined.md U2; log entry 7). -/
def drawBoundary (values : List Nat) (draw : Nat) : Word :=
  BitVec.ofNat 32 (values.getD (Config.boundaryDraw draw % values.length) 0)

/-- The value of the register at an offset (R32); reserved offsets read 0. `SRC_POS` and `DST_POS` read while BUSY show
a passed boundary of the running job (R38, R39). -/
def readRegister (offset : Nat) (s : State) : Word :=
  match offset with
  | 0x00 => s.ctrlWord
  | 0x04 => s.statusWord
  | 0x08 => s.width
  | 0x0C => s.height
  | 0x10 => s.srcBase
  | 0x14 => s.srcLen
  | 0x18 => s.dstBase
  | 0x1C => s.dstCap
  | 0x20 => if s.busy then drawBoundary (s.job.passed.map Prod.fst) s.draws else s.srcPosReg
  | 0x24 => if s.busy then drawBoundary (s.job.passed.map Prod.snd) s.draws else s.dstPosReg
  | 0x28 => s.errPos
  | 0x2C => idWord
  | _ => 0

/-- A host register read: the value is returned, a free value is used up, and nothing else changes (R282). -/
def hostRegRead (addr : Word) (size : Nat) (s : State) : Host.Outcome State Fault Refusal :=
  let offset := regOffset s addr
  if alignedWord offset size then .next { s with rdata := readRegister offset s, draws := s.draws + 1 }
  else .refused .registerAccessShape

/-- A write of `CTRL` with START = 0 (R33): `OP`, `KIND` and `IRQ_EN` are stored; while BUSY only `IRQ_EN`. -/
def latchCtrl (v : Word) (s : State) : State :=
  if s.busy then { s with irqEn := v.getLsbD 3 }
  else { s with op := opOfBit (v.getLsbD 1), kind := kindOfBit (v.getLsbD 2), irqEn := v.getLsbD 3 }

/-- A write of `CTRL` (R33): a job command is decoded and run, any other value only latches the fields. -/
def writeCtrl (v : Word) (s : State) : Host.Outcome State Fault Refusal :=
  match decodeCtrl v with
  | .ok i => exec i s
  | .error _ => .next (latchCtrl v s)

/-- A write to a job register, ignored while BUSY (R35 to R37; 70_reset_and_hazards.md R315). -/
def writeJobRegister (s new : State) : State := if s.busy then s else new

/-- A write to the register at an offset (R32 to R41): read-only registers and reserved offsets ignore it. -/
def writeRegister (offset : Nat) (v : Word) (s : State) : Host.Outcome State Fault Refusal :=
  match offset with
  | 0x00 => writeCtrl v s
  | 0x04 => .next (s.acknowledge v)
  | 0x08 => .next (writeJobRegister s { s with width := v })
  | 0x0C => .next (writeJobRegister s { s with height := v })
  | 0x10 => .next (writeJobRegister s { s with srcBase := baseValue s.params v })
  | 0x14 => .next (writeJobRegister s { s with srcLen := v })
  | 0x18 => .next (writeJobRegister s { s with dstBase := baseValue s.params v })
  | 0x1C => .next (writeJobRegister s { s with dstCap := v })
  | _ => .next s

/-- A host register write (R32). -/
def hostRegWrite (addr : Word) (size : Nat) (v : Word) (s : State) : Host.Outcome State Fault Refusal :=
  let offset := regOffset s addr
  if alignedWord offset size then writeRegister offset v s else .refused .registerAccessShape

/-- Whether address `a` lies in a device's range (20_memory.md R88). -/
def deviceAt (s : State) (a : Nat) : Bool := s.params.devices.any fun r => inRange r.1 r.2 a

/-- Whether address `a` lies in a window of the running job (20_memory.md R93 (c)). -/
def inBusyWindow (s : State) (a : Nat) : Bool :=
  s.busy && (inRange s.job.srcBase.toNat s.job.srcLen.toNat a || inRange s.job.dstBase.toNat s.job.dstCap.toNat a)

/-- Whether address `a` lies in the destination window of the running job (20_memory.md R93 (c)). -/
def inBusyDestination (s : State) (a : Nat) : Bool :=
  s.busy && inRange s.job.dstBase.toNat s.job.dstCap.toNat a

/-- A host read of a byte of the buffer memory. The host may take no byte of a running job's destination window as a
result (20_memory.md R93 (c); 70_reset_and_hazards.md R310), so there the value is free (log entry 8). -/
def hostMemRead (a : Nat) (s : State) : Host.Outcome State Fault Refusal :=
  if s.addressTop ≤ a then .fault .noSuchByte
  else if deviceAt s a then .refused .deviceAccess
  else
    let v := if inBusyDestination s a then Config.busyByte s.draws else s.mem.read a
    .next { s with rdata := v.setWidth 32, draws := s.draws + 1 }

/-- A host write of a byte of the buffer memory; into a running job's window it is outside the model (R310, U8). -/
def hostMemWrite (a : Nat) (v : Byte) (s : State) : Host.Outcome State Fault Refusal :=
  if s.addressTop ≤ a then .fault .noSuchByte
  else if deviceAt s a then .refused .deviceAccess
  else if inBusyWindow s a then .refused .writeToBusyWindow
  else .next { s with mem := s.mem.write a v }

/-- Reset (70_reset_and_hazards.md R300, R301): every register takes its reset value and the engine is IDLE; the
buffer memory, the shift-table ROM and the parameters are unchanged. What the host's bus has read, its remaining
turns and the count of free values are not the block's and stay. -/
def platformReset (s : State) : State :=
  { State.reset with
    params := s.params
    mem := s.mem
    turns := s.turns
    rdata := s.rdata
    draws := s.draws }

/-- One action of the host. -/
def hostTurn (a : HostAction) (s : State) : Host.Outcome State Fault Refusal :=
  match a with
  | .regRead addr size => hostRegRead addr size s
  | .regWrite addr size v => hostRegWrite addr size v s
  | .memRead addr => hostMemRead addr s
  | .memWrite addr v => hostMemWrite addr v s
  | .reset => .next (platformReset s)

end Sys2Proof.Machine
end

