-- ==== Sys2Proof/Machine/Step.lean ====
section
/-! DEFINITION. One step of the machine: the next turn is taken from the list, and when the list is used up every
turn is the engine's (70_reset_and_hazards.md R312, R316; log entry 1). -/

namespace Sys2Proof.Machine

/-- One step: a turn of the engine or of the host. -/
def step (s : State) : Host.Outcome State Fault Refusal :=
  match s.turns with
  | [] => engineTurn s
  | .engine :: rest => engineTurn { s with turns := rest }
  | .host a :: rest => hostTurn a { s with turns := rest }

/-- `s` with the instruction of a word of the opcode table placed so that the next step runs it (log entry 13). -/
def State.withFetchWord (s : State) (nbits w : Nat) : State :=
  if nbits = 0 then placeSeed s
  else if 32 ≤ nbits then placeCtrlWrite (BitVec.ofNat 32 w) s
  else placeCommand (tableBytes w) s

end Sys2Proof.Machine
end

