-- ==== Sys2Proof/Safety.lean ====
section
/-! DEFINITION. What a good state of MRCT-CORE is: the invariant that every step keeps, and the relations that the
claims about two runs use. -/

namespace Sys2Proof.Machine

/-- The buffer memory is canonical and every listed byte exists (20_memory.md R80). -/
structure MemoryOk (s : State) : Prop where
  canonical : s.mem.wf = true
  inside : s.mem.below s.addressTop = true

/-- The hard-wired bits of `SRC_BASE` and `DST_BASE` are 0 (10_state.md R36, R37). -/
structure BasesOk (s : State) : Prop where
  src : s.srcBase.toNat < s.addressTop
  dst : s.dstBase.toNat < s.addressTop

/-- `DONE` and `ERROR` are never both 1 and both 0 while BUSY (10_state.md R34); `ERR_CODE` is 0 without an error and
one of the codes 1 to 6 with one (60_exceptions.md R271). -/
structure StatusOk (s : State) : Prop where
  exclusive : ¬ (s.done = true ∧ s.error = true)
  quietWhileBusy : s.busy = true → s.done = false ∧ s.error = false
  noCode : s.error = false → s.errCode = 0
  codeInRange : s.error = true → 1 ≤ s.errCode.toNat ∧ s.errCode.toNat ≤ 6

/-- The constants latched at START agree with the registers, which the host cannot change while BUSY (10_state.md R42;
70_reset_and_hazards.md R303, R315), and the position registers still hold what START wrote. -/
structure LatchOk (s : State) : Prop where
  op : s.job.op = s.op
  kind : s.job.kind = s.kind
  width : s.job.width = s.width
  height : s.job.height = s.height
  srcBase : s.job.srcBase = s.srcBase
  srcLen : s.job.srcLen = s.srcLen
  dstBase : s.job.dstBase = s.dstBase
  dstCap : s.job.dstCap = s.dstCap
  deltas : s.job.shiftDeltas = resolveDeltas s.params s.job.kind s.job.width.toNat
  srcPosReg : s.srcPosReg = 0
  dstPosReg : s.dstPosReg = 0
  errPos : s.errPos = 0

/-- The boundaries a running job has passed: at least START, and every value fits its window (10_state.md R38, R39, R43,
R44, R49), hence the 32-bit register it would be read from. -/
structure BoundariesOk (s : State) : Prop where
  some_passed : s.job.passed ≠ []
  inWindows : ∀ b ∈ s.job.passed, b.1 ≤ s.job.srcLen.toNat ∧ b.2 ≤ s.job.dstCap.toNat

/-- The decoder's cursors between commands (10_state.md R43 to R45; 41_decoder.md R183). -/
structure DecoderOk (s : State) : Prop where
  total : s.job.dstPos + s.job.remBytes = s.job.totalBytes
  wholePixels : s.job.d ∣ s.job.dstPos
  seedDone : s.job.d ≤ s.job.dstPos
  inPayload : s.job.srcPos ≤ s.job.srcLen.toNat
  latest : s.job.passed.head? = some (s.job.srcPos, s.job.dstPos)

/-- The encoder's cursors between passes (10_state.md R47 to R49; 42_encoder.md R229). -/
structure EncoderOk (s : State) : Prop where
  started : 1 ≤ s.job.current
  inImage : s.job.current ≤ s.job.totalPixels
  pending : 0 < s.job.litLen → s.job.litStart + s.job.litLen = s.job.current
  pendingStart : 1 ≤ s.job.litStart
  pendingShort : s.job.litLen < maxThunkSize
  inCapacity : s.job.outPos ≤ s.job.dstCap.toNat
  latest : s.job.passed.head? = some (s.job.current * s.job.d, s.job.outPos)

/-- The configuration check of the running job has passed (60_exceptions.md R273; 20_memory.md R88). -/
def Engine.checked : Engine → Bool
  | .idle => false
  | .check => false
  | .seed => true
  | .loop => true

/-- The invariant of the machine. -/
structure StateOk (s : State) : Prop where
  memory : MemoryOk s
  bases : BasesOk s
  status : StatusOk s
  latch : s.busy = true → LatchOk s
  boundaries : s.busy = true → BoundariesOk s
  config : s.engine.checked = true → configOk s = true
  noDevice : s.engine.checked = true → deviceInWindow s = false
  decoder : s.engine = .loop → s.job.op = .decode → DecoderOk s
  encoder : s.engine = .loop → s.job.op = .encode → EncoderOk s

/-- The running job has ended without error and the engine is IDLE (60_exceptions.md R279). -/
def endedDone (s : State) : Prop := s.engine = .idle ∧ s.done = true ∧ s.error = false

/-- The running job has ended, with `DONE` or with `ERROR`, and the engine is IDLE (10_state.md R31). -/
def ended (s : State) : Prop := s.engine = .idle ∧ (s.done = true ∨ s.error = true)

/-- The engine has the next turn (70_reset_and_hazards.md R312; log entry 1). -/
def engineMoves (s : State) : Prop := s.turns = [] ∨ ∃ rest, s.turns = .engine :: rest

/-- The state with the turn taken from the list. -/
def afterTurn (s : State) : State := { s with turns := s.turns.tail }

/-- The operands of a literal run, with the spec's numbers: header bytes and pixels (30_encoding.md R113). -/
def literalOperands : Instr → Option (Nat × Nat)
  | .lit len => some (1, len.toNat + 1)
  | .litx ext => some (3, ext.toNat + 128)
  | .seed => none
  | .cpyTc _ _ => none
  | .cpyxTc _ _ => none
  | .cpyPal _ _ => none
  | .cpyxPal _ _ => none
  | .decode _ _ => none
  | .encode _ _ => none

/-- The operands of a copy run, with the spec's numbers: header bytes, pixels and table index (30_encoding.md R114,
R115). -/
def copyOperands : Instr → Option (Nat × Nat × Nat)
  | .cpyTc idx count => some (1, count.toNat + 1, idx.toNat)
  | .cpyxTc idx ext => some (3, ext.toNat + 4, idx.toNat)
  | .cpyPal idx count => some (1, count.toNat + 3, idx.toNat)
  | .cpyxPal idx ext => some (3, ext.toNat + 10, idx.toNat)
  | .seed => none
  | .lit _ => none
  | .litx _ => none
  | .decode _ _ => none
  | .encode _ _ => none

/-- Both windows of the running job lie inside the buffer memory (20_memory.md R82). -/
def windowsPlaced (s : State) : Prop :=
  s.job.srcBase.toNat + s.job.srcLen.toNat ≤ s.addressTop ∧ s.job.dstBase.toNat + s.job.dstCap.toNat ≤ s.addressTop

/-- The two windows of the running job have no byte in common (20_memory.md R82). -/
def windowsApart (s : State) : Prop :=
  rangesDisjoint s.job.srcBase.toNat s.job.srcLen.toNat s.job.dstBase.toNat s.job.dstCap.toNat = true

/-- The bytes of memory from address `a`, `n` of them, are the only ones that may differ. -/
def unchangedOutside (m m' : Memory) (a n : Nat) : Prop := ∀ b, b < a ∨ a + n ≤ b → m'.read b = m.read b

/-- The destination bytes the running job has produced: `dstPos` or `outPos` (10_state.md R44, R49), none before the
seed. -/
def produced (s : State) : Nat :=
  match s.engine, s.job.op with
  | .loop, .decode => s.job.dstPos
  | .loop, .encode => s.job.outPos
  | .idle, .decode => if s.done then s.job.dstPos else 0
  | .idle, .encode => if s.done then s.job.outPos else 0
  | .check, _ => 0
  | .seed, _ => 0

/-- The capacity that always suffices for an encode job (42_encoder.md R235). -/
def payloadBound (j : Job) : Nat := j.totalBytes + 3 * ((j.totalPixels - 1) / 128) + 1

/-- The part of R235's bound that the payload has used when the pixels before the pending literal are written. -/
def payloadWithinBound (s : State) : Prop :=
  s.job.outPos ≤ (s.job.current - s.job.litLen) * s.job.d + 3 * ((s.job.current - s.job.litLen - 1) / 128)

/-- The bytes a flush of the pending literal writes: its header and its pixels, nothing for an empty one (42_encoder.md
R230). -/
def pendingBytes (s : State) : List Byte :=
  if s.job.litLen = 0 then []
  else literalHeader s.job.litLen ++
    s.mem.readList (s.job.srcAddr (s.job.litStart * s.job.d)) (s.job.litLen * s.job.d)

/-- How many engine steps the running job can still take at most, its last one included (70_reset_and_hazards.md R312,
R316): a pass of a job's loop uses up at least one pixel. -/
def remainingSteps (s : State) : Nat :=
  match s.engine, s.job.op with
  | .idle, _ => 0
  | .check, _ => s.job.totalPixels + 2
  | .seed, _ => s.job.totalPixels + 1
  | .loop, .decode => s.job.remBytes / s.job.d + 1
  | .loop, .encode => s.job.totalPixels - s.job.current + 1

/-- Whether a turn is the host's. -/
def Turn.isHost : Turn → Bool
  | .engine => false
  | .host _ => true

/-- How many of the next `n` turns are the engine's: those the list gives it, and all past the list's end (log entry 1). -/
def engineTurnsIn (n : Nat) (turns : List Turn) : Nat := n - (turns.take n).countP Turn.isHost

/-- Two states that differ at most in the buffer memory, and there agree on the source window and on the first `n` bytes
of the destination window (20_memory.md R92). -/
structure AgreeUpTo (n : Nat) (s t : State) : Prop where
  same : { s with mem := [] } = { t with mem := [] }
  source : ∀ i, i < s.job.srcLen.toNat → s.mem.read (s.job.srcAddr i) = t.mem.read (t.job.srcAddr i)
  output : ∀ i, i < n → s.mem.read (s.job.dstAddr i) = t.mem.read (t.job.dstAddr i)

end Sys2Proof.Machine
end

