-- ==== Sys2Proof/Certificates/Slice0/Obligations.lean ====
section
/-! DEFINITION. The statements about MRCT-CORE, for the provers. A statement marked 'the model's choice' rests on a
log entry and cites no rule for that clause. -/

open Sys2Proof Sys2Proof.Machine

/-! ### Reset and the invariant -/

/-- 70_reset_and_hazards.md R300 and R301 for the registers, the mode, `IRQ`, the ROM and the memory: from every state
reset leaves each register at its reset value and the memory as it was. -/
def Obligations.ResetRestoresEveryRegister : Prop :=
  ∀ s : State, ∃ t, hostTurn .reset s = .next t ∧
    (∀ offset ∈ [0x00, 0x04, 0x08, 0x0C, 0x10, 0x14, 0x18, 0x1C, 0x20, 0x24, 0x28], readRegister offset t = 0) ∧
    readRegister 0x2C t = 0x4D524354 ∧ t.engine = .idle ∧ t.irq = false ∧ t.mem = s.mem ∧
    t.params.shiftTableTc = s.params.shiftTableTc ∧ t.params.shiftTablePal = s.params.shiftTablePal

/-- The state after reset satisfies the invariant. -/
def Obligations.ResetSatisfiesTheInvariant : Prop := StateOk State.reset

/-- Every step, of the engine or of the host, keeps the invariant: the memory stays canonical, the flags stay legal
(10_state.md R34), the latched constants stay those of START (R42), the decoder's and the encoder's cursors stay in
their ranges (R43 to R49; 41_decoder.md R183). -/
def Obligations.EveryStepKeepsTheInvariant : Prop :=
  ∀ s t : State, StateOk s → step s = .next t → StateOk t

/-- The engine never makes an access outside its windows (20_memory.md R81): in a state that satisfies the invariant no
turn of the engine ends in a fault. -/
def Obligations.TheEngineNeverFaults : Prop :=
  ∀ (s : State) (f : Fault), StateOk s → engineTurn s ≠ .fault f

/-- The tables and parameters never change (10_state.md R51, R53). -/
def Obligations.NoStepChangesTheTables : Prop :=
  ∀ s t : State, step s = .next t → t.params = s.params

/-! ### Encoding -/

/-- Decode and encode agree for every well-formed instruction, whatever follows it in the stream (30_encoding.md R120). -/
def Obligations.DecodeOfEncodeIsTheInstruction : Prop :=
  ∀ (k : Kind) (i : Instr), i.wf = true → i.fitsKind k = true →
    decodeCode k (encode i) = .ok (i, []) ∧
    ∀ header rest, encode i = .stream header → decodeCommand k (header ++ rest) = .ok (i, rest)

/-- The encoding is canonical (30_encoding.md R120): the bytes a command was read from are its encoding. -/
def Obligations.DecodedCommandHasOneEncoding : Prop :=
  ∀ (k : Kind) (bytes rest : List Byte) (i : Instr), decodeCommand k bytes = .ok (i, rest) →
    i.wf = true ∧ i.fitsKind k = true ∧ ∃ header, encode i = .stream header ∧ bytes = header ++ rest

/-- Every byte value is a command byte (30_encoding.md R111, R123): with two bytes after it, it decodes, and to a literal
exactly when its bit 7 is 0. -/
def Obligations.EveryCommandByteDecodes : Prop :=
  ∀ (k : Kind) (cmd e0 e1 : Byte) (rest : List Byte), ∃ i left,
    decodeCommand k (cmd :: e0 :: e1 :: rest) = .ok (i, left) ∧
    ((literalOperands i).isSome = true ↔ cmd.getLsbD 7 = false) ∧
    ((copyOperands i).isSome = true ↔ cmd.getLsbD 7 = true)

/-- The fields of a command byte (30_encoding.md R117): the index is `(cmd >> shiftStart) % tableSize`, the count is
`cmd & countMask`, the literal length field is the byte itself. -/
def Obligations.CommandFieldsAreMaskAndShift : Prop :=
  ∀ (k : Kind) (cmd e0 e1 : Byte) (rest : List Byte),
    (cmd.getLsbD 7 = true → ∃ i left header n,
      decodeCommand k (cmd :: e0 :: e1 :: rest) = .ok (i, left) ∧
      copyOperands i = some (header, n, (cmd.toNat >>> shiftStart k) % tableSize k) ∧
      (cmd.toNat &&& countMask k ≠ countMask k → header = 1 ∧ n = (cmd.toNat &&& countMask k) + countBase k) ∧
      (cmd.toNat &&& countMask k = countMask k →
        header = 3 ∧ n = (cmd.toNat &&& countMask k) + (e0.toNat + 256 * e1.toNat) + countBase k)) ∧
    (cmd.getLsbD 7 = false → cmd ≠ 0x7F#8 → ∃ i left,
      decodeCommand k (cmd :: e0 :: e1 :: rest) = .ok (i, left) ∧ literalOperands i = some (1, cmd.toNat + 1)) ∧
    (cmd = 0x7F#8 → ∃ i left,
      decodeCommand k (cmd :: e0 :: e1 :: rest) = .ok (i, left) ∧
      literalOperands i = some (3, cmd.toNat + (e0.toNat + 256 * e1.toNat) + 1))

/-- Words written out from the encodings of 30_encoding.md R113 to R115 and 10_state.md R33 decode to their
instructions. -/
def Obligations.WrittenWordsDecode : Prop :=
  decodeCommand .tc [0x01] = .ok (.lit 1, []) ∧
  decodeCommand .pal [0x7F, 0x00, 0x01] = .ok (.litx 0x0100, []) ∧
  decodeCommand .tc [0x81] = .ok (.cpyTc 0 1, []) ∧
  decodeCommand .tc [0xA7, 0x5F, 0x00] = .ok (.cpyxTc 9 0x5F, []) ∧
  decodeCommand .pal [0xBD] = .ok (.cpyPal 7 5, []) ∧
  decodeCommand .pal [0x87, 0xF6, 0xFF] = .ok (.cpyxPal 0 0xFFF6, []) ∧
  decodeCtrl 0x00000005 = .ok (.decode .pal false) ∧
  decodeCtrl 0xFFFFFFF3 = .ok (.encode .tc false)

/-- The job command in a written `CTRL` value (10_state.md R33): bit 0 START, bit 1 OP, bit 2 KIND, bit 3 IRQ_EN; bits
31:4 are ignored. -/
def Obligations.JobCommandFields : Prop :=
  ∀ (v : Word) (k : Kind) (irq : Bool),
    (decodeCtrl v = .ok (.decode k irq) ↔
      v.getLsbD 0 = true ∧ v.getLsbD 1 = false ∧ (v.getLsbD 2 = true ↔ k = .pal) ∧ v.getLsbD 3 = irq) ∧
    (decodeCtrl v = .ok (.encode k irq) ↔
      v.getLsbD 0 = true ∧ v.getLsbD 1 = true ∧ (v.getLsbD 2 = true ↔ k = .pal) ∧ v.getLsbD 3 = irq) ∧
    (decodeCtrl v = .error .noStart ↔ v.getLsbD 0 = false)

/-! ### A step runs the decoded instruction -/

/-- One command is one engine step (41_decoder.md R173; 70_reset_and_hazards.md R312): while a decode job runs and
bytes remain, the step is the meaning of the instruction at the read cursor; before that it is SEED's. -/
def Obligations.StepRunsTheCommandAtTheCursor : Prop :=
  ∀ s : State, engineMoves s → s.job.op = .decode →
    (s.engine = .seed → step s = exec .seed (afterTurn s)) ∧
    (∀ i rest, s.engine = .loop → s.job.remBytes ≠ 0 → windowsPlaced s →
      decodeCommand s.job.kind (fetchBytes s) = .ok (i, rest) → step s = exec i (afterTurn s))

/-- A host write of a job command to `CTRL` runs DECODE or ENCODE (10_state.md R33); a write with START = 0 only latches
`OP`, `KIND` and `IRQ_EN`, and while BUSY only `IRQ_EN`. -/
def Obligations.StepRunsTheJobCommandWritten : Prop :=
  ∀ (s : State) (addr v : Word) (rest : List Turn),
    s.turns = .host (.regWrite addr 4 v) :: rest → regOffset s addr = 0 →
    (∀ i, decodeCtrl v = .ok i → step s = exec i { s with turns := rest }) ∧
    (decodeCtrl v = .error .noStart → s.busy = true →
      step s = .next { s with turns := rest, irqEn := v.getLsbD 3 }) ∧
    (decodeCtrl v = .error .noStart → s.busy = false →
      step s = .next { s with
        turns := rest
        op := if v.getLsbD 1 then .encode else .decode
        kind := if v.getLsbD 2 then .pal else .tc
        irqEn := v.getLsbD 3 })

/-- A missing command byte or extension byte is `ERR_TRUNCATED` (41_decoder.md R173, R174): the job ends with code 1 at
the command's start (60_exceptions.md R277) and nothing is written. -/
def Obligations.MissingHeaderByteIsTruncated : Prop :=
  ∀ s : State, StateOk s → engineMoves s → s.engine = .loop → s.job.op = .decode → s.job.remBytes ≠ 0 →
    (s.job.srcLen.toNat ≤ s.job.srcPos ∨
      (s.job.srcLen.toNat < s.job.srcPos + 3 ∧
        (s.mem.read (s.job.srcAddr s.job.srcPos) = 0x7F#8 ∨
          ((s.mem.read (s.job.srcAddr s.job.srcPos)).getLsbD 7 = true ∧
            (s.mem.read (s.job.srcAddr s.job.srcPos)).toNat &&& countMask s.job.kind = countMask s.job.kind)))) →
    step s = .next { afterTurn s with
      errCode := 1
      error := true
      srcPosReg := BitVec.ofNat 32 s.job.srcPos
      dstPosReg := BitVec.ofNat 32 s.job.dstPos
      errPos := BitVec.ofNat 32 s.job.srcPos
      engine := .idle
      job := { s.job with cmdStart := s.job.srcPos } }

/-! ### The commands of the stream: results, frames and errors -/

/-- SEED (41_decoder.md R172): a payload shorter than one pixel is `ERR_TRUNCATED` at positions 0 with nothing written;
otherwise the first `d` bytes are copied, the cursors are set, and nothing else changes. -/
def Obligations.SeedCopiesTheFirstPixelOrIsTruncated : Prop :=
  ∀ s : State,
    (s.job.srcLen.toNat < s.job.d → exec .seed s = .next { s with
      errCode := 1, error := true, srcPosReg := 0, dstPosReg := 0, errPos := 0, engine := .idle }) ∧
    (s.mem.wf = true → windowsPlaced s → windowsApart s → s.job.d ≤ s.job.srcLen.toNat → s.job.d ≤ s.job.dstCap.toNat →
      ∃ m, exec .seed s = .next { s with
          mem := m
          engine := .loop
          job := { s.job with
            srcPos := s.job.d
            dstPos := s.job.d
            remBytes := s.job.totalBytes - s.job.d
            cmdStart := 0
            passed := (s.job.d, s.job.d) :: s.job.passed } } ∧
        (∀ j, j < s.job.d → m.read (s.job.dstAddr j) = s.mem.read (s.job.srcAddr j)) ∧
        unchangedOutside s.mem m (s.job.dstAddr 0) s.job.d)

/-- LIT and LITX (41_decoder.md R175 to R177), with the positions of 60_exceptions.md R277: the length test, then the data
test, both before any byte is written; a run that passes copies its `n * d` data bytes verbatim, advances both cursors,
and changes nothing else. -/
def Obligations.LiteralRunCopiesItsDataOrFails : Prop :=
  ∀ (s : State) (i : Instr) (header n : Nat), literalOperands i = some (header, n) →
    (n * s.job.d > s.job.remBytes ∨ s.job.srcLen.toNat < s.job.srcPos + header + n * s.job.d → exec i s = .next { s with
      errCode := if n * s.job.d > s.job.remBytes then 3 else 2
      error := true
      srcPosReg := BitVec.ofNat 32 s.job.srcPos
      dstPosReg := BitVec.ofNat 32 s.job.dstPos
      errPos := BitVec.ofNat 32 s.job.srcPos
      engine := .idle
      job := { s.job with cmdStart := s.job.srcPos } }) ∧
    (s.mem.wf = true → windowsPlaced s → windowsApart s →
      n * s.job.d ≤ s.job.remBytes → s.job.srcPos + header + n * s.job.d ≤ s.job.srcLen.toNat →
      s.job.dstPos + n * s.job.d ≤ s.job.dstCap.toNat →
      ∃ m, exec i s = .next { s with
          mem := m
          job := { s.job with
            srcPos := s.job.srcPos + header + n * s.job.d
            dstPos := s.job.dstPos + n * s.job.d
            remBytes := s.job.remBytes - n * s.job.d
            cmdStart := s.job.srcPos
            passed := (s.job.srcPos + header + n * s.job.d, s.job.dstPos + n * s.job.d) :: s.job.passed } } ∧
        (∀ j, j < n * s.job.d →
          m.read (s.job.dstAddr s.job.dstPos + j) = s.mem.read (s.job.srcAddr (s.job.srcPos + header) + j)) ∧
        unchangedOutside s.mem m (s.job.dstAddr s.job.dstPos) (n * s.job.d))

/-- CPY and CPYX of both kinds (41_decoder.md R178 to R181), with the positions of 60_exceptions.md R277: the length test,
then the shift test, both before any byte is written; a run that passes leaves at `dstPos + j` the byte that stood at
`dstPos + delta + (j mod -delta)`, which is what the byte loop of R181 leaves (R182 draws the same conclusion), advances
the cursors, and changes nothing else. -/
def Obligations.CopyRunRepeatsEarlierOutputOrFails : Prop :=
  ∀ (s : State) (i : Instr) (header n idx : Nat), copyOperands i = some (header, n, idx) →
    (n * s.job.d > s.job.remBytes ∨ s.job.shiftDeltas.getD idx 0 * (s.job.d : Int) ≥ 0 ∨
      (s.job.dstPos : Int) + s.job.shiftDeltas.getD idx 0 * (s.job.d : Int) < 0 → exec i s = .next { s with
      errCode := if n * s.job.d > s.job.remBytes then 3 else 4
      error := true
      srcPosReg := BitVec.ofNat 32 s.job.srcPos
      dstPosReg := BitVec.ofNat 32 s.job.dstPos
      errPos := BitVec.ofNat 32 s.job.srcPos
      engine := .idle
      job := { s.job with cmdStart := s.job.srcPos } }) ∧
    (∀ back : Nat, s.mem.wf = true → windowsPlaced s →
      n * s.job.d ≤ s.job.remBytes → s.job.dstPos + n * s.job.d ≤ s.job.dstCap.toNat →
      s.job.shiftDeltas.getD idx 0 * (s.job.d : Int) = -(back : Int) → 0 < back → back ≤ s.job.dstPos →
      ∃ m, exec i s = .next { s with
          mem := m
          job := { s.job with
            srcPos := s.job.srcPos + header
            dstPos := s.job.dstPos + n * s.job.d
            remBytes := s.job.remBytes - n * s.job.d
            cmdStart := s.job.srcPos
            passed := (s.job.srcPos + header, s.job.dstPos + n * s.job.d) :: s.job.passed } } ∧
        (∀ j, j < n * s.job.d →
          m.read (s.job.dstAddr (s.job.dstPos + j)) = s.mem.read (s.job.dstAddr (s.job.dstPos - back + j % back))) ∧
        unchangedOutside s.mem m (s.job.dstAddr s.job.dstPos) (n * s.job.d))

/-- The end of a decode job (41_decoder.md R184; 60_exceptions.md R279): `DONE`, `SRC_POS` at the read cursor, `DST_POS` at
`totalBytes`, IDLE, and nothing else. -/
def Obligations.DecodeJobEndsWithDone : Prop :=
  ∀ s : State, StateOk s → s.engine = .loop → s.job.op = .decode → s.job.remBytes = 0 →
    engineTurn s = .next { s with
      done := true
      srcPosReg := BitVec.ofNat 32 s.job.srcPos
      dstPosReg := BitVec.ofNat 32 s.job.totalBytes
      engine := .idle }

/-! ### START and the configuration check -/

/-- DECODE and ENCODE while IDLE (70_reset_and_hazards.md R303): the fields are stored, the flags and positions are
cleared, the mode is BUSY, the job constants are latched; nothing else of the block changes. -/
def Obligations.StartBeginsAJob : Prop :=
  ∀ (s : State) (k : Kind) (irq : Bool) (op : Op), s.busy = false →
    ∃ j : Job,
      exec (match op with | .decode => .decode k irq | .encode => .encode k irq) s = .next { s with
        op := op
        kind := k
        irqEn := irq
        done := false
        error := false
        errCode := 0
        srcPosReg := 0
        dstPosReg := 0
        errPos := 0
        engine := .check
        job := j } ∧
      j.op = op ∧ j.kind = k ∧ j.width = s.width ∧ j.height = s.height ∧ j.srcBase = s.srcBase ∧ j.srcLen = s.srcLen ∧
      j.dstBase = s.dstBase ∧ j.dstCap = s.dstCap ∧
      j.shiftDeltas = (shiftTable s.params k).map fun code =>
        (code.sshiftRight 4).toInt - ((code &&& 0x0F#8).toNat : Int) * (s.width.toNat : Int)

/-- DECODE and ENCODE while BUSY (10_state.md R33): only `IRQ_EN` is stored. -/
def Obligations.StartWhileBusyStoresIrqEn : Prop :=
  ∀ (s : State) (k : Kind) (irq : Bool), s.busy = true →
    exec (.decode k irq) s = .next { s with irqEn := irq } ∧ exec (.encode k irq) s = .next { s with irqEn := irq }

/-- The configuration check (60_exceptions.md R273; 20_memory.md R82): a job that fails one of the five tests ends with
`ERR_CONFIG` at positions 0; one that passes goes on to its seed, where no device lies in its windows
(20_memory.md R88; `DeviceAccessIsRefused` says what happens otherwise). No memory is accessed either way. -/
def Obligations.ConfigurationCheck : Prop :=
  ∀ s : State, s.engine = .check →
    let pixels := s.job.width.toNat * s.job.height.toNat
    let bytes := pixels * (match s.job.kind with | .tc => 3 | .pal => 1)
    let src := s.job.srcBase.toNat
    let srcEnd := src + s.job.srcLen.toNat
    let dst := s.job.dstBase.toNat
    let dstEnd := dst + s.job.dstCap.toNat
    let valid := pixels ≠ 0 ∧ bytes ≤ s.params.maxTotalBytes ∧
      srcEnd ≤ 2 ^ s.params.addrW ∧ dstEnd ≤ 2 ^ s.params.addrW ∧
      (s.job.srcLen.toNat = 0 ∨ s.job.dstCap.toNat = 0 ∨ srcEnd ≤ dst ∨ dstEnd ≤ src) ∧
      (s.job.op = .decode → bytes ≤ s.job.dstCap.toNat) ∧ (s.job.op = .encode → bytes ≤ s.job.srcLen.toNat)
    (¬ valid → engineTurn s = .next { s with
      errCode := 5, error := true, srcPosReg := 0, dstPosReg := 0, errPos := 0, engine := .idle }) ∧
    (valid → deviceInWindow s = false → engineTurn s = .next { s with engine := .seed })

/-! ### The register file -/

/-- The bits of `CTRL` and `STATUS` as they read (10_state.md R33, R34). -/
def Obligations.ControlAndStatusBits : Prop :=
  ∀ s : State,
    (s.ctrlWord.getLsbD 0 = false ∧ s.ctrlWord.getLsbD 1 = decide (s.op = .encode) ∧
      s.ctrlWord.getLsbD 2 = decide (s.kind = .pal) ∧ s.ctrlWord.getLsbD 3 = s.irqEn ∧
      ∀ b, 4 ≤ b → s.ctrlWord.getLsbD b = false) ∧
    (s.statusWord.getLsbD 0 = decide (s.engine ≠ .idle) ∧ s.statusWord.getLsbD 1 = s.done ∧
      s.statusWord.getLsbD 2 = s.error ∧ s.statusWord.extractLsb' 8 4 = s.errCode ∧
      ∀ b, (3 ≤ b ∧ b ≤ 7) ∨ 12 ≤ b → s.statusWord.getLsbD b = false)

/-- The interrupt is a level (60_exceptions.md R285). -/
def Obligations.InterruptIsALevel : Prop :=
  ∀ s : State, s.irq =
    (s.params.hasIrq && s.ctrlWord.getLsbD 3 && (s.statusWord.getLsbD 1 || s.statusWord.getLsbD 2))

/-- A write to `STATUS` (10_state.md R34): 1 in bit 1 clears `DONE`, 1 in bit 2 clears `ERROR` and `ERR_CODE`, nothing
else changes. -/
def Obligations.WritingStatusAcknowledges : Prop :=
  ∀ (s : State) (addr v : Word), regOffset s addr = 0x04 →
    hostTurn (.regWrite addr 4 v) s = .next { s with
      done := if v.getLsbD 1 then false else s.done
      error := if v.getLsbD 2 then false else s.error
      errCode := if v.getLsbD 2 then 0 else s.errCode }

/-- The host cannot disturb a running job through the registers (70_reset_and_hazards.md R315): while BUSY a write to any
register but `STATUS` leaves everything as it was, except that a write to `CTRL` stores `IRQ_EN` (10_state.md R33). -/
def Obligations.RegisterWritesWhileBusyAreIgnored : Prop :=
  ∀ (s : State) (addr v : Word), s.busy = true → regOffset s addr % 4 = 0 →
    (regOffset s addr = 0 → hostTurn (.regWrite addr 4 v) s = .next { s with irqEn := v.getLsbD 3 }) ∧
    (regOffset s addr ≠ 0 → regOffset s addr ≠ 4 → hostTurn (.regWrite addr 4 v) s = .next s)

/-- The job registers written while IDLE read back (10_state.md R35 to R37); the base registers keep their low `ADDR_W`
bits; nothing else changes. -/
def Obligations.JobRegistersReadBack : Prop :=
  ∀ (s : State) (addr v : Word), s.busy = false →
    (regOffset s addr = 0x08 → hostTurn (.regWrite addr 4 v) s = .next { s with width := v }) ∧
    (regOffset s addr = 0x0C → hostTurn (.regWrite addr 4 v) s = .next { s with height := v }) ∧
    (regOffset s addr = 0x14 → hostTurn (.regWrite addr 4 v) s = .next { s with srcLen := v }) ∧
    (regOffset s addr = 0x1C → hostTurn (.regWrite addr 4 v) s = .next { s with dstCap := v }) ∧
    (regOffset s addr = 0x10 → ∃ b, hostTurn (.regWrite addr 4 v) s = .next { s with srcBase := b } ∧
      ∀ n, b.getLsbD n = (decide (n < s.params.addrW) && v.getLsbD n)) ∧
    (regOffset s addr = 0x18 → ∃ b, hostTurn (.regWrite addr 4 v) s = .next { s with dstBase := b } ∧
      ∀ n, b.getLsbD n = (decide (n < s.params.addrW) && v.getLsbD n))

/-- A register read returns the register and changes nothing of the block (10_state.md R32, R35 to R41; 60_exceptions.md
R282): the positions while IDLE, 0 at a reserved offset. -/
def Obligations.RegisterReadsReturnTheRegister : Prop :=
  ∀ (s : State) (addr : Word), regOffset s addr % 4 = 0 → ∃ v,
    hostTurn (.regRead addr 4) s = .next { s with rdata := v, draws := s.draws + 1 } ∧
    (regOffset s addr = 0x00 → v = s.ctrlWord) ∧ (regOffset s addr = 0x04 → v = s.statusWord) ∧
    (regOffset s addr = 0x08 → v = s.width) ∧ (regOffset s addr = 0x0C → v = s.height) ∧
    (regOffset s addr = 0x10 → v = s.srcBase) ∧ (regOffset s addr = 0x14 → v = s.srcLen) ∧
    (regOffset s addr = 0x18 → v = s.dstBase) ∧ (regOffset s addr = 0x1C → v = s.dstCap) ∧
    (regOffset s addr = 0x20 → s.busy = false → v = s.srcPosReg) ∧
    (regOffset s addr = 0x24 → s.busy = false → v = s.dstPosReg) ∧
    (regOffset s addr = 0x28 → v = s.errPos) ∧ (regOffset s addr = 0x2C → v = 0x4D524354) ∧
    (0x2C < regOffset s addr → v = 0)

/-- Reserved offsets and read-only registers ignore writes (10_state.md R32, R38 to R41). -/
def Obligations.ReservedOffsetsIgnoreWrites : Prop :=
  ∀ (s : State) (addr v : Word), regOffset s addr % 4 = 0 → 0x1C < regOffset s addr →
    hostTurn (.regWrite addr 4 v) s = .next s

/-- An access that is not an aligned 32-bit one is outside the model (10_state.md R32) and is refused, and no other register
access is refused for its shape. That alignment is the offset's, not the bus address's, is the model's choice (log
entry 10). -/
def Obligations.OddAccessesAreRefused : Prop :=
  ∀ (s : State) (addr v : Word) (size : Nat),
    (hostTurn (.regRead addr size) s = .refused .registerAccessShape ↔ size ≠ 4 ∨ regOffset s addr % 4 ≠ 0) ∧
    (hostTurn (.regWrite addr size v) s = .refused .registerAccessShape ↔ size ≠ 4 ∨ regOffset s addr % 4 ≠ 0)

/-- `SRC_POS` and `DST_POS` read while BUSY show the value at a step boundary the running job has passed (10_state.md R38,
R39); which one is a free value (log entry 7), and the value fits the register. -/
def Obligations.PositionReadWhileBusyIsAPassedBoundary : Prop :=
  ∀ (s : State) (addr : Word), StateOk s → s.busy = true →
    (regOffset s addr = 0x20 → ∃ b ∈ s.job.passed, b.1 < 2 ^ 32 ∧
      hostTurn (.regRead addr 4) s = .next { s with rdata := BitVec.ofNat 32 b.1, draws := s.draws + 1 }) ∧
    (regOffset s addr = 0x24 → ∃ b ∈ s.job.passed, b.2 < 2 ^ 32 ∧
      hostTurn (.regRead addr 4) s = .next { s with rdata := BitVec.ofNat 32 b.2, draws := s.draws + 1 })

/-! ### The buffer memory -/

/-- The host's accesses to existing plain memory (20_memory.md R88, R93). A write to a byte of no running window stores it,
it reads back, and no other byte changes. A read of a byte of no running destination window, one of a running job's
source window among them, returns the byte and changes nothing of the block. -/
def Obligations.HostMemoryAccess : Prop :=
  ∀ (s : State) (a : Nat) (v : Byte), s.mem.wf = true → a < 2 ^ s.params.addrW → deviceAt s a = false →
    (s.busy = true → a < s.job.dstBase.toNat ∨ s.job.dstBase.toNat + s.job.dstCap.toNat ≤ a) →
    hostTurn (.memRead a) s = .next { s with rdata := (s.mem.read a).setWidth 32, draws := s.draws + 1 } ∧
    ((s.busy = true → a < s.job.srcBase.toNat ∨ s.job.srcBase.toNat + s.job.srcLen.toNat ≤ a) →
      ∃ m, hostTurn (.memWrite a v) s = .next { s with mem := m } ∧ m.read a = v ∧ unchangedOutside s.mem m a 1)

/-- A write into a window of a running job is outside the model (70_reset_and_hazards.md R310). -/
def Obligations.WriteToARunningWindowIsRefused : Prop :=
  ∀ (s : State) (a : Nat) (v : Byte), s.busy = true → a < 2 ^ s.params.addrW → deviceAt s a = false →
    ((s.job.srcBase.toNat ≤ a ∧ a < s.job.srcBase.toNat + s.job.srcLen.toNat) ∨
      (s.job.dstBase.toNat ≤ a ∧ a < s.job.dstBase.toNat + s.job.dstCap.toNat)) →
    hostTurn (.memWrite a v) s = .refused .writeToBusyWindow

/-- A host read of a byte of a running job's destination window completes; the value is a free one (the model's choice, log
entry 8) and nothing of the block changes. -/
def Obligations.DestinationReadWhileBusyCompletes : Prop :=
  ∀ (s : State) (a : Nat), s.busy = true → a < 2 ^ s.params.addrW → deviceAt s a = false →
    s.job.dstBase.toNat ≤ a → a < s.job.dstBase.toNat + s.job.dstCap.toNat →
    ∃ v : Byte, hostTurn (.memRead a) s = .next { s with rdata := v.setWidth 32, draws := s.draws + 1 }

/-- A device with side effects is outside the model (20_memory.md R88). That the platform lists its devices' addresses, that
a job whose window holds one is refused after the tests of its configuration check, and that the host's accesses to one
are refused too, is the model's choice (log entry 12). -/
def Obligations.DeviceAccessIsRefused : Prop :=
  ∀ s : State,
    (deviceInWindow s = true ↔ ∃ a, deviceAt s a = true ∧
      ((s.job.srcBase.toNat ≤ a ∧ a < s.job.srcBase.toNat + s.job.srcLen.toNat) ∨
        (s.job.dstBase.toNat ≤ a ∧ a < s.job.dstBase.toNat + s.job.dstCap.toNat))) ∧
    (s.engine = .check → configOk s = true → deviceInWindow s = true → engineTurn s = .refused .deviceAccess) ∧
    (∀ (a : Nat) (v : Byte), a < 2 ^ s.params.addrW → deviceAt s a = true →
      hostTurn (.memRead a) s = .refused .deviceAccess ∧ hostTurn (.memWrite a v) s = .refused .deviceAccess)

/-- The engine writes no byte outside the destination window (20_memory.md R81), from any state. -/
def Obligations.EngineWritesOnlyTheDestination : Prop :=
  ∀ (s t : State) (a : Nat), engineTurn s = .next t →
    a < s.job.dstBase.toNat ∨ s.job.dstBase.toNat + s.job.dstCap.toNat ≤ a → t.mem.read a = s.mem.read a

/-- What a job leaves in memory (20_memory.md R81; R96 is the spec's own inference of it): no engine step changes the source window, and none changes a
destination byte that was produced earlier or, in a decode job, one at or past `totalBytes`. -/
def Obligations.EngineKeepsSourceAndProducedBytes : Prop :=
  ∀ s t : State, StateOk s → engineTurn s = .next t →
    (∀ i, i < s.job.srcLen.toNat → s.engine.checked = true →
      t.mem.read (s.job.srcAddr i) = s.mem.read (s.job.srcAddr i)) ∧
    (∀ i, i < produced s → t.mem.read (s.job.dstAddr i) = s.mem.read (s.job.dstAddr i)) ∧
    (∀ i, s.job.op = .decode → s.job.totalBytes ≤ i → t.mem.read (s.job.dstAddr i) = s.mem.read (s.job.dstAddr i))

/-- Errors are precise at command granularity (60_exceptions.md R276, R277): a step of a decode job that ends in an error
writes no byte and reports the command's start; the code is one of 1 to 6 and the engine is IDLE. -/
def Obligations.FailingDecodeStepWritesNothing : Prop :=
  ∀ s t : State, StateOk s → s.busy = true → s.job.op = .decode → engineTurn s = .next t → t.error = true →
    t.mem = s.mem ∧ t.engine = .idle ∧ t.done = false ∧ 1 ≤ t.errCode.toNat ∧ t.errCode.toNat ≤ 6 ∧
    (s.engine = .loop → t.srcPosReg.toNat = s.job.srcPos ∧ t.dstPosReg.toNat = s.job.dstPos ∧
      t.errPos.toNat = s.job.srcPos) ∧
    (s.engine ≠ .loop → t.srcPosReg = 0 ∧ t.dstPosReg = 0 ∧ t.errPos = 0)

/-! ### The resolver -/

/-- The BitLayout values of both kinds (40_shift_resolver.md R151 to R155). -/
def Obligations.BitLayoutValues : Prop :=
  countMask .tc = 0x03 ∧ countMask .pal = 0x07 ∧ shiftStart .tc = 2 ∧ shiftStart .pal = 3 ∧ countBase .tc = 1 ∧
  countBase .pal = 3 ∧ ignoreThreshold .tc = 0 ∧ ignoreThreshold .pal = 2 ∧ countThreshold .tc = 4 ∧
  countThreshold .pal = 10

/-- A shift code decomposes as `code = 16 * colComponent + rowDelta` (40_shift_resolver.md R156). -/
def Obligations.ShiftCodeDecomposes : Prop :=
  ∀ code : BitVec 8, code.toInt = 16 * colComponent code + (rowDelta code : Int) ∧ rowDelta code ≤ 15 ∧
    -8 ≤ colComponent code ∧ colComponent code ≤ 7

/-! ### The encoder -/

/-- The match of one table entry (42_encoder.md R220, R221, R223): 0 for an entry that is skipped; otherwise the delta is
negative, the reference is inside the image, every pixel of the match is equal, and the match is stopped only by the
bound or by an unequal pixel. -/
def Obligations.MatchEntryIsTheLongestMatch : Prop :=
  ∀ (s : State) (i prev : Nat), s.job.current < s.job.totalPixels →
    (0 ≤ s.job.shiftDeltas.getD i 0 → matchEntry s i = 0) ∧
    ((s.job.current : Int) + s.job.shiftDeltas.getD i 0 < 0 → matchEntry s i = 0) ∧
    (s.job.shiftDeltas.getD i 0 < 0 → (s.job.current : Int) + s.job.shiftDeltas.getD i 0 = (prev : Int) →
      (∀ k, k < matchEntry s i → pixelsEqual s (prev + k) (s.job.current + k) = true) ∧
      s.job.current + matchEntry s i ≤ min (s.job.current + 0x10000) s.job.totalPixels ∧
      (s.job.current + matchEntry s i < min (s.job.current + 0x10000) s.job.totalPixels →
        pixelsEqual s (prev + matchEntry s i) (s.job.current + matchEntry s i) = false))

/-- Best match and tie-break (42_encoder.md R222): no entry is longer, and every entry of a lower index is shorter. -/
def Obligations.LongestMatchLowestIndexWins : Prop :=
  ∀ s : State,
    (∀ i, i < tableSize s.job.kind → matchEntry s i ≤ (matchSearch s).1) ∧
    (0 < (matchSearch s).1 →
      (matchSearch s).2 < tableSize s.job.kind ∧ matchEntry s (matchSearch s).2 = (matchSearch s).1 ∧
      ∀ i, i < (matchSearch s).2 → matchEntry s i < (matchSearch s).1)

/-- A copy unit decodes to a copy of that index and length (30_encoding.md R119; 42_encoder.md R228). -/
def Obligations.CopyUnitDecodesBack : Prop :=
  ∀ (k : Kind) (i len : Nat) (rest : List Byte), i < tableSize k → ignoreThreshold k < len → len ≤ 0x10000 →
    ∃ instr, decodeCommand k (copyUnit k i len ++ rest) = .ok (instr, rest) ∧
      copyOperands instr = some ((copyUnit k i len).length, len, i)

/-- A literal header decodes to a literal of that size, and the encoder never needs extension 0xFFFF (30_encoding.md R119;
42_encoder.md R229, R230, R232). -/
def Obligations.LiteralHeaderDecodesBack : Prop :=
  ∀ (k : Kind) (size : Nat) (rest : List Byte), 1 ≤ size → size ≤ maxThunkSize →
    ∃ instr, decodeCommand k (literalHeader size ++ rest) = .ok (instr, rest) ∧
      literalOperands instr = some ((literalHeader size).length, size) ∧ instr ≠ .litx 0xFFFF#16

/-- An emission unit that does not fit ends the job with `ERR_DST_OVERFLOW` before any byte of it is written
(42_encoder.md R211; 60_exceptions.md R277); one that fits is written whole. -/
def Obligations.EmissionUnitIsAllOrNothing : Prop :=
  ∀ (s : State) (bytes : List Byte), s.mem.wf = true →
    (s.job.dstCap.toNat < s.job.outPos + bytes.length →
      emitSeq bytes s = .stop (.next { s with
        errCode := 6
        error := true
        srcPosReg := BitVec.ofNat 32 (s.job.current * s.job.d)
        dstPosReg := BitVec.ofNat 32 s.job.outPos
        errPos := BitVec.ofNat 32 s.job.current
        engine := .idle })) ∧
    (s.job.outPos + bytes.length ≤ s.job.dstCap.toNat → windowsPlaced s →
      ∃ m, emitSeq bytes s = .go { s with mem := m, job := { s.job with outPos := s.job.outPos + bytes.length } } ∧
        m.readList (s.job.dstAddr s.job.outPos) bytes.length = bytes ∧
        unchangedOutside s.mem m (s.job.dstAddr s.job.outPos) bytes.length)

/-- The seed of an encode job (42_encoder.md R212): the first pixel is written at the start of the destination and the
cursors are set up; where it does not fit, `ERR_DST_OVERFLOW` with `ERR_POS` 1 (60_exceptions.md R277). -/
def Obligations.EncodeSeedEmitsTheFirstPixel : Prop :=
  ∀ s : State, StateOk s → s.engine = .seed → s.job.op = .encode →
    (s.job.d ≤ s.job.dstCap.toNat →
      ∃ m, engineTurn s = .next { s with
          mem := m
          engine := .loop
          job := { s.job with
            outPos := s.job.d
            litLen := 0
            litStart := 1
            current := 1
            passed := (s.job.d, s.job.d) :: s.job.passed } } ∧
        (∀ j, j < s.job.d → m.read (s.job.dstAddr j) = s.mem.read (s.job.srcAddr j)) ∧
        unchangedOutside s.mem m (s.job.dstAddr 0) s.job.d) ∧
    (s.job.dstCap.toNat < s.job.d →
      ∃ t, engineTurn s = .next t ∧ t.mem = s.mem ∧ t.engine = .idle ∧ t.error = true ∧ t.errCode = 6 ∧
        t.srcPosReg.toNat = s.job.d ∧ t.dstPosReg = 0 ∧ t.errPos = 1)

/-- A pass whose best match does not exceed `ignoreThreshold` appends one pixel to the pending literal (42_encoder.md R224,
R226); below the literal limit it writes nothing. -/
def Obligations.ShortMatchIsAppendedToTheLiteral : Prop :=
  ∀ s : State, StateOk s → s.engine = .loop → s.job.op = .encode → s.job.current < s.job.totalPixels →
    (matchSearch s).1 ≤ ignoreThreshold s.job.kind → s.job.litLen + 1 < maxThunkSize →
    engineTurn s = .next { s with job := { s.job with
      bestLen := (matchSearch s).1
      bestIdx := (matchSearch s).2
      litStart := if s.job.litLen = 0 then s.job.current else s.job.litStart
      litLen := s.job.litLen + 1
      current := s.job.current + 1
      passed := ((s.job.current + 1) * s.job.d, s.job.outPos) :: s.job.passed } }

/-- A literal that reaches `maxThunkSize = 0x1007E` pixels with the appended pixel is written at once (42_encoder.md R229):
its header is `7F FE FF`. Where it does not fit, the job ends with `ERR_DST_OVERFLOW` with no byte written, at the
positions after the append (R211; 60_exceptions.md R277). -/
def Obligations.FullLiteralIsFlushedAtOnce : Prop :=
  ∀ s : State, StateOk s → s.engine = .loop → s.job.op = .encode → s.job.current < s.job.totalPixels →
    (matchSearch s).1 ≤ ignoreThreshold s.job.kind → s.job.litLen + 1 = 0xFFFF + 0x7F →
    let unit := [0x7F#8, 0xFE#8, 0xFF#8] ++
      s.mem.readList (s.job.srcAddr (s.job.litStart * s.job.d)) (0x1007E * s.job.d)
    (s.job.outPos + unit.length ≤ s.job.dstCap.toNat →
      ∃ m, engineTurn s = .next { s with
          mem := m
          job := { s.job with
            bestLen := (matchSearch s).1
            bestIdx := (matchSearch s).2
            litLen := 0
            outPos := s.job.outPos + unit.length
            current := s.job.current + 1
            passed := ((s.job.current + 1) * s.job.d, s.job.outPos + unit.length) :: s.job.passed } } ∧
        m.readList (s.job.dstAddr s.job.outPos) unit.length = unit ∧
        unchangedOutside s.mem m (s.job.dstAddr s.job.outPos) unit.length) ∧
    (s.job.dstCap.toNat < s.job.outPos + unit.length →
      engineTurn s = .next { s with
        errCode := 6
        error := true
        srcPosReg := BitVec.ofNat 32 ((s.job.current + 1) * s.job.d)
        dstPosReg := BitVec.ofNat 32 s.job.outPos
        errPos := BitVec.ofNat 32 (s.job.current + 1)
        engine := .idle
        job := { s.job with
          bestLen := (matchSearch s).1
          bestIdx := (matchSearch s).2
          litLen := s.job.litLen + 1
          current := s.job.current + 1 } })

/-- A pass whose best match exceeds `ignoreThreshold` (42_encoder.md R224, R227, R228, R230; 60_exceptions.md R274, R277).
Where both units fit, the pending literal and then the copy are written at the output cursor, the buffer is empty and
the cursor moves past the match. Where the flush does not fit, the job ends with `ERR_DST_OVERFLOW` with no byte written.
Where the flush fits and the copy does not, the flush stays written, `DST_POS` is the output cursor after it, and the
copy writes no byte. -/
def Obligations.LongMatchFlushesThenCopies : Prop :=
  ∀ s : State, StateOk s → s.engine = .loop → s.job.op = .encode → s.job.current < s.job.totalPixels →
    ignoreThreshold s.job.kind < (matchSearch s).1 →
    let flush := pendingBytes s
    let unit := flush ++ copyUnit s.job.kind (matchSearch s).2 (matchSearch s).1
    (s.job.outPos + unit.length ≤ s.job.dstCap.toNat →
      ∃ m, engineTurn s = .next { s with
          mem := m
          job := { s.job with
            bestLen := (matchSearch s).1
            bestIdx := (matchSearch s).2
            litLen := 0
            outPos := s.job.outPos + unit.length
            current := s.job.current + (matchSearch s).1
            passed := ((s.job.current + (matchSearch s).1) * s.job.d, s.job.outPos + unit.length) :: s.job.passed } } ∧
        m.readList (s.job.dstAddr s.job.outPos) unit.length = unit ∧
        unchangedOutside s.mem m (s.job.dstAddr s.job.outPos) unit.length) ∧
    (s.job.dstCap.toNat < s.job.outPos + flush.length →
      engineTurn s = .next { s with
        errCode := 6
        error := true
        srcPosReg := BitVec.ofNat 32 (s.job.current * s.job.d)
        dstPosReg := BitVec.ofNat 32 s.job.outPos
        errPos := BitVec.ofNat 32 s.job.current
        engine := .idle
        job := { s.job with bestLen := (matchSearch s).1, bestIdx := (matchSearch s).2 } }) ∧
    (s.job.outPos + flush.length ≤ s.job.dstCap.toNat → s.job.dstCap.toNat < s.job.outPos + unit.length →
      ∃ m, engineTurn s = .next { s with
          mem := m
          errCode := 6
          error := true
          srcPosReg := BitVec.ofNat 32 (s.job.current * s.job.d)
          dstPosReg := BitVec.ofNat 32 (s.job.outPos + flush.length)
          errPos := BitVec.ofNat 32 s.job.current
          engine := .idle
          job := { s.job with
            bestLen := (matchSearch s).1
            bestIdx := (matchSearch s).2
            litLen := 0
            outPos := s.job.outPos + flush.length } } ∧
        m.readList (s.job.dstAddr s.job.outPos) flush.length = flush ∧
        unchangedOutside s.mem m (s.job.dstAddr s.job.outPos) flush.length)

/-- The end of an encode job (42_encoder.md R231): when every pixel is assigned, a pending literal that fits is written, and
the job ends with `DONE`, `SRC_POS = totalBytes` and `DST_POS` the payload length. A pending literal that does not fit
ends it with `ERR_DST_OVERFLOW` with no byte written (R211; 60_exceptions.md R277). Nothing else changes. -/
def Obligations.EncodeJobEndsWithDone : Prop :=
  ∀ s : State, StateOk s → s.engine = .loop → s.job.op = .encode → s.job.current = s.job.totalPixels →
    let flush := pendingBytes s
    (s.job.outPos + flush.length ≤ s.job.dstCap.toNat →
      ∃ m, engineTurn s = .next { s with
          mem := m
          done := true
          srcPosReg := BitVec.ofNat 32 s.job.totalBytes
          dstPosReg := BitVec.ofNat 32 (s.job.outPos + flush.length)
          engine := .idle
          job := { s.job with outPos := s.job.outPos + flush.length, litLen := 0 } } ∧
        m.readList (s.job.dstAddr s.job.outPos) flush.length = flush ∧
        unchangedOutside s.mem m (s.job.dstAddr s.job.outPos) flush.length) ∧
    (s.job.dstCap.toNat < s.job.outPos + flush.length →
      engineTurn s = .next { s with
        errCode := 6
        error := true
        srcPosReg := BitVec.ofNat 32 s.job.totalBytes
        dstPosReg := BitVec.ofNat 32 s.job.outPos
        errPos := BitVec.ofNat 32 s.job.totalPixels
        engine := .idle })

/-! ### Whole jobs -/

/-- Every job ends, whatever the host does in between (70_reset_and_hazards.md R316, with the spec's own inferences R186 and
R236): among any `n` turns that hold no reset and in which the engine has at least `totalPixels + 2` turns, a job at its
configuration check whose windows hold no device comes to its end within `totalPixels + 2` turns of the engine, which is
`totalPixels + 3` with START; only a host action that the machine itself stops at can cut the turns short. -/
def Obligations.EveryJobEnds : Prop :=
  ∀ (s : State) (n : Nat), StateOk s → s.engine = .check → deviceInWindow s = false →
    (∀ turn ∈ s.turns.take n, turn ≠ .host .reset) → s.job.totalPixels + 2 ≤ engineTurnsIn n s.turns →
    (∃ k t, k ≤ n ∧ engineTurnsIn k s.turns ≤ s.job.totalPixels + 2 ∧ Sys2Proof.core.run k s = .next t ∧ ended t) ∨
    (∃ k t a rest, k < n ∧ Sys2Proof.core.run k s = .next t ∧ t.turns = .host a :: rest ∧
      ∀ u, hostTurn a { t with turns := rest } ≠ .next u)

/-- The contents of the destination window at START never influence a job (the spec's own inferences R92 and R187, from
41_decoder.md R180 and R181; 42_encoder.md R234): two runs that differ only in destination bytes not yet produced stay so, step by step. -/
def Obligations.PriorDestinationIsNeverRead : Prop :=
  ∀ s t s' : State, StateOk s → StateOk t → s.engine.checked = true → AgreeUpTo (produced s) s t →
    engineTurn s = .next s' → ∃ t', engineTurn t = .next t' ∧ AgreeUpTo (produced s') s' t'

/-- The output size bound (the spec's own inference R235, from 42_encoder.md R228 to R230): with a capacity of at least `totalBytes + 3 * floor((totalPixels - 1) / 128)
+ 1` an encode job never ends with `ERR_DST_OVERFLOW`, and its payload stays within the bound. -/
def Obligations.SufficientCapacityNeverOverflows : Prop :=
  ∀ s t : State, StateOk s → s.job.op = .encode → payloadBound s.job ≤ s.job.dstCap.toNat →
    (s.engine = .seed ∨ (s.engine = .loop ∧ payloadWithinBound s)) → engineTurn s = .next t →
    t.error = false ∧ (t.engine = .loop → payloadWithinBound t) ∧
      (t.engine = .idle → t.done = true ∧ t.dstPosReg.toNat ≤ payloadBound s.job)

/-- The round trip (42_encoder.md R233): when an encode job ends with `DONE`, a decode job of the same image over the
payload it wrote ends with `DONE`, consumes exactly that payload, and reproduces every pixel byte. -/
def Obligations.DecodeOfEncodeReproducesThePixels : Prop :=
  ∀ (s e u : State) (n : Nat),
    StateOk s → s.engine = .seed → s.job.op = .encode → s.turns = [] →
    Sys2Proof.core.run n s = .next e → endedDone e →
    StateOk u → u.engine = .seed → u.job.op = .decode → u.turns = [] →
    u.job.kind = s.job.kind → u.job.width = s.job.width → u.job.height = s.job.height → u.params = s.params →
    e.dstPosReg.toNat ≤ u.job.srcLen.toNat →
    (∀ i, i < e.dstPosReg.toNat → u.mem.read (u.job.srcAddr i) = e.mem.read (s.job.dstAddr i)) →
    ∃ m v, Sys2Proof.core.run m u = .next v ∧ endedDone v ∧ v.srcPosReg = e.dstPosReg ∧
      ∀ i, i < s.job.totalBytes → v.mem.read (u.job.dstAddr i) = s.mem.read (s.job.srcAddr i)

/-- Progress (70_reset_and_hazards.md R312, R316, with the spec's own inferences R186 and R236): a turn of the engine of a
running job whose windows hold no device answers a next state, and ends the job or leaves fewer steps to take. -/
def Obligations.EngineTurnEndsOrAdvancesTheJob : Prop :=
  ∀ s : State, StateOk s → s.busy = true → deviceInWindow s = false →
    ∃ t, engineTurn s = .next t ∧
      (ended t ∨ (t.busy = true ∧ deviceInWindow t = false ∧ remainingSteps t < remainingSteps s))

/-- The host cannot disturb a running job (70_reset_and_hazards.md R310, R315): no action of the host but reset changes the
job, its mode, the steps it still has to take, or a byte of its windows. -/
def Obligations.HostTurnKeepsARunningJob : Prop :=
  ∀ (s t : State) (a : HostAction), s.busy = true → a ≠ .reset → hostTurn a s = .next t →
    t.engine = s.engine ∧ t.job = s.job ∧ t.params = s.params ∧ remainingSteps t = remainingSteps s ∧
    (∀ i, i < s.job.srcLen.toNat → t.mem.read (s.job.srcAddr i) = s.mem.read (s.job.srcAddr i)) ∧
    (∀ i, i < s.job.dstCap.toNat → t.mem.read (s.job.dstAddr i) = s.mem.read (s.job.dstAddr i))
end

