-- ==== Sys2Proof/Laws/Memory.lean ====
section
/-! SUPPORT. The laws of the buffer memory: read after write, the canonical form, and the multi-byte operations. -/

namespace Sys2Proof.Machine

/-! ### One byte -/

@[simp] theorem Memory.read_nil (a : Nat) : Memory.read [] a = fillByte := rfl

/-- A byte below every listed address reads as unlisted. -/
theorem Memory.read_below {m : Memory} {lo a : Nat} (h : m.risesFrom lo = true) (ha : a < lo) :
    m.read a = fillByte := by
  induction m generalizing lo with
  | nil => rfl
  | cons c rest ih =>
    obtain ⟨b, v⟩ := c
    simp only [Memory.risesFrom, Bool.and_eq_true, decide_eq_true_eq] at h
    have hne : a ≠ b := by omega
    simp only [Memory.read, hne, if_false]
    exact ih h.2 (by omega)

/-- A write leaves every other byte alone, in any memory. -/
theorem Memory.read_write_other (m : Memory) {a b : Nat} (v : Byte) (h : b ≠ a) :
    (m.write a v).read b = m.read b := by
  induction m with
  | nil =>
    by_cases hv : v = fillByte <;> simp [Memory.write, Memory.read, hv, h]
  | cons c rest ih =>
    obtain ⟨x, w⟩ := c
    by_cases h1 : a < x
    · by_cases hv : v = fillByte <;> simp [Memory.write, Memory.read, h1, hv, h]
    · by_cases h2 : a = x
      · subst h2
        by_cases hv : v = fillByte <;> simp [Memory.write, Memory.read, hv, h]
      · simp [Memory.write, Memory.read, h1, h2, ih]

/-- In a canonical memory a byte reads as what was last written to it. -/
theorem Memory.read_write_same_from {m : Memory} {lo a : Nat} (v : Byte) (h : m.risesFrom lo = true) :
    (m.write a v).read a = v := by
  induction m generalizing lo with
  | nil =>
    by_cases hv : v = fillByte <;> simp [Memory.write, Memory.read, hv]
  | cons c rest ih =>
    obtain ⟨x, w⟩ := c
    simp only [Memory.risesFrom, Bool.and_eq_true, decide_eq_true_eq] at h
    by_cases h1 : a < x
    · by_cases hv : v = fillByte
      · have hne : a ≠ x := by omega
        have hr : Memory.read rest a = fillByte := Memory.read_below h.2 (by omega)
        simp [Memory.write, Memory.read, h1, hv, hne, hr]
      · simp [Memory.write, Memory.read, h1, hv]
    · by_cases h2 : a = x
      · subst h2
        by_cases hv : v = fillByte
        · have hr : Memory.read rest a = fillByte := Memory.read_below h.2 (by omega)
          simp [Memory.write, hv, hr]
        · simp [Memory.write, Memory.read, hv]
      · simp [Memory.write, Memory.read, h1, h2, ih h.2]

theorem Memory.read_write_same {m : Memory} (a : Nat) (v : Byte) (h : m.wf = true) : (m.write a v).read a = v :=
  Memory.read_write_same_from v h

/-- Read after write, as one case distinction. -/
theorem Memory.read_write {m : Memory} (a b : Nat) (v : Byte) (h : m.wf = true) :
    (m.write a v).read b = if b = a then v else m.read b := by
  by_cases hb : b = a
  · subst hb; simp [Memory.read_write_same b v h]
  · simp [hb, Memory.read_write_other m v hb]

/-! ### The canonical form -/

theorem Memory.risesFrom_weaken {m : Memory} {lo lo' : Nat} (h : m.risesFrom lo = true) (hl : lo' ≤ lo) :
    m.risesFrom lo' = true := by
  cases m with
  | nil => rfl
  | cons c rest =>
    obtain ⟨b, v⟩ := c
    simp only [Memory.risesFrom, Bool.and_eq_true, decide_eq_true_eq] at h ⊢
    exact ⟨⟨by omega, h.1.2⟩, h.2⟩

theorem Memory.write_risesFrom {m : Memory} {lo a : Nat} (v : Byte) (h : m.risesFrom lo = true) (ha : lo ≤ a) :
    (m.write a v).risesFrom lo = true := by
  induction m generalizing lo with
  | nil =>
    by_cases hv : v = fillByte <;> simp [Memory.write, Memory.risesFrom, hv, ha]
  | cons c rest ih =>
    obtain ⟨x, w⟩ := c
    have h0 := h
    simp only [Memory.risesFrom, Bool.and_eq_true, decide_eq_true_eq] at h
    by_cases h1 : a < x
    · by_cases hv : v = fillByte
      · simpa [Memory.write, h1, hv] using h0
      · simp only [Memory.write, h1, hv, if_true, if_false, Memory.risesFrom, Bool.and_eq_true, decide_eq_true_eq]
        exact ⟨⟨ha, by simpa using hv⟩, ⟨by omega, h.1.2⟩, h.2⟩
    · by_cases h2 : a = x
      · subst h2
        by_cases hv : v = fillByte
        · simp only [Memory.write, hv, lt_irrefl, if_true, if_false]
          exact Memory.risesFrom_weaken h.2 (by omega)
        · simp only [Memory.write, hv, lt_irrefl, if_true, if_false, Memory.risesFrom, Bool.and_eq_true,
            decide_eq_true_eq]
          exact ⟨⟨ha, by simpa using hv⟩, h.2⟩
      · simp only [Memory.write, h1, h2, if_false, Memory.risesFrom, Bool.and_eq_true, decide_eq_true_eq]
        exact ⟨⟨h.1.1, h.1.2⟩, ih h.2 (by omega)⟩

theorem Memory.write_wf {m : Memory} (a : Nat) (v : Byte) (h : m.wf = true) : (m.write a v).wf = true :=
  Memory.write_risesFrom v h (Nat.zero_le a)

theorem Memory.write_below {m : Memory} {top a : Nat} (v : Byte) (h : m.below top = true) (ha : a < top) :
    (m.write a v).below top = true := by
  induction m with
  | nil => by_cases hv : v = fillByte <;> simp [Memory.write, Memory.below, hv, ha]
  | cons c rest ih =>
    obtain ⟨x, w⟩ := c
    simp only [Memory.below, List.all_cons, Bool.and_eq_true, decide_eq_true_eq] at h ih
    have ih := ih h.2
    by_cases h1 : a < x
    · by_cases hv : v = fillByte <;> simp [Memory.write, Memory.below, h1, hv, ha, h.1] <;>
        simpa using h.2
    · by_cases h2 : a = x
      · subst h2
        by_cases hv : v = fillByte <;> simp [Memory.write, Memory.below, hv, h.1] <;> simpa using h.2
      · simp only [Memory.write, h1, h2, if_false, Memory.below, List.all_cons, Bool.and_eq_true, decide_eq_true_eq]
        exact ⟨h.1, ih⟩

/-- Two canonical memories that read alike are equal. -/
theorem Memory.ext_of_read {m m' : Memory} {lo : Nat} (h : m.risesFrom lo = true) (h' : m'.risesFrom lo = true)
    (hr : ∀ a, m.read a = m'.read a) : m = m' := by
  induction m generalizing m' lo with
  | nil =>
    cases m' with
    | nil => rfl
    | cons c rest =>
      obtain ⟨b, v⟩ := c
      simp only [Memory.risesFrom, Bool.and_eq_true, decide_eq_true_eq] at h'
      have := hr b
      simp [Memory.read] at this
      simp [← this] at h'
  | cons c rest ih =>
    obtain ⟨b, v⟩ := c
    simp only [Memory.risesFrom, Bool.and_eq_true, decide_eq_true_eq] at h
    cases m' with
    | nil =>
      have := hr b
      simp [Memory.read] at this
      simp [this] at h
    | cons c' rest' =>
      obtain ⟨b', v'⟩ := c'
      simp only [Memory.risesFrom, Bool.and_eq_true, decide_eq_true_eq] at h'
      rcases lt_trichotomy b b' with hb | hb | hb
      · have h1 := hr b
        have h2 : Memory.read rest' b = fillByte := Memory.read_below h'.2 (by omega)
        have : b ≠ b' := by omega
        simp [Memory.read, this, h2] at h1
        simp [h1] at h
      · subst hb
        have h1 := hr b
        simp [Memory.read] at h1
        subst h1
        have : rest = rest' := by
          refine ih h.2 h'.2 fun a => ?_
          by_cases ha : a = b
          · subst ha
            rw [Memory.read_below h.2 (by omega), Memory.read_below h'.2 (by omega)]
          · simpa [Memory.read, ha] using hr a
        rw [this]
      · have h1 := hr b'
        have h2 : Memory.read rest b' = fillByte := Memory.read_below h.2 (by omega)
        have : b' ≠ b := by omega
        simp [Memory.read, this, h2] at h1
        simp [← h1] at h'

/-! ### Runs of bytes -/

@[simp] theorem Memory.readList_length (m : Memory) (a n : Nat) : (m.readList a n).length = n := by
  induction n generalizing a with
  | zero => rfl
  | succ n ih => simp [Memory.readList, ih]

theorem Memory.readList_getElem (m : Memory) (a n i : Nat) (h : i < (m.readList a n).length) :
    (m.readList a n)[i] = m.read (a + i) := by
  induction n generalizing a i with
  | zero => simp [Memory.readList] at h
  | succ n ih =>
    cases i with
    | zero => simp [Memory.readList]
    | succ i =>
      simp only [Memory.readList, List.getElem_cons_succ]
      rw [ih]
      congr 1
      omega

/-- Equal bytes give equal runs. -/
theorem Memory.readList_congr {m m' : Memory} {a a' n : Nat} (h : ∀ i, i < n → m.read (a + i) = m'.read (a' + i)) :
    m.readList a n = m'.readList a' n := by
  apply List.ext_getElem
  · simp
  · intro i h1 h2
    rw [Memory.readList_getElem, Memory.readList_getElem]
    exact h i (by simpa using h1)

/-- A run of bytes in two parts. -/
theorem Memory.readList_append (m : Memory) (a n k : Nat) :
    m.readList a (n + k) = m.readList a n ++ m.readList (a + n) k := by
  induction n generalizing a with
  | zero => simp [Memory.readList]
  | succ n ih =>
    rw [Nat.succ_add]
    simp only [Memory.readList, ih, List.cons_append]
    congr 3
    omega

/-- Writing a run leaves the bytes outside it alone. -/
theorem Memory.read_writeList_other (m : Memory) (a : Nat) (bs : List Byte) {b : Nat}
    (h : b < a ∨ a + bs.length ≤ b) : (m.writeList a bs).read b = m.read b := by
  induction bs generalizing m a with
  | nil => rfl
  | cons v rest ih =>
    simp only [List.length_cons] at h
    simp only [Memory.writeList]
    rw [ih _ _ (by omega), Memory.read_write_other _ _ (by omega)]

theorem Memory.writeList_wf {m : Memory} (a : Nat) (bs : List Byte) (h : m.wf = true) :
    (m.writeList a bs).wf = true := by
  induction bs generalizing m a with
  | nil => exact h
  | cons v rest ih => exact ih _ (Memory.write_wf a v h)

theorem Memory.writeList_below {m : Memory} {top : Nat} (a : Nat) (bs : List Byte) (h : m.below top = true)
    (ha : a + bs.length ≤ top) : (m.writeList a bs).below top = true := by
  induction bs generalizing m a with
  | nil => exact h
  | cons v rest ih =>
    simp only [List.length_cons] at ha
    exact ih _ (Memory.write_below v h (by omega)) (by omega)

/-- A written run reads back. -/
theorem Memory.read_writeList (m : Memory) (a : Nat) (bs : List Byte) (i : Nat) (h : m.wf = true)
    (hi : i < bs.length) : (m.writeList a bs).read (a + i) = bs[i] := by
  induction bs generalizing m a i with
  | nil => simp at hi
  | cons v rest ih =>
    cases i with
    | zero =>
      simp only [Memory.writeList, Nat.add_zero, List.getElem_cons_zero]
      rw [Memory.read_writeList_other _ _ _ (by omega), Memory.read_write_same a v h]
    | succ i =>
      simp only [Memory.writeList, List.getElem_cons_succ]
      have := ih (m.write a v) (a + 1) i (Memory.write_wf a v h) (by simpa using hi)
      rw [← this]
      congr 1
      omega

/-- A written run reads back as a run. -/
theorem Memory.readList_writeList (m : Memory) (a : Nat) (bs : List Byte) (h : m.wf = true) :
    (m.writeList a bs).readList a bs.length = bs := by
  apply List.ext_getElem
  · simp
  · intro i _ h2
    rw [Memory.readList_getElem, Memory.read_writeList _ _ _ _ h h2]

/-- Writing a run and then the run after it is writing both. -/
theorem Memory.writeList_append (m : Memory) (a : Nat) (xs ys : List Byte) :
    (m.writeList a xs).writeList (a + xs.length) ys = m.writeList a (xs ++ ys) := by
  induction xs generalizing m a with
  | nil => rfl
  | cons v rest ih =>
    simp only [Memory.writeList, List.cons_append, List.length_cons]
    rw [← ih]
    congr 1
    omega

/-- The forward copy leaves the bytes outside its destination alone. -/
theorem Memory.read_copyForward_other (m : Memory) (src dst n : Nat) {b : Nat} (h : b < dst ∨ dst + n ≤ b) :
    (m.copyForward src dst n).read b = m.read b := by
  induction n generalizing m src dst with
  | zero => rfl
  | succ n ih =>
    simp only [Memory.copyForward]
    rw [ih _ _ _ (by omega), Memory.read_write_other _ _ (by omega)]

theorem Memory.copyForward_wf {m : Memory} (src dst n : Nat) (h : m.wf = true) :
    (m.copyForward src dst n).wf = true := by
  induction n generalizing m src dst with
  | zero => exact h
  | succ n ih => exact ih _ _ (Memory.write_wf _ _ h)

theorem Memory.copyForward_below {m : Memory} {top : Nat} (src dst n : Nat) (h : m.below top = true)
    (hd : dst + n ≤ top) : (m.copyForward src dst n).below top = true := by
  induction n generalizing m src dst with
  | zero => exact h
  | succ n ih => exact ih _ _ (Memory.write_below _ h (by omega)) (by omega)

/-- The byte loop of 41_decoder.md R181: each destination byte equals the byte at the same distance back AFTER the
copy, as every byte is read after every earlier one is written. -/
theorem Memory.read_copyForward_step (m : Memory) (src dst n : Nat) (h : m.wf = true) (hs : src < dst) {j : Nat}
    (hj : j < n) : (m.copyForward src dst n).read (dst + j) = (m.copyForward src dst n).read (src + j) := by
  induction n generalizing m src dst j with
  | zero => omega
  | succ n ih =>
    simp only [Memory.copyForward]
    cases j with
    | zero =>
      simp only [Nat.add_zero]
      rw [Memory.read_copyForward_other _ _ _ _ (by omega), Memory.read_write_same _ _ h,
        Memory.read_copyForward_other _ _ _ _ (by omega), Memory.read_write_other _ _ (by omega)]
    | succ j =>
      have := ih (m.write dst (m.read src)) (src + 1) (dst + 1) (Memory.write_wf _ _ h) (by omega) (j := j) (by omega)
      rw [show dst + (j + 1) = dst + 1 + j by omega, show src + (j + 1) = src + 1 + j by omega]
      exact this

/-- A copy from a range that the destination does not touch moves the bytes as they stood. -/
theorem Memory.read_copyForward_disjoint (m : Memory) (src dst n : Nat) (h : m.wf = true)
    (hd : src + n ≤ dst ∨ dst + n ≤ src) {j : Nat} (hj : j < n) :
    (m.copyForward src dst n).read (dst + j) = m.read (src + j) := by
  induction n generalizing m src dst j with
  | zero => omega
  | succ n ih =>
    simp only [Memory.copyForward]
    cases j with
    | zero =>
      simp only [Nat.add_zero]
      rw [Memory.read_copyForward_other _ _ _ _ (by omega), Memory.read_write_same _ _ h]
    | succ j =>
      have := ih (m.write dst (m.read src)) (src + 1) (dst + 1) (Memory.write_wf _ _ h) (by omega) (j := j) (by omega)
      rw [show dst + (j + 1) = dst + 1 + j by omega, show src + (j + 1) = src + 1 + j by omega, this,
        Memory.read_write_other _ _ (by omega)]

/-- A copy forward from `dist` bytes back repeats the last `dist` bytes (41_decoder.md R182). -/
theorem Memory.read_copyForward_repeat (m : Memory) (src dst n : Nat) (h : m.wf = true) (hs : src < dst) {j : Nat}
    (hj : j < n) : (m.copyForward src dst n).read (dst + j) = m.read (src + j % (dst - src)) := by
  induction j using Nat.strong_induction_on with
  | _ j ih =>
    rw [Memory.read_copyForward_step m src dst n h hs hj]
    by_cases hlt : j < dst - src
    · rw [Nat.mod_eq_of_lt hlt, Memory.read_copyForward_other _ _ _ _ (by omega)]
    · have e : src + j = dst + (j - (dst - src)) := by omega
      rw [e, ih (j - (dst - src)) (by omega) (by omega), ← Nat.mod_eq_sub_mod (by omega)]

end Sys2Proof.Machine
end

