-- ==== Sys2Proof/Laws/State.lean ====
section
/-! SUPPORT. One lemma per field per update of the state, true by rfl, so that no later proof unfolds a record update;
before them, names for the states that the larger updates leave. -/

namespace Sys2Proof.Machine

/-! ### A step boundary -/

@[simp] theorem State.passBoundary_params (s : State) (sp dp : Nat) : (s.passBoundary sp dp).params = s.params := rfl
@[simp] theorem State.passBoundary_op (s : State) (sp dp : Nat) : (s.passBoundary sp dp).op = s.op := rfl
@[simp] theorem State.passBoundary_kind (s : State) (sp dp : Nat) : (s.passBoundary sp dp).kind = s.kind := rfl
@[simp] theorem State.passBoundary_irqEn (s : State) (sp dp : Nat) : (s.passBoundary sp dp).irqEn = s.irqEn := rfl
@[simp] theorem State.passBoundary_done (s : State) (sp dp : Nat) : (s.passBoundary sp dp).done = s.done := rfl
@[simp] theorem State.passBoundary_error (s : State) (sp dp : Nat) : (s.passBoundary sp dp).error = s.error := rfl
@[simp] theorem State.passBoundary_errCode (s : State) (sp dp : Nat) : (s.passBoundary sp dp).errCode = s.errCode := rfl
@[simp] theorem State.passBoundary_width (s : State) (sp dp : Nat) : (s.passBoundary sp dp).width = s.width := rfl
@[simp] theorem State.passBoundary_height (s : State) (sp dp : Nat) : (s.passBoundary sp dp).height = s.height := rfl
@[simp] theorem State.passBoundary_srcBase (s : State) (sp dp : Nat) : (s.passBoundary sp dp).srcBase = s.srcBase := rfl
@[simp] theorem State.passBoundary_srcLen (s : State) (sp dp : Nat) : (s.passBoundary sp dp).srcLen = s.srcLen := rfl
@[simp] theorem State.passBoundary_dstBase (s : State) (sp dp : Nat) : (s.passBoundary sp dp).dstBase = s.dstBase := rfl
@[simp] theorem State.passBoundary_dstCap (s : State) (sp dp : Nat) : (s.passBoundary sp dp).dstCap = s.dstCap := rfl
@[simp] theorem State.passBoundary_srcPosReg (s : State) (sp dp : Nat) : (s.passBoundary sp dp).srcPosReg = s.srcPosReg := rfl
@[simp] theorem State.passBoundary_dstPosReg (s : State) (sp dp : Nat) : (s.passBoundary sp dp).dstPosReg = s.dstPosReg := rfl
@[simp] theorem State.passBoundary_errPos (s : State) (sp dp : Nat) : (s.passBoundary sp dp).errPos = s.errPos := rfl
@[simp] theorem State.passBoundary_engine (s : State) (sp dp : Nat) : (s.passBoundary sp dp).engine = s.engine := rfl
@[simp] theorem State.passBoundary_job_op (s : State) (sp dp : Nat) : (s.passBoundary sp dp).job.op = s.job.op := rfl
@[simp] theorem State.passBoundary_job_kind (s : State) (sp dp : Nat) : (s.passBoundary sp dp).job.kind = s.job.kind := rfl
@[simp] theorem State.passBoundary_job_width (s : State) (sp dp : Nat) : (s.passBoundary sp dp).job.width = s.job.width := rfl
@[simp] theorem State.passBoundary_job_height (s : State) (sp dp : Nat) : (s.passBoundary sp dp).job.height = s.job.height := rfl
@[simp] theorem State.passBoundary_job_srcBase (s : State) (sp dp : Nat) : (s.passBoundary sp dp).job.srcBase = s.job.srcBase := rfl
@[simp] theorem State.passBoundary_job_srcLen (s : State) (sp dp : Nat) : (s.passBoundary sp dp).job.srcLen = s.job.srcLen := rfl
@[simp] theorem State.passBoundary_job_dstBase (s : State) (sp dp : Nat) : (s.passBoundary sp dp).job.dstBase = s.job.dstBase := rfl
@[simp] theorem State.passBoundary_job_dstCap (s : State) (sp dp : Nat) : (s.passBoundary sp dp).job.dstCap = s.job.dstCap := rfl
@[simp] theorem State.passBoundary_job_shiftDeltas (s : State) (sp dp : Nat) : (s.passBoundary sp dp).job.shiftDeltas = s.job.shiftDeltas := rfl
@[simp] theorem State.passBoundary_job_srcPos (s : State) (sp dp : Nat) : (s.passBoundary sp dp).job.srcPos = s.job.srcPos := rfl
@[simp] theorem State.passBoundary_job_dstPos (s : State) (sp dp : Nat) : (s.passBoundary sp dp).job.dstPos = s.job.dstPos := rfl
@[simp] theorem State.passBoundary_job_remBytes (s : State) (sp dp : Nat) : (s.passBoundary sp dp).job.remBytes = s.job.remBytes := rfl
@[simp] theorem State.passBoundary_job_cmdStart (s : State) (sp dp : Nat) : (s.passBoundary sp dp).job.cmdStart = s.job.cmdStart := rfl
@[simp] theorem State.passBoundary_job_current (s : State) (sp dp : Nat) : (s.passBoundary sp dp).job.current = s.job.current := rfl
@[simp] theorem State.passBoundary_job_litStart (s : State) (sp dp : Nat) : (s.passBoundary sp dp).job.litStart = s.job.litStart := rfl
@[simp] theorem State.passBoundary_job_litLen (s : State) (sp dp : Nat) : (s.passBoundary sp dp).job.litLen = s.job.litLen := rfl
@[simp] theorem State.passBoundary_job_outPos (s : State) (sp dp : Nat) : (s.passBoundary sp dp).job.outPos = s.job.outPos := rfl
@[simp] theorem State.passBoundary_job_bestLen (s : State) (sp dp : Nat) : (s.passBoundary sp dp).job.bestLen = s.job.bestLen := rfl
@[simp] theorem State.passBoundary_job_bestIdx (s : State) (sp dp : Nat) : (s.passBoundary sp dp).job.bestIdx = s.job.bestIdx := rfl
@[simp] theorem State.passBoundary_job_passed (s : State) (sp dp : Nat) : (s.passBoundary sp dp).job.passed = (sp, dp) :: s.job.passed := rfl
@[simp] theorem State.passBoundary_job_d (s : State) (sp dp : Nat) : (s.passBoundary sp dp).job.d = s.job.d := rfl
@[simp] theorem State.passBoundary_job_totalPixels (s : State) (sp dp : Nat) : (s.passBoundary sp dp).job.totalPixels = s.job.totalPixels := rfl
@[simp] theorem State.passBoundary_job_totalBytes (s : State) (sp dp : Nat) : (s.passBoundary sp dp).job.totalBytes = s.job.totalBytes := rfl
@[simp] theorem State.passBoundary_job_srcAddr (s : State) (sp dp : Nat) (i : Nat) : (s.passBoundary sp dp).job.srcAddr i = s.job.srcAddr i := rfl
@[simp] theorem State.passBoundary_job_dstAddr (s : State) (sp dp : Nat) (i : Nat) : (s.passBoundary sp dp).job.dstAddr i = s.job.dstAddr i := rfl
@[simp] theorem State.passBoundary_mem (s : State) (sp dp : Nat) : (s.passBoundary sp dp).mem = s.mem := rfl
@[simp] theorem State.passBoundary_turns (s : State) (sp dp : Nat) : (s.passBoundary sp dp).turns = s.turns := rfl
@[simp] theorem State.passBoundary_rdata (s : State) (sp dp : Nat) : (s.passBoundary sp dp).rdata = s.rdata := rfl
@[simp] theorem State.passBoundary_draws (s : State) (sp dp : Nat) : (s.passBoundary sp dp).draws = s.draws := rfl
@[simp] theorem State.passBoundary_addressTop (s : State) (sp dp : Nat) : (s.passBoundary sp dp).addressTop = s.addressTop := rfl
@[simp] theorem State.passBoundary_busy (s : State) (sp dp : Nat) : (s.passBoundary sp dp).busy = s.busy := rfl

/-! ### A finished decode command -/

@[simp] theorem State.commandDone_params (s : State) (mem : Memory) (pos nb : Nat) : (s.commandDone mem pos nb).params = s.params := rfl
@[simp] theorem State.commandDone_op (s : State) (mem : Memory) (pos nb : Nat) : (s.commandDone mem pos nb).op = s.op := rfl
@[simp] theorem State.commandDone_kind (s : State) (mem : Memory) (pos nb : Nat) : (s.commandDone mem pos nb).kind = s.kind := rfl
@[simp] theorem State.commandDone_irqEn (s : State) (mem : Memory) (pos nb : Nat) : (s.commandDone mem pos nb).irqEn = s.irqEn := rfl
@[simp] theorem State.commandDone_done (s : State) (mem : Memory) (pos nb : Nat) : (s.commandDone mem pos nb).done = s.done := rfl
@[simp] theorem State.commandDone_error (s : State) (mem : Memory) (pos nb : Nat) : (s.commandDone mem pos nb).error = s.error := rfl
@[simp] theorem State.commandDone_errCode (s : State) (mem : Memory) (pos nb : Nat) : (s.commandDone mem pos nb).errCode = s.errCode := rfl
@[simp] theorem State.commandDone_width (s : State) (mem : Memory) (pos nb : Nat) : (s.commandDone mem pos nb).width = s.width := rfl
@[simp] theorem State.commandDone_height (s : State) (mem : Memory) (pos nb : Nat) : (s.commandDone mem pos nb).height = s.height := rfl
@[simp] theorem State.commandDone_srcBase (s : State) (mem : Memory) (pos nb : Nat) : (s.commandDone mem pos nb).srcBase = s.srcBase := rfl
@[simp] theorem State.commandDone_srcLen (s : State) (mem : Memory) (pos nb : Nat) : (s.commandDone mem pos nb).srcLen = s.srcLen := rfl
@[simp] theorem State.commandDone_dstBase (s : State) (mem : Memory) (pos nb : Nat) : (s.commandDone mem pos nb).dstBase = s.dstBase := rfl
@[simp] theorem State.commandDone_dstCap (s : State) (mem : Memory) (pos nb : Nat) : (s.commandDone mem pos nb).dstCap = s.dstCap := rfl
@[simp] theorem State.commandDone_srcPosReg (s : State) (mem : Memory) (pos nb : Nat) : (s.commandDone mem pos nb).srcPosReg = s.srcPosReg := rfl
@[simp] theorem State.commandDone_dstPosReg (s : State) (mem : Memory) (pos nb : Nat) : (s.commandDone mem pos nb).dstPosReg = s.dstPosReg := rfl
@[simp] theorem State.commandDone_errPos (s : State) (mem : Memory) (pos nb : Nat) : (s.commandDone mem pos nb).errPos = s.errPos := rfl
@[simp] theorem State.commandDone_engine (s : State) (mem : Memory) (pos nb : Nat) : (s.commandDone mem pos nb).engine = s.engine := rfl
@[simp] theorem State.commandDone_job_op (s : State) (mem : Memory) (pos nb : Nat) : (s.commandDone mem pos nb).job.op = s.job.op := rfl
@[simp] theorem State.commandDone_job_kind (s : State) (mem : Memory) (pos nb : Nat) : (s.commandDone mem pos nb).job.kind = s.job.kind := rfl
@[simp] theorem State.commandDone_job_width (s : State) (mem : Memory) (pos nb : Nat) : (s.commandDone mem pos nb).job.width = s.job.width := rfl
@[simp] theorem State.commandDone_job_height (s : State) (mem : Memory) (pos nb : Nat) : (s.commandDone mem pos nb).job.height = s.job.height := rfl
@[simp] theorem State.commandDone_job_srcBase (s : State) (mem : Memory) (pos nb : Nat) : (s.commandDone mem pos nb).job.srcBase = s.job.srcBase := rfl
@[simp] theorem State.commandDone_job_srcLen (s : State) (mem : Memory) (pos nb : Nat) : (s.commandDone mem pos nb).job.srcLen = s.job.srcLen := rfl
@[simp] theorem State.commandDone_job_dstBase (s : State) (mem : Memory) (pos nb : Nat) : (s.commandDone mem pos nb).job.dstBase = s.job.dstBase := rfl
@[simp] theorem State.commandDone_job_dstCap (s : State) (mem : Memory) (pos nb : Nat) : (s.commandDone mem pos nb).job.dstCap = s.job.dstCap := rfl
@[simp] theorem State.commandDone_job_shiftDeltas (s : State) (mem : Memory) (pos nb : Nat) : (s.commandDone mem pos nb).job.shiftDeltas = s.job.shiftDeltas := rfl
@[simp] theorem State.commandDone_job_srcPos (s : State) (mem : Memory) (pos nb : Nat) : (s.commandDone mem pos nb).job.srcPos = pos := rfl
@[simp] theorem State.commandDone_job_dstPos (s : State) (mem : Memory) (pos nb : Nat) : (s.commandDone mem pos nb).job.dstPos = s.job.dstPos + nb := rfl
@[simp] theorem State.commandDone_job_remBytes (s : State) (mem : Memory) (pos nb : Nat) : (s.commandDone mem pos nb).job.remBytes = s.job.remBytes - nb := rfl
@[simp] theorem State.commandDone_job_cmdStart (s : State) (mem : Memory) (pos nb : Nat) : (s.commandDone mem pos nb).job.cmdStart = s.job.srcPos := rfl
@[simp] theorem State.commandDone_job_current (s : State) (mem : Memory) (pos nb : Nat) : (s.commandDone mem pos nb).job.current = s.job.current := rfl
@[simp] theorem State.commandDone_job_litStart (s : State) (mem : Memory) (pos nb : Nat) : (s.commandDone mem pos nb).job.litStart = s.job.litStart := rfl
@[simp] theorem State.commandDone_job_litLen (s : State) (mem : Memory) (pos nb : Nat) : (s.commandDone mem pos nb).job.litLen = s.job.litLen := rfl
@[simp] theorem State.commandDone_job_outPos (s : State) (mem : Memory) (pos nb : Nat) : (s.commandDone mem pos nb).job.outPos = s.job.outPos := rfl
@[simp] theorem State.commandDone_job_bestLen (s : State) (mem : Memory) (pos nb : Nat) : (s.commandDone mem pos nb).job.bestLen = s.job.bestLen := rfl
@[simp] theorem State.commandDone_job_bestIdx (s : State) (mem : Memory) (pos nb : Nat) : (s.commandDone mem pos nb).job.bestIdx = s.job.bestIdx := rfl
@[simp] theorem State.commandDone_job_passed (s : State) (mem : Memory) (pos nb : Nat) : (s.commandDone mem pos nb).job.passed = (pos, s.job.dstPos + nb) :: s.job.passed := rfl
@[simp] theorem State.commandDone_job_d (s : State) (mem : Memory) (pos nb : Nat) : (s.commandDone mem pos nb).job.d = s.job.d := rfl
@[simp] theorem State.commandDone_job_totalPixels (s : State) (mem : Memory) (pos nb : Nat) : (s.commandDone mem pos nb).job.totalPixels = s.job.totalPixels := rfl
@[simp] theorem State.commandDone_job_totalBytes (s : State) (mem : Memory) (pos nb : Nat) : (s.commandDone mem pos nb).job.totalBytes = s.job.totalBytes := rfl
@[simp] theorem State.commandDone_job_srcAddr (s : State) (mem : Memory) (pos nb : Nat) (i : Nat) : (s.commandDone mem pos nb).job.srcAddr i = s.job.srcAddr i := rfl
@[simp] theorem State.commandDone_job_dstAddr (s : State) (mem : Memory) (pos nb : Nat) (i : Nat) : (s.commandDone mem pos nb).job.dstAddr i = s.job.dstAddr i := rfl
@[simp] theorem State.commandDone_mem (s : State) (mem : Memory) (pos nb : Nat) : (s.commandDone mem pos nb).mem = mem := rfl
@[simp] theorem State.commandDone_turns (s : State) (mem : Memory) (pos nb : Nat) : (s.commandDone mem pos nb).turns = s.turns := rfl
@[simp] theorem State.commandDone_rdata (s : State) (mem : Memory) (pos nb : Nat) : (s.commandDone mem pos nb).rdata = s.rdata := rfl
@[simp] theorem State.commandDone_draws (s : State) (mem : Memory) (pos nb : Nat) : (s.commandDone mem pos nb).draws = s.draws := rfl
@[simp] theorem State.commandDone_addressTop (s : State) (mem : Memory) (pos nb : Nat) : (s.commandDone mem pos nb).addressTop = s.addressTop := rfl
@[simp] theorem State.commandDone_busy (s : State) (mem : Memory) (pos nb : Nat) : (s.commandDone mem pos nb).busy = s.busy := rfl

/-! ### A job error -/

@[simp] theorem State.raise_params (s : State) (e : JobError) (sp dp ep : Nat) : (s.raise e sp dp ep).params = s.params := rfl
@[simp] theorem State.raise_op (s : State) (e : JobError) (sp dp ep : Nat) : (s.raise e sp dp ep).op = s.op := rfl
@[simp] theorem State.raise_kind (s : State) (e : JobError) (sp dp ep : Nat) : (s.raise e sp dp ep).kind = s.kind := rfl
@[simp] theorem State.raise_irqEn (s : State) (e : JobError) (sp dp ep : Nat) : (s.raise e sp dp ep).irqEn = s.irqEn := rfl
@[simp] theorem State.raise_done (s : State) (e : JobError) (sp dp ep : Nat) : (s.raise e sp dp ep).done = s.done := rfl
@[simp] theorem State.raise_error (s : State) (e : JobError) (sp dp ep : Nat) : (s.raise e sp dp ep).error = true := rfl
@[simp] theorem State.raise_errCode (s : State) (e : JobError) (sp dp ep : Nat) : (s.raise e sp dp ep).errCode = e.code := rfl
@[simp] theorem State.raise_width (s : State) (e : JobError) (sp dp ep : Nat) : (s.raise e sp dp ep).width = s.width := rfl
@[simp] theorem State.raise_height (s : State) (e : JobError) (sp dp ep : Nat) : (s.raise e sp dp ep).height = s.height := rfl
@[simp] theorem State.raise_srcBase (s : State) (e : JobError) (sp dp ep : Nat) : (s.raise e sp dp ep).srcBase = s.srcBase := rfl
@[simp] theorem State.raise_srcLen (s : State) (e : JobError) (sp dp ep : Nat) : (s.raise e sp dp ep).srcLen = s.srcLen := rfl
@[simp] theorem State.raise_dstBase (s : State) (e : JobError) (sp dp ep : Nat) : (s.raise e sp dp ep).dstBase = s.dstBase := rfl
@[simp] theorem State.raise_dstCap (s : State) (e : JobError) (sp dp ep : Nat) : (s.raise e sp dp ep).dstCap = s.dstCap := rfl
@[simp] theorem State.raise_srcPosReg (s : State) (e : JobError) (sp dp ep : Nat) : (s.raise e sp dp ep).srcPosReg = BitVec.ofNat 32 sp := rfl
@[simp] theorem State.raise_dstPosReg (s : State) (e : JobError) (sp dp ep : Nat) : (s.raise e sp dp ep).dstPosReg = BitVec.ofNat 32 dp := rfl
@[simp] theorem State.raise_errPos (s : State) (e : JobError) (sp dp ep : Nat) : (s.raise e sp dp ep).errPos = BitVec.ofNat 32 ep := rfl
@[simp] theorem State.raise_engine (s : State) (e : JobError) (sp dp ep : Nat) : (s.raise e sp dp ep).engine = .idle := rfl
@[simp] theorem State.raise_job (s : State) (e : JobError) (sp dp ep : Nat) : (s.raise e sp dp ep).job = s.job := rfl
@[simp] theorem State.raise_mem (s : State) (e : JobError) (sp dp ep : Nat) : (s.raise e sp dp ep).mem = s.mem := rfl
@[simp] theorem State.raise_turns (s : State) (e : JobError) (sp dp ep : Nat) : (s.raise e sp dp ep).turns = s.turns := rfl
@[simp] theorem State.raise_rdata (s : State) (e : JobError) (sp dp ep : Nat) : (s.raise e sp dp ep).rdata = s.rdata := rfl
@[simp] theorem State.raise_draws (s : State) (e : JobError) (sp dp ep : Nat) : (s.raise e sp dp ep).draws = s.draws := rfl
@[simp] theorem State.raise_addressTop (s : State) (e : JobError) (sp dp ep : Nat) : (s.raise e sp dp ep).addressTop = s.addressTop := rfl
@[simp] theorem State.raise_busy (s : State) (e : JobError) (sp dp ep : Nat) : (s.raise e sp dp ep).busy = false := rfl

/-! ### A job error inside a decode command -/

@[simp] theorem State.raiseInCommand_params (s : State) (e : JobError) : (s.raiseInCommand e).params = s.params := rfl
@[simp] theorem State.raiseInCommand_op (s : State) (e : JobError) : (s.raiseInCommand e).op = s.op := rfl
@[simp] theorem State.raiseInCommand_kind (s : State) (e : JobError) : (s.raiseInCommand e).kind = s.kind := rfl
@[simp] theorem State.raiseInCommand_irqEn (s : State) (e : JobError) : (s.raiseInCommand e).irqEn = s.irqEn := rfl
@[simp] theorem State.raiseInCommand_done (s : State) (e : JobError) : (s.raiseInCommand e).done = s.done := rfl
@[simp] theorem State.raiseInCommand_error (s : State) (e : JobError) : (s.raiseInCommand e).error = true := rfl
@[simp] theorem State.raiseInCommand_errCode (s : State) (e : JobError) : (s.raiseInCommand e).errCode = e.code := rfl
@[simp] theorem State.raiseInCommand_width (s : State) (e : JobError) : (s.raiseInCommand e).width = s.width := rfl
@[simp] theorem State.raiseInCommand_height (s : State) (e : JobError) : (s.raiseInCommand e).height = s.height := rfl
@[simp] theorem State.raiseInCommand_srcBase (s : State) (e : JobError) : (s.raiseInCommand e).srcBase = s.srcBase := rfl
@[simp] theorem State.raiseInCommand_srcLen (s : State) (e : JobError) : (s.raiseInCommand e).srcLen = s.srcLen := rfl
@[simp] theorem State.raiseInCommand_dstBase (s : State) (e : JobError) : (s.raiseInCommand e).dstBase = s.dstBase := rfl
@[simp] theorem State.raiseInCommand_dstCap (s : State) (e : JobError) : (s.raiseInCommand e).dstCap = s.dstCap := rfl
@[simp] theorem State.raiseInCommand_srcPosReg (s : State) (e : JobError) : (s.raiseInCommand e).srcPosReg = BitVec.ofNat 32 s.job.srcPos := rfl
@[simp] theorem State.raiseInCommand_dstPosReg (s : State) (e : JobError) : (s.raiseInCommand e).dstPosReg = BitVec.ofNat 32 s.job.dstPos := rfl
@[simp] theorem State.raiseInCommand_errPos (s : State) (e : JobError) : (s.raiseInCommand e).errPos = BitVec.ofNat 32 s.job.srcPos := rfl
@[simp] theorem State.raiseInCommand_engine (s : State) (e : JobError) : (s.raiseInCommand e).engine = .idle := rfl
@[simp] theorem State.raiseInCommand_job_op (s : State) (e : JobError) : (s.raiseInCommand e).job.op = s.job.op := rfl
@[simp] theorem State.raiseInCommand_job_kind (s : State) (e : JobError) : (s.raiseInCommand e).job.kind = s.job.kind := rfl
@[simp] theorem State.raiseInCommand_job_width (s : State) (e : JobError) : (s.raiseInCommand e).job.width = s.job.width := rfl
@[simp] theorem State.raiseInCommand_job_height (s : State) (e : JobError) : (s.raiseInCommand e).job.height = s.job.height := rfl
@[simp] theorem State.raiseInCommand_job_srcBase (s : State) (e : JobError) : (s.raiseInCommand e).job.srcBase = s.job.srcBase := rfl
@[simp] theorem State.raiseInCommand_job_srcLen (s : State) (e : JobError) : (s.raiseInCommand e).job.srcLen = s.job.srcLen := rfl
@[simp] theorem State.raiseInCommand_job_dstBase (s : State) (e : JobError) : (s.raiseInCommand e).job.dstBase = s.job.dstBase := rfl
@[simp] theorem State.raiseInCommand_job_dstCap (s : State) (e : JobError) : (s.raiseInCommand e).job.dstCap = s.job.dstCap := rfl
@[simp] theorem State.raiseInCommand_job_shiftDeltas (s : State) (e : JobError) : (s.raiseInCommand e).job.shiftDeltas = s.job.shiftDeltas := rfl
@[simp] theorem State.raiseInCommand_job_srcPos (s : State) (e : JobError) : (s.raiseInCommand e).job.srcPos = s.job.srcPos := rfl
@[simp] theorem State.raiseInCommand_job_dstPos (s : State) (e : JobError) : (s.raiseInCommand e).job.dstPos = s.job.dstPos := rfl
@[simp] theorem State.raiseInCommand_job_remBytes (s : State) (e : JobError) : (s.raiseInCommand e).job.remBytes = s.job.remBytes := rfl
@[simp] theorem State.raiseInCommand_job_cmdStart (s : State) (e : JobError) : (s.raiseInCommand e).job.cmdStart = s.job.srcPos := rfl
@[simp] theorem State.raiseInCommand_job_current (s : State) (e : JobError) : (s.raiseInCommand e).job.current = s.job.current := rfl
@[simp] theorem State.raiseInCommand_job_litStart (s : State) (e : JobError) : (s.raiseInCommand e).job.litStart = s.job.litStart := rfl
@[simp] theorem State.raiseInCommand_job_litLen (s : State) (e : JobError) : (s.raiseInCommand e).job.litLen = s.job.litLen := rfl
@[simp] theorem State.raiseInCommand_job_outPos (s : State) (e : JobError) : (s.raiseInCommand e).job.outPos = s.job.outPos := rfl
@[simp] theorem State.raiseInCommand_job_bestLen (s : State) (e : JobError) : (s.raiseInCommand e).job.bestLen = s.job.bestLen := rfl
@[simp] theorem State.raiseInCommand_job_bestIdx (s : State) (e : JobError) : (s.raiseInCommand e).job.bestIdx = s.job.bestIdx := rfl
@[simp] theorem State.raiseInCommand_job_passed (s : State) (e : JobError) : (s.raiseInCommand e).job.passed = s.job.passed := rfl
@[simp] theorem State.raiseInCommand_job_d (s : State) (e : JobError) : (s.raiseInCommand e).job.d = s.job.d := rfl
@[simp] theorem State.raiseInCommand_job_totalPixels (s : State) (e : JobError) : (s.raiseInCommand e).job.totalPixels = s.job.totalPixels := rfl
@[simp] theorem State.raiseInCommand_job_totalBytes (s : State) (e : JobError) : (s.raiseInCommand e).job.totalBytes = s.job.totalBytes := rfl
@[simp] theorem State.raiseInCommand_job_srcAddr (s : State) (e : JobError) (i : Nat) : (s.raiseInCommand e).job.srcAddr i = s.job.srcAddr i := rfl
@[simp] theorem State.raiseInCommand_job_dstAddr (s : State) (e : JobError) (i : Nat) : (s.raiseInCommand e).job.dstAddr i = s.job.dstAddr i := rfl
@[simp] theorem State.raiseInCommand_mem (s : State) (e : JobError) : (s.raiseInCommand e).mem = s.mem := rfl
@[simp] theorem State.raiseInCommand_turns (s : State) (e : JobError) : (s.raiseInCommand e).turns = s.turns := rfl
@[simp] theorem State.raiseInCommand_rdata (s : State) (e : JobError) : (s.raiseInCommand e).rdata = s.rdata := rfl
@[simp] theorem State.raiseInCommand_draws (s : State) (e : JobError) : (s.raiseInCommand e).draws = s.draws := rfl
@[simp] theorem State.raiseInCommand_addressTop (s : State) (e : JobError) : (s.raiseInCommand e).addressTop = s.addressTop := rfl
@[simp] theorem State.raiseInCommand_busy (s : State) (e : JobError) : (s.raiseInCommand e).busy = false := rfl

/-! ### A job error of an emission unit -/

@[simp] theorem State.raiseInUnit_params (s : State) (e : JobError) : (s.raiseInUnit e).params = s.params := rfl
@[simp] theorem State.raiseInUnit_op (s : State) (e : JobError) : (s.raiseInUnit e).op = s.op := rfl
@[simp] theorem State.raiseInUnit_kind (s : State) (e : JobError) : (s.raiseInUnit e).kind = s.kind := rfl
@[simp] theorem State.raiseInUnit_irqEn (s : State) (e : JobError) : (s.raiseInUnit e).irqEn = s.irqEn := rfl
@[simp] theorem State.raiseInUnit_done (s : State) (e : JobError) : (s.raiseInUnit e).done = s.done := rfl
@[simp] theorem State.raiseInUnit_error (s : State) (e : JobError) : (s.raiseInUnit e).error = true := rfl
@[simp] theorem State.raiseInUnit_errCode (s : State) (e : JobError) : (s.raiseInUnit e).errCode = e.code := rfl
@[simp] theorem State.raiseInUnit_width (s : State) (e : JobError) : (s.raiseInUnit e).width = s.width := rfl
@[simp] theorem State.raiseInUnit_height (s : State) (e : JobError) : (s.raiseInUnit e).height = s.height := rfl
@[simp] theorem State.raiseInUnit_srcBase (s : State) (e : JobError) : (s.raiseInUnit e).srcBase = s.srcBase := rfl
@[simp] theorem State.raiseInUnit_srcLen (s : State) (e : JobError) : (s.raiseInUnit e).srcLen = s.srcLen := rfl
@[simp] theorem State.raiseInUnit_dstBase (s : State) (e : JobError) : (s.raiseInUnit e).dstBase = s.dstBase := rfl
@[simp] theorem State.raiseInUnit_dstCap (s : State) (e : JobError) : (s.raiseInUnit e).dstCap = s.dstCap := rfl
@[simp] theorem State.raiseInUnit_srcPosReg (s : State) (e : JobError) : (s.raiseInUnit e).srcPosReg = BitVec.ofNat 32 (s.job.current * s.job.d) := rfl
@[simp] theorem State.raiseInUnit_dstPosReg (s : State) (e : JobError) : (s.raiseInUnit e).dstPosReg = BitVec.ofNat 32 s.job.outPos := rfl
@[simp] theorem State.raiseInUnit_errPos (s : State) (e : JobError) : (s.raiseInUnit e).errPos = BitVec.ofNat 32 s.job.current := rfl
@[simp] theorem State.raiseInUnit_engine (s : State) (e : JobError) : (s.raiseInUnit e).engine = .idle := rfl
@[simp] theorem State.raiseInUnit_job (s : State) (e : JobError) : (s.raiseInUnit e).job = s.job := rfl
@[simp] theorem State.raiseInUnit_mem (s : State) (e : JobError) : (s.raiseInUnit e).mem = s.mem := rfl
@[simp] theorem State.raiseInUnit_turns (s : State) (e : JobError) : (s.raiseInUnit e).turns = s.turns := rfl
@[simp] theorem State.raiseInUnit_rdata (s : State) (e : JobError) : (s.raiseInUnit e).rdata = s.rdata := rfl
@[simp] theorem State.raiseInUnit_draws (s : State) (e : JobError) : (s.raiseInUnit e).draws = s.draws := rfl
@[simp] theorem State.raiseInUnit_addressTop (s : State) (e : JobError) : (s.raiseInUnit e).addressTop = s.addressTop := rfl
@[simp] theorem State.raiseInUnit_busy (s : State) (e : JobError) : (s.raiseInUnit e).busy = false := rfl

/-! ### The end of a job without error -/

@[simp] theorem State.endDone_params (s : State) (sp dp : Nat) : (s.endDone sp dp).params = s.params := rfl
@[simp] theorem State.endDone_op (s : State) (sp dp : Nat) : (s.endDone sp dp).op = s.op := rfl
@[simp] theorem State.endDone_kind (s : State) (sp dp : Nat) : (s.endDone sp dp).kind = s.kind := rfl
@[simp] theorem State.endDone_irqEn (s : State) (sp dp : Nat) : (s.endDone sp dp).irqEn = s.irqEn := rfl
@[simp] theorem State.endDone_done (s : State) (sp dp : Nat) : (s.endDone sp dp).done = true := rfl
@[simp] theorem State.endDone_error (s : State) (sp dp : Nat) : (s.endDone sp dp).error = s.error := rfl
@[simp] theorem State.endDone_errCode (s : State) (sp dp : Nat) : (s.endDone sp dp).errCode = s.errCode := rfl
@[simp] theorem State.endDone_width (s : State) (sp dp : Nat) : (s.endDone sp dp).width = s.width := rfl
@[simp] theorem State.endDone_height (s : State) (sp dp : Nat) : (s.endDone sp dp).height = s.height := rfl
@[simp] theorem State.endDone_srcBase (s : State) (sp dp : Nat) : (s.endDone sp dp).srcBase = s.srcBase := rfl
@[simp] theorem State.endDone_srcLen (s : State) (sp dp : Nat) : (s.endDone sp dp).srcLen = s.srcLen := rfl
@[simp] theorem State.endDone_dstBase (s : State) (sp dp : Nat) : (s.endDone sp dp).dstBase = s.dstBase := rfl
@[simp] theorem State.endDone_dstCap (s : State) (sp dp : Nat) : (s.endDone sp dp).dstCap = s.dstCap := rfl
@[simp] theorem State.endDone_srcPosReg (s : State) (sp dp : Nat) : (s.endDone sp dp).srcPosReg = BitVec.ofNat 32 sp := rfl
@[simp] theorem State.endDone_dstPosReg (s : State) (sp dp : Nat) : (s.endDone sp dp).dstPosReg = BitVec.ofNat 32 dp := rfl
@[simp] theorem State.endDone_errPos (s : State) (sp dp : Nat) : (s.endDone sp dp).errPos = s.errPos := rfl
@[simp] theorem State.endDone_engine (s : State) (sp dp : Nat) : (s.endDone sp dp).engine = .idle := rfl
@[simp] theorem State.endDone_job (s : State) (sp dp : Nat) : (s.endDone sp dp).job = s.job := rfl
@[simp] theorem State.endDone_mem (s : State) (sp dp : Nat) : (s.endDone sp dp).mem = s.mem := rfl
@[simp] theorem State.endDone_turns (s : State) (sp dp : Nat) : (s.endDone sp dp).turns = s.turns := rfl
@[simp] theorem State.endDone_rdata (s : State) (sp dp : Nat) : (s.endDone sp dp).rdata = s.rdata := rfl
@[simp] theorem State.endDone_draws (s : State) (sp dp : Nat) : (s.endDone sp dp).draws = s.draws := rfl
@[simp] theorem State.endDone_addressTop (s : State) (sp dp : Nat) : (s.endDone sp dp).addressTop = s.addressTop := rfl
@[simp] theorem State.endDone_busy (s : State) (sp dp : Nat) : (s.endDone sp dp).busy = false := rfl

/-! ### The acknowledgement -/

@[simp] theorem State.acknowledge_params (s : State) (v : Word) : (s.acknowledge v).params = s.params := rfl
@[simp] theorem State.acknowledge_op (s : State) (v : Word) : (s.acknowledge v).op = s.op := rfl
@[simp] theorem State.acknowledge_kind (s : State) (v : Word) : (s.acknowledge v).kind = s.kind := rfl
@[simp] theorem State.acknowledge_irqEn (s : State) (v : Word) : (s.acknowledge v).irqEn = s.irqEn := rfl
@[simp] theorem State.acknowledge_done (s : State) (v : Word) : (s.acknowledge v).done = (s.done && !v.getLsbD 1) := rfl
@[simp] theorem State.acknowledge_error (s : State) (v : Word) : (s.acknowledge v).error = (s.error && !v.getLsbD 2) := rfl
@[simp] theorem State.acknowledge_errCode (s : State) (v : Word) : (s.acknowledge v).errCode = (if v.getLsbD 2 then 0 else s.errCode) := rfl
@[simp] theorem State.acknowledge_width (s : State) (v : Word) : (s.acknowledge v).width = s.width := rfl
@[simp] theorem State.acknowledge_height (s : State) (v : Word) : (s.acknowledge v).height = s.height := rfl
@[simp] theorem State.acknowledge_srcBase (s : State) (v : Word) : (s.acknowledge v).srcBase = s.srcBase := rfl
@[simp] theorem State.acknowledge_srcLen (s : State) (v : Word) : (s.acknowledge v).srcLen = s.srcLen := rfl
@[simp] theorem State.acknowledge_dstBase (s : State) (v : Word) : (s.acknowledge v).dstBase = s.dstBase := rfl
@[simp] theorem State.acknowledge_dstCap (s : State) (v : Word) : (s.acknowledge v).dstCap = s.dstCap := rfl
@[simp] theorem State.acknowledge_srcPosReg (s : State) (v : Word) : (s.acknowledge v).srcPosReg = s.srcPosReg := rfl
@[simp] theorem State.acknowledge_dstPosReg (s : State) (v : Word) : (s.acknowledge v).dstPosReg = s.dstPosReg := rfl
@[simp] theorem State.acknowledge_errPos (s : State) (v : Word) : (s.acknowledge v).errPos = s.errPos := rfl
@[simp] theorem State.acknowledge_engine (s : State) (v : Word) : (s.acknowledge v).engine = s.engine := rfl
@[simp] theorem State.acknowledge_job (s : State) (v : Word) : (s.acknowledge v).job = s.job := rfl
@[simp] theorem State.acknowledge_mem (s : State) (v : Word) : (s.acknowledge v).mem = s.mem := rfl
@[simp] theorem State.acknowledge_turns (s : State) (v : Word) : (s.acknowledge v).turns = s.turns := rfl
@[simp] theorem State.acknowledge_rdata (s : State) (v : Word) : (s.acknowledge v).rdata = s.rdata := rfl
@[simp] theorem State.acknowledge_draws (s : State) (v : Word) : (s.acknowledge v).draws = s.draws := rfl
@[simp] theorem State.acknowledge_addressTop (s : State) (v : Word) : (s.acknowledge v).addressTop = s.addressTop := rfl
@[simp] theorem State.acknowledge_busy (s : State) (v : Word) : (s.acknowledge v).busy = s.busy := rfl

/-! ### A pixel appended to the pending literal -/

@[simp] theorem appendLiteral_params (s : State) : (appendLiteral s).params = s.params := rfl
@[simp] theorem appendLiteral_op (s : State) : (appendLiteral s).op = s.op := rfl
@[simp] theorem appendLiteral_kind (s : State) : (appendLiteral s).kind = s.kind := rfl
@[simp] theorem appendLiteral_irqEn (s : State) : (appendLiteral s).irqEn = s.irqEn := rfl
@[simp] theorem appendLiteral_done (s : State) : (appendLiteral s).done = s.done := rfl
@[simp] theorem appendLiteral_error (s : State) : (appendLiteral s).error = s.error := rfl
@[simp] theorem appendLiteral_errCode (s : State) : (appendLiteral s).errCode = s.errCode := rfl
@[simp] theorem appendLiteral_width (s : State) : (appendLiteral s).width = s.width := rfl
@[simp] theorem appendLiteral_height (s : State) : (appendLiteral s).height = s.height := rfl
@[simp] theorem appendLiteral_srcBase (s : State) : (appendLiteral s).srcBase = s.srcBase := rfl
@[simp] theorem appendLiteral_srcLen (s : State) : (appendLiteral s).srcLen = s.srcLen := rfl
@[simp] theorem appendLiteral_dstBase (s : State) : (appendLiteral s).dstBase = s.dstBase := rfl
@[simp] theorem appendLiteral_dstCap (s : State) : (appendLiteral s).dstCap = s.dstCap := rfl
@[simp] theorem appendLiteral_srcPosReg (s : State) : (appendLiteral s).srcPosReg = s.srcPosReg := rfl
@[simp] theorem appendLiteral_dstPosReg (s : State) : (appendLiteral s).dstPosReg = s.dstPosReg := rfl
@[simp] theorem appendLiteral_errPos (s : State) : (appendLiteral s).errPos = s.errPos := rfl
@[simp] theorem appendLiteral_engine (s : State) : (appendLiteral s).engine = s.engine := rfl
@[simp] theorem appendLiteral_job_op (s : State) : (appendLiteral s).job.op = s.job.op := rfl
@[simp] theorem appendLiteral_job_kind (s : State) : (appendLiteral s).job.kind = s.job.kind := rfl
@[simp] theorem appendLiteral_job_width (s : State) : (appendLiteral s).job.width = s.job.width := rfl
@[simp] theorem appendLiteral_job_height (s : State) : (appendLiteral s).job.height = s.job.height := rfl
@[simp] theorem appendLiteral_job_srcBase (s : State) : (appendLiteral s).job.srcBase = s.job.srcBase := rfl
@[simp] theorem appendLiteral_job_srcLen (s : State) : (appendLiteral s).job.srcLen = s.job.srcLen := rfl
@[simp] theorem appendLiteral_job_dstBase (s : State) : (appendLiteral s).job.dstBase = s.job.dstBase := rfl
@[simp] theorem appendLiteral_job_dstCap (s : State) : (appendLiteral s).job.dstCap = s.job.dstCap := rfl
@[simp] theorem appendLiteral_job_shiftDeltas (s : State) : (appendLiteral s).job.shiftDeltas = s.job.shiftDeltas := rfl
@[simp] theorem appendLiteral_job_srcPos (s : State) : (appendLiteral s).job.srcPos = s.job.srcPos := rfl
@[simp] theorem appendLiteral_job_dstPos (s : State) : (appendLiteral s).job.dstPos = s.job.dstPos := rfl
@[simp] theorem appendLiteral_job_remBytes (s : State) : (appendLiteral s).job.remBytes = s.job.remBytes := rfl
@[simp] theorem appendLiteral_job_cmdStart (s : State) : (appendLiteral s).job.cmdStart = s.job.cmdStart := rfl
@[simp] theorem appendLiteral_job_current (s : State) : (appendLiteral s).job.current = s.job.current + 1 := rfl
@[simp] theorem appendLiteral_job_litStart (s : State) : (appendLiteral s).job.litStart = (if s.job.litLen = 0 then s.job.current else s.job.litStart) := rfl
@[simp] theorem appendLiteral_job_litLen (s : State) : (appendLiteral s).job.litLen = s.job.litLen + 1 := rfl
@[simp] theorem appendLiteral_job_outPos (s : State) : (appendLiteral s).job.outPos = s.job.outPos := rfl
@[simp] theorem appendLiteral_job_bestLen (s : State) : (appendLiteral s).job.bestLen = s.job.bestLen := rfl
@[simp] theorem appendLiteral_job_bestIdx (s : State) : (appendLiteral s).job.bestIdx = s.job.bestIdx := rfl
@[simp] theorem appendLiteral_job_passed (s : State) : (appendLiteral s).job.passed = s.job.passed := rfl
@[simp] theorem appendLiteral_job_d (s : State) : (appendLiteral s).job.d = s.job.d := rfl
@[simp] theorem appendLiteral_job_totalPixels (s : State) : (appendLiteral s).job.totalPixels = s.job.totalPixels := rfl
@[simp] theorem appendLiteral_job_totalBytes (s : State) : (appendLiteral s).job.totalBytes = s.job.totalBytes := rfl
@[simp] theorem appendLiteral_job_srcAddr (s : State) (i : Nat) : (appendLiteral s).job.srcAddr i = s.job.srcAddr i := rfl
@[simp] theorem appendLiteral_job_dstAddr (s : State) (i : Nat) : (appendLiteral s).job.dstAddr i = s.job.dstAddr i := rfl
@[simp] theorem appendLiteral_mem (s : State) : (appendLiteral s).mem = s.mem := rfl
@[simp] theorem appendLiteral_turns (s : State) : (appendLiteral s).turns = s.turns := rfl
@[simp] theorem appendLiteral_rdata (s : State) : (appendLiteral s).rdata = s.rdata := rfl
@[simp] theorem appendLiteral_draws (s : State) : (appendLiteral s).draws = s.draws := rfl
@[simp] theorem appendLiteral_addressTop (s : State) : (appendLiteral s).addressTop = s.addressTop := rfl
@[simp] theorem appendLiteral_busy (s : State) : (appendLiteral s).busy = s.busy := rfl

/-! ### A boundary of the encoder -/

@[simp] theorem encoderBoundary_params (s : State) : (encoderBoundary s).params = s.params := rfl
@[simp] theorem encoderBoundary_op (s : State) : (encoderBoundary s).op = s.op := rfl
@[simp] theorem encoderBoundary_kind (s : State) : (encoderBoundary s).kind = s.kind := rfl
@[simp] theorem encoderBoundary_irqEn (s : State) : (encoderBoundary s).irqEn = s.irqEn := rfl
@[simp] theorem encoderBoundary_done (s : State) : (encoderBoundary s).done = s.done := rfl
@[simp] theorem encoderBoundary_error (s : State) : (encoderBoundary s).error = s.error := rfl
@[simp] theorem encoderBoundary_errCode (s : State) : (encoderBoundary s).errCode = s.errCode := rfl
@[simp] theorem encoderBoundary_width (s : State) : (encoderBoundary s).width = s.width := rfl
@[simp] theorem encoderBoundary_height (s : State) : (encoderBoundary s).height = s.height := rfl
@[simp] theorem encoderBoundary_srcBase (s : State) : (encoderBoundary s).srcBase = s.srcBase := rfl
@[simp] theorem encoderBoundary_srcLen (s : State) : (encoderBoundary s).srcLen = s.srcLen := rfl
@[simp] theorem encoderBoundary_dstBase (s : State) : (encoderBoundary s).dstBase = s.dstBase := rfl
@[simp] theorem encoderBoundary_dstCap (s : State) : (encoderBoundary s).dstCap = s.dstCap := rfl
@[simp] theorem encoderBoundary_srcPosReg (s : State) : (encoderBoundary s).srcPosReg = s.srcPosReg := rfl
@[simp] theorem encoderBoundary_dstPosReg (s : State) : (encoderBoundary s).dstPosReg = s.dstPosReg := rfl
@[simp] theorem encoderBoundary_errPos (s : State) : (encoderBoundary s).errPos = s.errPos := rfl
@[simp] theorem encoderBoundary_engine (s : State) : (encoderBoundary s).engine = s.engine := rfl
@[simp] theorem encoderBoundary_job_op (s : State) : (encoderBoundary s).job.op = s.job.op := rfl
@[simp] theorem encoderBoundary_job_kind (s : State) : (encoderBoundary s).job.kind = s.job.kind := rfl
@[simp] theorem encoderBoundary_job_width (s : State) : (encoderBoundary s).job.width = s.job.width := rfl
@[simp] theorem encoderBoundary_job_height (s : State) : (encoderBoundary s).job.height = s.job.height := rfl
@[simp] theorem encoderBoundary_job_srcBase (s : State) : (encoderBoundary s).job.srcBase = s.job.srcBase := rfl
@[simp] theorem encoderBoundary_job_srcLen (s : State) : (encoderBoundary s).job.srcLen = s.job.srcLen := rfl
@[simp] theorem encoderBoundary_job_dstBase (s : State) : (encoderBoundary s).job.dstBase = s.job.dstBase := rfl
@[simp] theorem encoderBoundary_job_dstCap (s : State) : (encoderBoundary s).job.dstCap = s.job.dstCap := rfl
@[simp] theorem encoderBoundary_job_shiftDeltas (s : State) : (encoderBoundary s).job.shiftDeltas = s.job.shiftDeltas := rfl
@[simp] theorem encoderBoundary_job_srcPos (s : State) : (encoderBoundary s).job.srcPos = s.job.srcPos := rfl
@[simp] theorem encoderBoundary_job_dstPos (s : State) : (encoderBoundary s).job.dstPos = s.job.dstPos := rfl
@[simp] theorem encoderBoundary_job_remBytes (s : State) : (encoderBoundary s).job.remBytes = s.job.remBytes := rfl
@[simp] theorem encoderBoundary_job_cmdStart (s : State) : (encoderBoundary s).job.cmdStart = s.job.cmdStart := rfl
@[simp] theorem encoderBoundary_job_current (s : State) : (encoderBoundary s).job.current = s.job.current := rfl
@[simp] theorem encoderBoundary_job_litStart (s : State) : (encoderBoundary s).job.litStart = s.job.litStart := rfl
@[simp] theorem encoderBoundary_job_litLen (s : State) : (encoderBoundary s).job.litLen = s.job.litLen := rfl
@[simp] theorem encoderBoundary_job_outPos (s : State) : (encoderBoundary s).job.outPos = s.job.outPos := rfl
@[simp] theorem encoderBoundary_job_bestLen (s : State) : (encoderBoundary s).job.bestLen = s.job.bestLen := rfl
@[simp] theorem encoderBoundary_job_bestIdx (s : State) : (encoderBoundary s).job.bestIdx = s.job.bestIdx := rfl
@[simp] theorem encoderBoundary_job_passed (s : State) : (encoderBoundary s).job.passed = (s.job.current * s.job.d, s.job.outPos) :: s.job.passed := rfl
@[simp] theorem encoderBoundary_job_d (s : State) : (encoderBoundary s).job.d = s.job.d := rfl
@[simp] theorem encoderBoundary_job_totalPixels (s : State) : (encoderBoundary s).job.totalPixels = s.job.totalPixels := rfl
@[simp] theorem encoderBoundary_job_totalBytes (s : State) : (encoderBoundary s).job.totalBytes = s.job.totalBytes := rfl
@[simp] theorem encoderBoundary_job_srcAddr (s : State) (i : Nat) : (encoderBoundary s).job.srcAddr i = s.job.srcAddr i := rfl
@[simp] theorem encoderBoundary_job_dstAddr (s : State) (i : Nat) : (encoderBoundary s).job.dstAddr i = s.job.dstAddr i := rfl
@[simp] theorem encoderBoundary_mem (s : State) : (encoderBoundary s).mem = s.mem := rfl
@[simp] theorem encoderBoundary_turns (s : State) : (encoderBoundary s).turns = s.turns := rfl
@[simp] theorem encoderBoundary_rdata (s : State) : (encoderBoundary s).rdata = s.rdata := rfl
@[simp] theorem encoderBoundary_draws (s : State) : (encoderBoundary s).draws = s.draws := rfl
@[simp] theorem encoderBoundary_addressTop (s : State) : (encoderBoundary s).addressTop = s.addressTop := rfl
@[simp] theorem encoderBoundary_busy (s : State) : (encoderBoundary s).busy = s.busy := rfl

/-! ### Reset -/

@[simp] theorem platformReset_params (s : State) : (platformReset s).params = s.params := rfl
@[simp] theorem platformReset_op (s : State) : (platformReset s).op = .decode := rfl
@[simp] theorem platformReset_kind (s : State) : (platformReset s).kind = .tc := rfl
@[simp] theorem platformReset_irqEn (s : State) : (platformReset s).irqEn = false := rfl
@[simp] theorem platformReset_done (s : State) : (platformReset s).done = false := rfl
@[simp] theorem platformReset_error (s : State) : (platformReset s).error = false := rfl
@[simp] theorem platformReset_errCode (s : State) : (platformReset s).errCode = 0 := rfl
@[simp] theorem platformReset_width (s : State) : (platformReset s).width = 0 := rfl
@[simp] theorem platformReset_height (s : State) : (platformReset s).height = 0 := rfl
@[simp] theorem platformReset_srcBase (s : State) : (platformReset s).srcBase = 0 := rfl
@[simp] theorem platformReset_srcLen (s : State) : (platformReset s).srcLen = 0 := rfl
@[simp] theorem platformReset_dstBase (s : State) : (platformReset s).dstBase = 0 := rfl
@[simp] theorem platformReset_dstCap (s : State) : (platformReset s).dstCap = 0 := rfl
@[simp] theorem platformReset_srcPosReg (s : State) : (platformReset s).srcPosReg = 0 := rfl
@[simp] theorem platformReset_dstPosReg (s : State) : (platformReset s).dstPosReg = 0 := rfl
@[simp] theorem platformReset_errPos (s : State) : (platformReset s).errPos = 0 := rfl
@[simp] theorem platformReset_engine (s : State) : (platformReset s).engine = .idle := rfl
@[simp] theorem platformReset_job (s : State) : (platformReset s).job = Job.blank := rfl
@[simp] theorem platformReset_mem (s : State) : (platformReset s).mem = s.mem := rfl
@[simp] theorem platformReset_turns (s : State) : (platformReset s).turns = s.turns := rfl
@[simp] theorem platformReset_rdata (s : State) : (platformReset s).rdata = s.rdata := rfl
@[simp] theorem platformReset_draws (s : State) : (platformReset s).draws = s.draws := rfl
@[simp] theorem platformReset_addressTop (s : State) : (platformReset s).addressTop = s.addressTop := rfl
@[simp] theorem platformReset_busy (s : State) : (platformReset s).busy = false := rfl

/-! ### A completed SEED -/

/-- What SEED leaves when it completes (41_decoder.md R172). -/
def seedDone (s : State) : State :=
  State.passBoundary
    { s with
      mem := s.mem.copyForward (s.job.srcAddr 0) (s.job.dstAddr 0) s.job.d
      engine := .loop
      job := { s.job with
        srcPos := s.job.d
        dstPos := s.job.d
        remBytes := s.job.totalBytes - s.job.d
        cmdStart := 0 } }
    s.job.d s.job.d

@[simp] theorem seedDone_params (s : State) : (seedDone s).params = s.params := rfl
@[simp] theorem seedDone_op (s : State) : (seedDone s).op = s.op := rfl
@[simp] theorem seedDone_kind (s : State) : (seedDone s).kind = s.kind := rfl
@[simp] theorem seedDone_irqEn (s : State) : (seedDone s).irqEn = s.irqEn := rfl
@[simp] theorem seedDone_done (s : State) : (seedDone s).done = s.done := rfl
@[simp] theorem seedDone_error (s : State) : (seedDone s).error = s.error := rfl
@[simp] theorem seedDone_errCode (s : State) : (seedDone s).errCode = s.errCode := rfl
@[simp] theorem seedDone_width (s : State) : (seedDone s).width = s.width := rfl
@[simp] theorem seedDone_height (s : State) : (seedDone s).height = s.height := rfl
@[simp] theorem seedDone_srcBase (s : State) : (seedDone s).srcBase = s.srcBase := rfl
@[simp] theorem seedDone_srcLen (s : State) : (seedDone s).srcLen = s.srcLen := rfl
@[simp] theorem seedDone_dstBase (s : State) : (seedDone s).dstBase = s.dstBase := rfl
@[simp] theorem seedDone_dstCap (s : State) : (seedDone s).dstCap = s.dstCap := rfl
@[simp] theorem seedDone_srcPosReg (s : State) : (seedDone s).srcPosReg = s.srcPosReg := rfl
@[simp] theorem seedDone_dstPosReg (s : State) : (seedDone s).dstPosReg = s.dstPosReg := rfl
@[simp] theorem seedDone_errPos (s : State) : (seedDone s).errPos = s.errPos := rfl
@[simp] theorem seedDone_engine (s : State) : (seedDone s).engine = .loop := rfl
@[simp] theorem seedDone_job_op (s : State) : (seedDone s).job.op = s.job.op := rfl
@[simp] theorem seedDone_job_kind (s : State) : (seedDone s).job.kind = s.job.kind := rfl
@[simp] theorem seedDone_job_width (s : State) : (seedDone s).job.width = s.job.width := rfl
@[simp] theorem seedDone_job_height (s : State) : (seedDone s).job.height = s.job.height := rfl
@[simp] theorem seedDone_job_srcBase (s : State) : (seedDone s).job.srcBase = s.job.srcBase := rfl
@[simp] theorem seedDone_job_srcLen (s : State) : (seedDone s).job.srcLen = s.job.srcLen := rfl
@[simp] theorem seedDone_job_dstBase (s : State) : (seedDone s).job.dstBase = s.job.dstBase := rfl
@[simp] theorem seedDone_job_dstCap (s : State) : (seedDone s).job.dstCap = s.job.dstCap := rfl
@[simp] theorem seedDone_job_shiftDeltas (s : State) : (seedDone s).job.shiftDeltas = s.job.shiftDeltas := rfl
@[simp] theorem seedDone_job_srcPos (s : State) : (seedDone s).job.srcPos = s.job.d := rfl
@[simp] theorem seedDone_job_dstPos (s : State) : (seedDone s).job.dstPos = s.job.d := rfl
@[simp] theorem seedDone_job_remBytes (s : State) : (seedDone s).job.remBytes = s.job.totalBytes - s.job.d := rfl
@[simp] theorem seedDone_job_cmdStart (s : State) : (seedDone s).job.cmdStart = 0 := rfl
@[simp] theorem seedDone_job_current (s : State) : (seedDone s).job.current = s.job.current := rfl
@[simp] theorem seedDone_job_litStart (s : State) : (seedDone s).job.litStart = s.job.litStart := rfl
@[simp] theorem seedDone_job_litLen (s : State) : (seedDone s).job.litLen = s.job.litLen := rfl
@[simp] theorem seedDone_job_outPos (s : State) : (seedDone s).job.outPos = s.job.outPos := rfl
@[simp] theorem seedDone_job_bestLen (s : State) : (seedDone s).job.bestLen = s.job.bestLen := rfl
@[simp] theorem seedDone_job_bestIdx (s : State) : (seedDone s).job.bestIdx = s.job.bestIdx := rfl
@[simp] theorem seedDone_job_passed (s : State) : (seedDone s).job.passed = (s.job.d, s.job.d) :: s.job.passed := rfl
@[simp] theorem seedDone_job_d (s : State) : (seedDone s).job.d = s.job.d := rfl
@[simp] theorem seedDone_job_totalPixels (s : State) : (seedDone s).job.totalPixels = s.job.totalPixels := rfl
@[simp] theorem seedDone_job_totalBytes (s : State) : (seedDone s).job.totalBytes = s.job.totalBytes := rfl
@[simp] theorem seedDone_job_srcAddr (s : State) (i : Nat) : (seedDone s).job.srcAddr i = s.job.srcAddr i := rfl
@[simp] theorem seedDone_job_dstAddr (s : State) (i : Nat) : (seedDone s).job.dstAddr i = s.job.dstAddr i := rfl
@[simp] theorem seedDone_mem (s : State) : (seedDone s).mem = s.mem.copyForward (s.job.srcAddr 0) (s.job.dstAddr 0) s.job.d := rfl
@[simp] theorem seedDone_turns (s : State) : (seedDone s).turns = s.turns := rfl
@[simp] theorem seedDone_rdata (s : State) : (seedDone s).rdata = s.rdata := rfl
@[simp] theorem seedDone_draws (s : State) : (seedDone s).draws = s.draws := rfl
@[simp] theorem seedDone_addressTop (s : State) : (seedDone s).addressTop = s.addressTop := rfl

/-! ### An emission unit -/

/-- The state after an emission unit is written (42_encoder.md R211). -/
def unitDone (bytes : List Byte) (s : State) : State :=
  { s with
    mem := s.mem.writeList (s.job.dstAddr s.job.outPos) bytes
    job := { s.job with outPos := s.job.outPos + bytes.length } }

@[simp] theorem unitDone_params (s : State) (bytes : List Byte) : (unitDone bytes s).params = s.params := rfl
@[simp] theorem unitDone_op (s : State) (bytes : List Byte) : (unitDone bytes s).op = s.op := rfl
@[simp] theorem unitDone_kind (s : State) (bytes : List Byte) : (unitDone bytes s).kind = s.kind := rfl
@[simp] theorem unitDone_irqEn (s : State) (bytes : List Byte) : (unitDone bytes s).irqEn = s.irqEn := rfl
@[simp] theorem unitDone_done (s : State) (bytes : List Byte) : (unitDone bytes s).done = s.done := rfl
@[simp] theorem unitDone_error (s : State) (bytes : List Byte) : (unitDone bytes s).error = s.error := rfl
@[simp] theorem unitDone_errCode (s : State) (bytes : List Byte) : (unitDone bytes s).errCode = s.errCode := rfl
@[simp] theorem unitDone_width (s : State) (bytes : List Byte) : (unitDone bytes s).width = s.width := rfl
@[simp] theorem unitDone_height (s : State) (bytes : List Byte) : (unitDone bytes s).height = s.height := rfl
@[simp] theorem unitDone_srcBase (s : State) (bytes : List Byte) : (unitDone bytes s).srcBase = s.srcBase := rfl
@[simp] theorem unitDone_srcLen (s : State) (bytes : List Byte) : (unitDone bytes s).srcLen = s.srcLen := rfl
@[simp] theorem unitDone_dstBase (s : State) (bytes : List Byte) : (unitDone bytes s).dstBase = s.dstBase := rfl
@[simp] theorem unitDone_dstCap (s : State) (bytes : List Byte) : (unitDone bytes s).dstCap = s.dstCap := rfl
@[simp] theorem unitDone_srcPosReg (s : State) (bytes : List Byte) : (unitDone bytes s).srcPosReg = s.srcPosReg := rfl
@[simp] theorem unitDone_dstPosReg (s : State) (bytes : List Byte) : (unitDone bytes s).dstPosReg = s.dstPosReg := rfl
@[simp] theorem unitDone_errPos (s : State) (bytes : List Byte) : (unitDone bytes s).errPos = s.errPos := rfl
@[simp] theorem unitDone_engine (s : State) (bytes : List Byte) : (unitDone bytes s).engine = s.engine := rfl
@[simp] theorem unitDone_job_op (s : State) (bytes : List Byte) : (unitDone bytes s).job.op = s.job.op := rfl
@[simp] theorem unitDone_job_kind (s : State) (bytes : List Byte) : (unitDone bytes s).job.kind = s.job.kind := rfl
@[simp] theorem unitDone_job_width (s : State) (bytes : List Byte) : (unitDone bytes s).job.width = s.job.width := rfl
@[simp] theorem unitDone_job_height (s : State) (bytes : List Byte) : (unitDone bytes s).job.height = s.job.height := rfl
@[simp] theorem unitDone_job_srcBase (s : State) (bytes : List Byte) : (unitDone bytes s).job.srcBase = s.job.srcBase := rfl
@[simp] theorem unitDone_job_srcLen (s : State) (bytes : List Byte) : (unitDone bytes s).job.srcLen = s.job.srcLen := rfl
@[simp] theorem unitDone_job_dstBase (s : State) (bytes : List Byte) : (unitDone bytes s).job.dstBase = s.job.dstBase := rfl
@[simp] theorem unitDone_job_dstCap (s : State) (bytes : List Byte) : (unitDone bytes s).job.dstCap = s.job.dstCap := rfl
@[simp] theorem unitDone_job_shiftDeltas (s : State) (bytes : List Byte) : (unitDone bytes s).job.shiftDeltas = s.job.shiftDeltas := rfl
@[simp] theorem unitDone_job_srcPos (s : State) (bytes : List Byte) : (unitDone bytes s).job.srcPos = s.job.srcPos := rfl
@[simp] theorem unitDone_job_dstPos (s : State) (bytes : List Byte) : (unitDone bytes s).job.dstPos = s.job.dstPos := rfl
@[simp] theorem unitDone_job_remBytes (s : State) (bytes : List Byte) : (unitDone bytes s).job.remBytes = s.job.remBytes := rfl
@[simp] theorem unitDone_job_cmdStart (s : State) (bytes : List Byte) : (unitDone bytes s).job.cmdStart = s.job.cmdStart := rfl
@[simp] theorem unitDone_job_current (s : State) (bytes : List Byte) : (unitDone bytes s).job.current = s.job.current := rfl
@[simp] theorem unitDone_job_litStart (s : State) (bytes : List Byte) : (unitDone bytes s).job.litStart = s.job.litStart := rfl
@[simp] theorem unitDone_job_litLen (s : State) (bytes : List Byte) : (unitDone bytes s).job.litLen = s.job.litLen := rfl
@[simp] theorem unitDone_job_outPos (s : State) (bytes : List Byte) : (unitDone bytes s).job.outPos = s.job.outPos + bytes.length := rfl
@[simp] theorem unitDone_job_bestLen (s : State) (bytes : List Byte) : (unitDone bytes s).job.bestLen = s.job.bestLen := rfl
@[simp] theorem unitDone_job_bestIdx (s : State) (bytes : List Byte) : (unitDone bytes s).job.bestIdx = s.job.bestIdx := rfl
@[simp] theorem unitDone_job_passed (s : State) (bytes : List Byte) : (unitDone bytes s).job.passed = s.job.passed := rfl
@[simp] theorem unitDone_job_d (s : State) (bytes : List Byte) : (unitDone bytes s).job.d = s.job.d := rfl
@[simp] theorem unitDone_job_totalPixels (s : State) (bytes : List Byte) : (unitDone bytes s).job.totalPixels = s.job.totalPixels := rfl
@[simp] theorem unitDone_job_totalBytes (s : State) (bytes : List Byte) : (unitDone bytes s).job.totalBytes = s.job.totalBytes := rfl
@[simp] theorem unitDone_job_srcAddr (s : State) (bytes : List Byte) (i : Nat) : (unitDone bytes s).job.srcAddr i = s.job.srcAddr i := rfl
@[simp] theorem unitDone_job_dstAddr (s : State) (bytes : List Byte) (i : Nat) : (unitDone bytes s).job.dstAddr i = s.job.dstAddr i := rfl
@[simp] theorem unitDone_mem (s : State) (bytes : List Byte) : (unitDone bytes s).mem = s.mem.writeList (s.job.dstAddr s.job.outPos) bytes := rfl
@[simp] theorem unitDone_turns (s : State) (bytes : List Byte) : (unitDone bytes s).turns = s.turns := rfl
@[simp] theorem unitDone_rdata (s : State) (bytes : List Byte) : (unitDone bytes s).rdata = s.rdata := rfl
@[simp] theorem unitDone_draws (s : State) (bytes : List Byte) : (unitDone bytes s).draws = s.draws := rfl
@[simp] theorem unitDone_addressTop (s : State) (bytes : List Byte) : (unitDone bytes s).addressTop = s.addressTop := rfl
@[simp] theorem unitDone_busy (s : State) (bytes : List Byte) : (unitDone bytes s).busy = s.busy := rfl

/-! ### A flushed literal -/

/-- The state after the pending literal is written (42_encoder.md R230). -/
def flushDone (s : State) : State :=
  { unitDone (literalUnit s) s with job := { (unitDone (literalUnit s) s).job with litLen := 0 } }

@[simp] theorem flushDone_params (s : State) : (flushDone s).params = s.params := rfl
@[simp] theorem flushDone_op (s : State) : (flushDone s).op = s.op := rfl
@[simp] theorem flushDone_kind (s : State) : (flushDone s).kind = s.kind := rfl
@[simp] theorem flushDone_irqEn (s : State) : (flushDone s).irqEn = s.irqEn := rfl
@[simp] theorem flushDone_done (s : State) : (flushDone s).done = s.done := rfl
@[simp] theorem flushDone_error (s : State) : (flushDone s).error = s.error := rfl
@[simp] theorem flushDone_errCode (s : State) : (flushDone s).errCode = s.errCode := rfl
@[simp] theorem flushDone_width (s : State) : (flushDone s).width = s.width := rfl
@[simp] theorem flushDone_height (s : State) : (flushDone s).height = s.height := rfl
@[simp] theorem flushDone_srcBase (s : State) : (flushDone s).srcBase = s.srcBase := rfl
@[simp] theorem flushDone_srcLen (s : State) : (flushDone s).srcLen = s.srcLen := rfl
@[simp] theorem flushDone_dstBase (s : State) : (flushDone s).dstBase = s.dstBase := rfl
@[simp] theorem flushDone_dstCap (s : State) : (flushDone s).dstCap = s.dstCap := rfl
@[simp] theorem flushDone_srcPosReg (s : State) : (flushDone s).srcPosReg = s.srcPosReg := rfl
@[simp] theorem flushDone_dstPosReg (s : State) : (flushDone s).dstPosReg = s.dstPosReg := rfl
@[simp] theorem flushDone_errPos (s : State) : (flushDone s).errPos = s.errPos := rfl
@[simp] theorem flushDone_engine (s : State) : (flushDone s).engine = s.engine := rfl
@[simp] theorem flushDone_job_op (s : State) : (flushDone s).job.op = s.job.op := rfl
@[simp] theorem flushDone_job_kind (s : State) : (flushDone s).job.kind = s.job.kind := rfl
@[simp] theorem flushDone_job_width (s : State) : (flushDone s).job.width = s.job.width := rfl
@[simp] theorem flushDone_job_height (s : State) : (flushDone s).job.height = s.job.height := rfl
@[simp] theorem flushDone_job_srcBase (s : State) : (flushDone s).job.srcBase = s.job.srcBase := rfl
@[simp] theorem flushDone_job_srcLen (s : State) : (flushDone s).job.srcLen = s.job.srcLen := rfl
@[simp] theorem flushDone_job_dstBase (s : State) : (flushDone s).job.dstBase = s.job.dstBase := rfl
@[simp] theorem flushDone_job_dstCap (s : State) : (flushDone s).job.dstCap = s.job.dstCap := rfl
@[simp] theorem flushDone_job_shiftDeltas (s : State) : (flushDone s).job.shiftDeltas = s.job.shiftDeltas := rfl
@[simp] theorem flushDone_job_srcPos (s : State) : (flushDone s).job.srcPos = s.job.srcPos := rfl
@[simp] theorem flushDone_job_dstPos (s : State) : (flushDone s).job.dstPos = s.job.dstPos := rfl
@[simp] theorem flushDone_job_remBytes (s : State) : (flushDone s).job.remBytes = s.job.remBytes := rfl
@[simp] theorem flushDone_job_cmdStart (s : State) : (flushDone s).job.cmdStart = s.job.cmdStart := rfl
@[simp] theorem flushDone_job_current (s : State) : (flushDone s).job.current = s.job.current := rfl
@[simp] theorem flushDone_job_litStart (s : State) : (flushDone s).job.litStart = s.job.litStart := rfl
@[simp] theorem flushDone_job_litLen (s : State) : (flushDone s).job.litLen = 0 := rfl
@[simp] theorem flushDone_job_outPos (s : State) : (flushDone s).job.outPos = s.job.outPos + (literalUnit s).length := rfl
@[simp] theorem flushDone_job_bestLen (s : State) : (flushDone s).job.bestLen = s.job.bestLen := rfl
@[simp] theorem flushDone_job_bestIdx (s : State) : (flushDone s).job.bestIdx = s.job.bestIdx := rfl
@[simp] theorem flushDone_job_passed (s : State) : (flushDone s).job.passed = s.job.passed := rfl
@[simp] theorem flushDone_job_d (s : State) : (flushDone s).job.d = s.job.d := rfl
@[simp] theorem flushDone_job_totalPixels (s : State) : (flushDone s).job.totalPixels = s.job.totalPixels := rfl
@[simp] theorem flushDone_job_totalBytes (s : State) : (flushDone s).job.totalBytes = s.job.totalBytes := rfl
@[simp] theorem flushDone_job_srcAddr (s : State) (i : Nat) : (flushDone s).job.srcAddr i = s.job.srcAddr i := rfl
@[simp] theorem flushDone_job_dstAddr (s : State) (i : Nat) : (flushDone s).job.dstAddr i = s.job.dstAddr i := rfl
@[simp] theorem flushDone_mem (s : State) : (flushDone s).mem = s.mem.writeList (s.job.dstAddr s.job.outPos) (literalUnit s) := rfl
@[simp] theorem flushDone_turns (s : State) : (flushDone s).turns = s.turns := rfl
@[simp] theorem flushDone_rdata (s : State) : (flushDone s).rdata = s.rdata := rfl
@[simp] theorem flushDone_draws (s : State) : (flushDone s).draws = s.draws := rfl
@[simp] theorem flushDone_addressTop (s : State) : (flushDone s).addressTop = s.addressTop := rfl
@[simp] theorem flushDone_busy (s : State) : (flushDone s).busy = s.busy := rfl

/-! ### The setup of an encode job -/

/-- The setup of an encode job (42_encoder.md R212). -/
def encodeSetup (s : State) : State :=
  { s with job := { s.job with outPos := 0, litLen := 0, litStart := 1, current := 1 } }

@[simp] theorem encodeSetup_params (s : State) : (encodeSetup s).params = s.params := rfl
@[simp] theorem encodeSetup_op (s : State) : (encodeSetup s).op = s.op := rfl
@[simp] theorem encodeSetup_kind (s : State) : (encodeSetup s).kind = s.kind := rfl
@[simp] theorem encodeSetup_irqEn (s : State) : (encodeSetup s).irqEn = s.irqEn := rfl
@[simp] theorem encodeSetup_done (s : State) : (encodeSetup s).done = s.done := rfl
@[simp] theorem encodeSetup_error (s : State) : (encodeSetup s).error = s.error := rfl
@[simp] theorem encodeSetup_errCode (s : State) : (encodeSetup s).errCode = s.errCode := rfl
@[simp] theorem encodeSetup_width (s : State) : (encodeSetup s).width = s.width := rfl
@[simp] theorem encodeSetup_height (s : State) : (encodeSetup s).height = s.height := rfl
@[simp] theorem encodeSetup_srcBase (s : State) : (encodeSetup s).srcBase = s.srcBase := rfl
@[simp] theorem encodeSetup_srcLen (s : State) : (encodeSetup s).srcLen = s.srcLen := rfl
@[simp] theorem encodeSetup_dstBase (s : State) : (encodeSetup s).dstBase = s.dstBase := rfl
@[simp] theorem encodeSetup_dstCap (s : State) : (encodeSetup s).dstCap = s.dstCap := rfl
@[simp] theorem encodeSetup_srcPosReg (s : State) : (encodeSetup s).srcPosReg = s.srcPosReg := rfl
@[simp] theorem encodeSetup_dstPosReg (s : State) : (encodeSetup s).dstPosReg = s.dstPosReg := rfl
@[simp] theorem encodeSetup_errPos (s : State) : (encodeSetup s).errPos = s.errPos := rfl
@[simp] theorem encodeSetup_engine (s : State) : (encodeSetup s).engine = s.engine := rfl
@[simp] theorem encodeSetup_job_op (s : State) : (encodeSetup s).job.op = s.job.op := rfl
@[simp] theorem encodeSetup_job_kind (s : State) : (encodeSetup s).job.kind = s.job.kind := rfl
@[simp] theorem encodeSetup_job_width (s : State) : (encodeSetup s).job.width = s.job.width := rfl
@[simp] theorem encodeSetup_job_height (s : State) : (encodeSetup s).job.height = s.job.height := rfl
@[simp] theorem encodeSetup_job_srcBase (s : State) : (encodeSetup s).job.srcBase = s.job.srcBase := rfl
@[simp] theorem encodeSetup_job_srcLen (s : State) : (encodeSetup s).job.srcLen = s.job.srcLen := rfl
@[simp] theorem encodeSetup_job_dstBase (s : State) : (encodeSetup s).job.dstBase = s.job.dstBase := rfl
@[simp] theorem encodeSetup_job_dstCap (s : State) : (encodeSetup s).job.dstCap = s.job.dstCap := rfl
@[simp] theorem encodeSetup_job_shiftDeltas (s : State) : (encodeSetup s).job.shiftDeltas = s.job.shiftDeltas := rfl
@[simp] theorem encodeSetup_job_srcPos (s : State) : (encodeSetup s).job.srcPos = s.job.srcPos := rfl
@[simp] theorem encodeSetup_job_dstPos (s : State) : (encodeSetup s).job.dstPos = s.job.dstPos := rfl
@[simp] theorem encodeSetup_job_remBytes (s : State) : (encodeSetup s).job.remBytes = s.job.remBytes := rfl
@[simp] theorem encodeSetup_job_cmdStart (s : State) : (encodeSetup s).job.cmdStart = s.job.cmdStart := rfl
@[simp] theorem encodeSetup_job_current (s : State) : (encodeSetup s).job.current = 1 := rfl
@[simp] theorem encodeSetup_job_litStart (s : State) : (encodeSetup s).job.litStart = 1 := rfl
@[simp] theorem encodeSetup_job_litLen (s : State) : (encodeSetup s).job.litLen = 0 := rfl
@[simp] theorem encodeSetup_job_outPos (s : State) : (encodeSetup s).job.outPos = 0 := rfl
@[simp] theorem encodeSetup_job_bestLen (s : State) : (encodeSetup s).job.bestLen = s.job.bestLen := rfl
@[simp] theorem encodeSetup_job_bestIdx (s : State) : (encodeSetup s).job.bestIdx = s.job.bestIdx := rfl
@[simp] theorem encodeSetup_job_passed (s : State) : (encodeSetup s).job.passed = s.job.passed := rfl
@[simp] theorem encodeSetup_job_d (s : State) : (encodeSetup s).job.d = s.job.d := rfl
@[simp] theorem encodeSetup_job_totalPixels (s : State) : (encodeSetup s).job.totalPixels = s.job.totalPixels := rfl
@[simp] theorem encodeSetup_job_totalBytes (s : State) : (encodeSetup s).job.totalBytes = s.job.totalBytes := rfl
@[simp] theorem encodeSetup_job_srcAddr (s : State) (i : Nat) : (encodeSetup s).job.srcAddr i = s.job.srcAddr i := rfl
@[simp] theorem encodeSetup_job_dstAddr (s : State) (i : Nat) : (encodeSetup s).job.dstAddr i = s.job.dstAddr i := rfl
@[simp] theorem encodeSetup_mem (s : State) : (encodeSetup s).mem = s.mem := rfl
@[simp] theorem encodeSetup_turns (s : State) : (encodeSetup s).turns = s.turns := rfl
@[simp] theorem encodeSetup_rdata (s : State) : (encodeSetup s).rdata = s.rdata := rfl
@[simp] theorem encodeSetup_draws (s : State) : (encodeSetup s).draws = s.draws := rfl
@[simp] theorem encodeSetup_addressTop (s : State) : (encodeSetup s).addressTop = s.addressTop := rfl
@[simp] theorem encodeSetup_busy (s : State) : (encodeSetup s).busy = s.busy := rfl

/-! ### The noted match of a pass -/

/-- The state in which a pass has noted its best match (42_encoder.md R213; 10_state.md R50). -/
def noteMatch (s : State) : State :=
  { s with job := { s.job with bestLen := (matchSearch s).1, bestIdx := (matchSearch s).2 } }

@[simp] theorem noteMatch_params (s : State) : (noteMatch s).params = s.params := rfl
@[simp] theorem noteMatch_op (s : State) : (noteMatch s).op = s.op := rfl
@[simp] theorem noteMatch_kind (s : State) : (noteMatch s).kind = s.kind := rfl
@[simp] theorem noteMatch_irqEn (s : State) : (noteMatch s).irqEn = s.irqEn := rfl
@[simp] theorem noteMatch_done (s : State) : (noteMatch s).done = s.done := rfl
@[simp] theorem noteMatch_error (s : State) : (noteMatch s).error = s.error := rfl
@[simp] theorem noteMatch_errCode (s : State) : (noteMatch s).errCode = s.errCode := rfl
@[simp] theorem noteMatch_width (s : State) : (noteMatch s).width = s.width := rfl
@[simp] theorem noteMatch_height (s : State) : (noteMatch s).height = s.height := rfl
@[simp] theorem noteMatch_srcBase (s : State) : (noteMatch s).srcBase = s.srcBase := rfl
@[simp] theorem noteMatch_srcLen (s : State) : (noteMatch s).srcLen = s.srcLen := rfl
@[simp] theorem noteMatch_dstBase (s : State) : (noteMatch s).dstBase = s.dstBase := rfl
@[simp] theorem noteMatch_dstCap (s : State) : (noteMatch s).dstCap = s.dstCap := rfl
@[simp] theorem noteMatch_srcPosReg (s : State) : (noteMatch s).srcPosReg = s.srcPosReg := rfl
@[simp] theorem noteMatch_dstPosReg (s : State) : (noteMatch s).dstPosReg = s.dstPosReg := rfl
@[simp] theorem noteMatch_errPos (s : State) : (noteMatch s).errPos = s.errPos := rfl
@[simp] theorem noteMatch_engine (s : State) : (noteMatch s).engine = s.engine := rfl
@[simp] theorem noteMatch_job_op (s : State) : (noteMatch s).job.op = s.job.op := rfl
@[simp] theorem noteMatch_job_kind (s : State) : (noteMatch s).job.kind = s.job.kind := rfl
@[simp] theorem noteMatch_job_width (s : State) : (noteMatch s).job.width = s.job.width := rfl
@[simp] theorem noteMatch_job_height (s : State) : (noteMatch s).job.height = s.job.height := rfl
@[simp] theorem noteMatch_job_srcBase (s : State) : (noteMatch s).job.srcBase = s.job.srcBase := rfl
@[simp] theorem noteMatch_job_srcLen (s : State) : (noteMatch s).job.srcLen = s.job.srcLen := rfl
@[simp] theorem noteMatch_job_dstBase (s : State) : (noteMatch s).job.dstBase = s.job.dstBase := rfl
@[simp] theorem noteMatch_job_dstCap (s : State) : (noteMatch s).job.dstCap = s.job.dstCap := rfl
@[simp] theorem noteMatch_job_shiftDeltas (s : State) : (noteMatch s).job.shiftDeltas = s.job.shiftDeltas := rfl
@[simp] theorem noteMatch_job_srcPos (s : State) : (noteMatch s).job.srcPos = s.job.srcPos := rfl
@[simp] theorem noteMatch_job_dstPos (s : State) : (noteMatch s).job.dstPos = s.job.dstPos := rfl
@[simp] theorem noteMatch_job_remBytes (s : State) : (noteMatch s).job.remBytes = s.job.remBytes := rfl
@[simp] theorem noteMatch_job_cmdStart (s : State) : (noteMatch s).job.cmdStart = s.job.cmdStart := rfl
@[simp] theorem noteMatch_job_current (s : State) : (noteMatch s).job.current = s.job.current := rfl
@[simp] theorem noteMatch_job_litStart (s : State) : (noteMatch s).job.litStart = s.job.litStart := rfl
@[simp] theorem noteMatch_job_litLen (s : State) : (noteMatch s).job.litLen = s.job.litLen := rfl
@[simp] theorem noteMatch_job_outPos (s : State) : (noteMatch s).job.outPos = s.job.outPos := rfl
@[simp] theorem noteMatch_job_bestLen (s : State) : (noteMatch s).job.bestLen = (matchSearch s).1 := rfl
@[simp] theorem noteMatch_job_bestIdx (s : State) : (noteMatch s).job.bestIdx = (matchSearch s).2 := rfl
@[simp] theorem noteMatch_job_passed (s : State) : (noteMatch s).job.passed = s.job.passed := rfl
@[simp] theorem noteMatch_job_d (s : State) : (noteMatch s).job.d = s.job.d := rfl
@[simp] theorem noteMatch_job_totalPixels (s : State) : (noteMatch s).job.totalPixels = s.job.totalPixels := rfl
@[simp] theorem noteMatch_job_totalBytes (s : State) : (noteMatch s).job.totalBytes = s.job.totalBytes := rfl
@[simp] theorem noteMatch_job_srcAddr (s : State) (i : Nat) : (noteMatch s).job.srcAddr i = s.job.srcAddr i := rfl
@[simp] theorem noteMatch_job_dstAddr (s : State) (i : Nat) : (noteMatch s).job.dstAddr i = s.job.dstAddr i := rfl
@[simp] theorem noteMatch_mem (s : State) : (noteMatch s).mem = s.mem := rfl
@[simp] theorem noteMatch_turns (s : State) : (noteMatch s).turns = s.turns := rfl
@[simp] theorem noteMatch_rdata (s : State) : (noteMatch s).rdata = s.rdata := rfl
@[simp] theorem noteMatch_draws (s : State) : (noteMatch s).draws = s.draws := rfl
@[simp] theorem noteMatch_addressTop (s : State) : (noteMatch s).addressTop = s.addressTop := rfl
@[simp] theorem noteMatch_busy (s : State) : (noteMatch s).busy = s.busy := rfl

/-! ### The completed seed of an encode job -/

/-- What the seed of an encode job leaves when it completes (42_encoder.md R212). -/
def encodeSeedDone (s : State) : State :=
  encoderBoundary
    { unitDone (s.mem.readList (s.job.srcAddr 0) s.job.d) (encodeSetup s) with engine := .loop }

@[simp] theorem encodeSeedDone_params (s : State) : (encodeSeedDone s).params = s.params := rfl
@[simp] theorem encodeSeedDone_op (s : State) : (encodeSeedDone s).op = s.op := rfl
@[simp] theorem encodeSeedDone_kind (s : State) : (encodeSeedDone s).kind = s.kind := rfl
@[simp] theorem encodeSeedDone_irqEn (s : State) : (encodeSeedDone s).irqEn = s.irqEn := rfl
@[simp] theorem encodeSeedDone_done (s : State) : (encodeSeedDone s).done = s.done := rfl
@[simp] theorem encodeSeedDone_error (s : State) : (encodeSeedDone s).error = s.error := rfl
@[simp] theorem encodeSeedDone_errCode (s : State) : (encodeSeedDone s).errCode = s.errCode := rfl
@[simp] theorem encodeSeedDone_width (s : State) : (encodeSeedDone s).width = s.width := rfl
@[simp] theorem encodeSeedDone_height (s : State) : (encodeSeedDone s).height = s.height := rfl
@[simp] theorem encodeSeedDone_srcBase (s : State) : (encodeSeedDone s).srcBase = s.srcBase := rfl
@[simp] theorem encodeSeedDone_srcLen (s : State) : (encodeSeedDone s).srcLen = s.srcLen := rfl
@[simp] theorem encodeSeedDone_dstBase (s : State) : (encodeSeedDone s).dstBase = s.dstBase := rfl
@[simp] theorem encodeSeedDone_dstCap (s : State) : (encodeSeedDone s).dstCap = s.dstCap := rfl
@[simp] theorem encodeSeedDone_srcPosReg (s : State) : (encodeSeedDone s).srcPosReg = s.srcPosReg := rfl
@[simp] theorem encodeSeedDone_dstPosReg (s : State) : (encodeSeedDone s).dstPosReg = s.dstPosReg := rfl
@[simp] theorem encodeSeedDone_errPos (s : State) : (encodeSeedDone s).errPos = s.errPos := rfl
@[simp] theorem encodeSeedDone_engine (s : State) : (encodeSeedDone s).engine = .loop := rfl
@[simp] theorem encodeSeedDone_job_op (s : State) : (encodeSeedDone s).job.op = s.job.op := rfl
@[simp] theorem encodeSeedDone_job_kind (s : State) : (encodeSeedDone s).job.kind = s.job.kind := rfl
@[simp] theorem encodeSeedDone_job_width (s : State) : (encodeSeedDone s).job.width = s.job.width := rfl
@[simp] theorem encodeSeedDone_job_height (s : State) : (encodeSeedDone s).job.height = s.job.height := rfl
@[simp] theorem encodeSeedDone_job_srcBase (s : State) : (encodeSeedDone s).job.srcBase = s.job.srcBase := rfl
@[simp] theorem encodeSeedDone_job_srcLen (s : State) : (encodeSeedDone s).job.srcLen = s.job.srcLen := rfl
@[simp] theorem encodeSeedDone_job_dstBase (s : State) : (encodeSeedDone s).job.dstBase = s.job.dstBase := rfl
@[simp] theorem encodeSeedDone_job_dstCap (s : State) : (encodeSeedDone s).job.dstCap = s.job.dstCap := rfl
@[simp] theorem encodeSeedDone_job_shiftDeltas (s : State) : (encodeSeedDone s).job.shiftDeltas = s.job.shiftDeltas := rfl
@[simp] theorem encodeSeedDone_job_srcPos (s : State) : (encodeSeedDone s).job.srcPos = s.job.srcPos := rfl
@[simp] theorem encodeSeedDone_job_dstPos (s : State) : (encodeSeedDone s).job.dstPos = s.job.dstPos := rfl
@[simp] theorem encodeSeedDone_job_remBytes (s : State) : (encodeSeedDone s).job.remBytes = s.job.remBytes := rfl
@[simp] theorem encodeSeedDone_job_cmdStart (s : State) : (encodeSeedDone s).job.cmdStart = s.job.cmdStart := rfl
@[simp] theorem encodeSeedDone_job_current (s : State) : (encodeSeedDone s).job.current = 1 := rfl
@[simp] theorem encodeSeedDone_job_litStart (s : State) : (encodeSeedDone s).job.litStart = 1 := rfl
@[simp] theorem encodeSeedDone_job_litLen (s : State) : (encodeSeedDone s).job.litLen = 0 := rfl
@[simp] theorem encodeSeedDone_job_outPos (s : State) : (encodeSeedDone s).job.outPos = 0 + (s.mem.readList (s.job.srcAddr 0) s.job.d).length := rfl
@[simp] theorem encodeSeedDone_job_bestLen (s : State) : (encodeSeedDone s).job.bestLen = s.job.bestLen := rfl
@[simp] theorem encodeSeedDone_job_bestIdx (s : State) : (encodeSeedDone s).job.bestIdx = s.job.bestIdx := rfl
@[simp] theorem encodeSeedDone_job_passed (s : State) : (encodeSeedDone s).job.passed = (1 * s.job.d, 0 + (s.mem.readList (s.job.srcAddr 0) s.job.d).length) :: s.job.passed := rfl
@[simp] theorem encodeSeedDone_job_d (s : State) : (encodeSeedDone s).job.d = s.job.d := rfl
@[simp] theorem encodeSeedDone_job_totalPixels (s : State) : (encodeSeedDone s).job.totalPixels = s.job.totalPixels := rfl
@[simp] theorem encodeSeedDone_job_totalBytes (s : State) : (encodeSeedDone s).job.totalBytes = s.job.totalBytes := rfl
@[simp] theorem encodeSeedDone_job_srcAddr (s : State) (i : Nat) : (encodeSeedDone s).job.srcAddr i = s.job.srcAddr i := rfl
@[simp] theorem encodeSeedDone_job_dstAddr (s : State) (i : Nat) : (encodeSeedDone s).job.dstAddr i = s.job.dstAddr i := rfl
@[simp] theorem encodeSeedDone_mem (s : State) : (encodeSeedDone s).mem = s.mem.writeList (s.job.dstAddr 0) (s.mem.readList (s.job.srcAddr 0) s.job.d) := rfl
@[simp] theorem encodeSeedDone_turns (s : State) : (encodeSeedDone s).turns = s.turns := rfl
@[simp] theorem encodeSeedDone_rdata (s : State) : (encodeSeedDone s).rdata = s.rdata := rfl
@[simp] theorem encodeSeedDone_draws (s : State) : (encodeSeedDone s).draws = s.draws := rfl
@[simp] theorem encodeSeedDone_addressTop (s : State) : (encodeSeedDone s).addressTop = s.addressTop := rfl

end Sys2Proof.Machine
end

