-- ==== Sys2Proof/Laws/Ops.lean ====
section
/-! SUPPORT. For each shared operation one lemma that says once everything it can do; proofs cite these instead of
unfolding the operation. -/

namespace Sys2Proof.Machine

/-! ### Windows and layout -/

theorem srcDefined_iff (s : State) (off n : Nat) :
    s.srcDefined off n = true ↔
      off + n ≤ s.job.srcLen.toNat ∧ s.job.srcBase.toNat + s.job.srcLen.toNat ≤ s.addressTop := by
  simp [State.srcDefined]

theorem dstDefined_iff (s : State) (off n : Nat) :
    s.dstDefined off n = true ↔
      off + n ≤ s.job.dstCap.toNat ∧ s.job.dstBase.toNat + s.job.dstCap.toNat ≤ s.addressTop := by
  simp [State.dstDefined]

theorem rangesDisjoint_iff (b1 l1 b2 l2 : Nat) :
    rangesDisjoint b1 l1 b2 l2 = true ↔ l1 = 0 ∨ l2 = 0 ∨ b1 + l1 ≤ b2 ∨ b2 + l2 ≤ b1 := by
  simp [rangesDisjoint, or_assoc]

/-- Two ranges are not disjoint exactly when an address lies in both. -/
theorem rangesDisjoint_false_iff (b1 l1 b2 l2 : Nat) :
    rangesDisjoint b1 l1 b2 l2 = false ↔ ∃ a, (b1 ≤ a ∧ a < b1 + l1) ∧ b2 ≤ a ∧ a < b2 + l2 := by
  have h := rangesDisjoint_iff b1 l1 b2 l2
  cases hd : rangesDisjoint b1 l1 b2 l2
  · simp only [hd, Bool.false_eq_true, false_iff] at h
    simp only [true_iff]
    exact ⟨max b1 b2, by omega⟩
  · simp only [hd, true_iff] at h
    simp only [Bool.true_eq_false, false_iff, not_exists]
    omega

theorem inRange_iff (b l a : Nat) : inRange b l a = true ↔ b ≤ a ∧ a < b + l := by
  simp [inRange]

/-- The BitLayout numbers of both kinds (40_shift_resolver.md R151 to R155). -/
@[simp] theorem countMask_tc : countMask .tc = 3 := by decide
@[simp] theorem countMask_pal : countMask .pal = 7 := by decide
@[simp] theorem shiftStart_tc : shiftStart .tc = 2 := by decide
@[simp] theorem shiftStart_pal : shiftStart .pal = 3 := by decide
@[simp] theorem countBase_tc : countBase .tc = 1 := by decide
@[simp] theorem countBase_pal : countBase .pal = 3 := by decide
@[simp] theorem ignoreThreshold_tc : ignoreThreshold .tc = 0 := by decide
@[simp] theorem ignoreThreshold_pal : ignoreThreshold .pal = 2 := by decide
@[simp] theorem countThreshold_tc : countThreshold .tc = 4 := by decide
@[simp] theorem countThreshold_pal : countThreshold .pal = 10 := by decide

theorem byteDepth_pos (k : Kind) : 0 < byteDepth k := by cases k <;> decide

theorem Job.d_pos (j : Job) : 0 < j.d := byteDepth_pos j.kind

/-! ### The decoder's commands -/

/-- Everything the literal body can do (41_decoder.md R177). -/
theorem literalBody_outcome (header n : Nat) (s : State) :
    (s.job.remBytes < n * s.job.d ∧ literalBody header n s = .next (s.raiseInCommand .pixelOob)) ∨
    (n * s.job.d ≤ s.job.remBytes ∧ s.job.srcLen.toNat < s.job.srcPos + header + n * s.job.d ∧
      literalBody header n s = .next (s.raiseInCommand .srcShort)) ∨
    (n * s.job.d ≤ s.job.remBytes ∧ s.job.srcPos + header + n * s.job.d ≤ s.job.srcLen.toNat ∧
      s.srcDefined (s.job.srcPos + header) (n * s.job.d) = false ∧ literalBody header n s = .fault .sourceWindow) ∨
    (n * s.job.d ≤ s.job.remBytes ∧ s.srcDefined (s.job.srcPos + header) (n * s.job.d) = true ∧
      s.dstDefined s.job.dstPos (n * s.job.d) = false ∧ literalBody header n s = .fault .destinationWindow) ∨
    (n * s.job.d ≤ s.job.remBytes ∧ s.srcDefined (s.job.srcPos + header) (n * s.job.d) = true ∧
      s.dstDefined s.job.dstPos (n * s.job.d) = true ∧
      literalBody header n s = .next (s.commandDone
        (s.mem.copyForward (s.job.srcAddr (s.job.srcPos + header)) (s.job.dstAddr s.job.dstPos) (n * s.job.d))
        (s.job.srcPos + header + n * s.job.d) (n * s.job.d))) := by
  unfold literalBody
  by_cases h1 : s.job.remBytes < n * s.job.d
  · simp [h1]
  by_cases h2 : s.job.srcLen.toNat < s.job.srcPos + header + n * s.job.d
  · have := Nat.le_of_not_lt h1
    simp [h1, h2, this]
  have h1' := Nat.le_of_not_lt h1
  have h2' := Nat.le_of_not_lt h2
  cases h3 : s.srcDefined (s.job.srcPos + header) (n * s.job.d) <;>
    cases h4 : s.dstDefined s.job.dstPos (n * s.job.d) <;> simp [h1, h2, h1', h2', h3, h4]

/-- Everything the copy body can do (41_decoder.md R180). -/
theorem copyBody_outcome (header n idx : Nat) (s : State) :
    (s.job.remBytes < n * s.job.d ∧ copyBody header n idx s = .next (s.raiseInCommand .pixelOob)) ∨
    (n * s.job.d ≤ s.job.remBytes ∧ (0 ≤ s.job.byteDelta idx ∨ (s.job.dstPos : Int) + s.job.byteDelta idx < 0) ∧
      copyBody header n idx s = .next (s.raiseInCommand .shiftParam)) ∨
    (n * s.job.d ≤ s.job.remBytes ∧ s.dstDefined s.job.dstPos (n * s.job.d) = false ∧
      copyBody header n idx s = .fault .destinationWindow) ∨
    (n * s.job.d ≤ s.job.remBytes ∧ s.job.byteDelta idx < 0 ∧ 0 ≤ (s.job.dstPos : Int) + s.job.byteDelta idx ∧
      s.dstDefined s.job.dstPos (n * s.job.d) = true ∧
      copyBody header n idx s = .next (s.commandDone
        (s.mem.copyForward (s.job.dstAddr ((s.job.dstPos : Int) + s.job.byteDelta idx).toNat)
          (s.job.dstAddr s.job.dstPos) (n * s.job.d))
        (s.job.srcPos + header) (n * s.job.d))) := by
  unfold copyBody
  by_cases h1 : s.job.remBytes < n * s.job.d
  · simp [h1]
  have h1' := Nat.le_of_not_lt h1
  by_cases h2 : 0 ≤ s.job.byteDelta idx ∨ (s.job.dstPos : Int) + s.job.byteDelta idx < 0
  · simp [h1, h1', h2]
  · have h3 : s.job.byteDelta idx < 0 ∧ 0 ≤ (s.job.dstPos : Int) + s.job.byteDelta idx := by omega
    cases h4 : s.dstDefined s.job.dstPos (n * s.job.d) <;> simp [h1, h1', h2, h3, h4]

/-- Everything SEED can do (41_decoder.md R172). -/
theorem execSeed_outcome (s : State) :
    (s.job.srcLen.toNat < s.job.d ∧ execSeed s = .next (s.raise .truncated 0 0 0)) ∨
    (s.job.d ≤ s.job.srcLen.toNat ∧ s.srcDefined 0 s.job.d = false ∧ execSeed s = .fault .sourceWindow) ∨
    (s.srcDefined 0 s.job.d = true ∧ s.dstDefined 0 s.job.d = false ∧ execSeed s = .fault .destinationWindow) ∨
    (s.srcDefined 0 s.job.d = true ∧ s.dstDefined 0 s.job.d = true ∧ execSeed s = .next (seedDone s)) := by
  unfold execSeed seedDone
  by_cases h1 : s.job.srcLen.toNat < s.job.d
  · simp [h1]
  have h1' := Nat.le_of_not_lt h1
  cases h3 : s.srcDefined 0 s.job.d <;> cases h4 : s.dstDefined 0 s.job.d <;> simp [h1, h1', h3, h4]

/-- The form of a stream command: header bytes, pixels, and the table index of a copy (30_encoding.md R113 to R115). -/
inductive CommandForm where
  | literal (header n : Nat)
  | copy (header n idx : Nat)
deriving DecidableEq, Repr

/-- The form of an instruction that stands in the stream; the seed and the job commands do not. -/
def commandForm : Instr → Option CommandForm
  | .lit len => some (.literal 1 (litPixels len))
  | .litx ext => some (.literal 3 (litxPixels ext))
  | .cpyTc idx count => some (.copy 1 (copyPixels .tc count.toNat) idx.toNat)
  | .cpyxTc idx ext => some (.copy 3 (copyxPixels .tc ext) idx.toNat)
  | .cpyPal idx count => some (.copy 1 (copyPixels .pal count.toNat) idx.toNat)
  | .cpyxPal idx ext => some (.copy 3 (copyxPixels .pal ext) idx.toNat)
  | .seed => none
  | .decode _ _ => none
  | .encode _ _ => none

/-- The body a form runs. -/
def CommandForm.run : CommandForm → State → Host.Outcome State Fault Refusal
  | .literal header n, s => literalBody header n s
  | .copy header n idx, s => copyBody header n idx s

/-- A stream command is its form's body. -/
theorem exec_form {i : Instr} {f : CommandForm} (h : commandForm i = some f) (s : State) : exec i s = f.run s := by
  cases i <;> simp [commandForm] at h <;> subst h <;> rfl

theorem decodeCopy_form {k : Kind} {cmd : Byte} {bs rest : List Byte} {i : Instr}
    (h : decodeCopy k cmd bs = .ok (i, rest)) : ∃ f, commandForm i = some f := by
  cases k <;> simp only [decodeCopy] at h <;> split at h <;> try (injection h with h; injection h with h _; subst h; exact ⟨_, rfl⟩)
  all_goals
    unfold withExt at h
    split at h
    · injection h with h; injection h with h _; subst h; exact ⟨_, rfl⟩
    · cases h

/-- What the decoder reads from the stream is a stream command. -/
theorem decodeCommand_form {k : Kind} {bs rest : List Byte} {i : Instr} (h : decodeCommand k bs = .ok (i, rest)) :
    ∃ f, commandForm i = some f := by
  cases bs with
  | nil => cases h
  | cons cmd bs =>
    simp only [decodeCommand] at h
    split at h
    · unfold withExt at h
      split at h
      · injection h with h; injection h with h _; subst h; exact ⟨_, rfl⟩
      · cases h
    · split at h
      · injection h with h; injection h with h _; subst h; exact ⟨_, rfl⟩
      · exact decodeCopy_form h

/-- Everything a decode step can do (41_decoder.md R173). -/
theorem decodeStep_outcome (s : State) :
    (headerRoom s.job ≠ 0 ∧ s.srcDefined s.job.srcPos (headerRoom s.job) = false ∧
      decodeStep s = .fault .sourceWindow) ∨
    (decodeStep s = .next (s.raiseInCommand .truncated) ∧
      ∃ e, decodeCommand s.job.kind (fetchBytes s) = .error e) ∨
    (∃ i rest f, decodeCommand s.job.kind (fetchBytes s) = .ok (i, rest) ∧ commandForm i = some f ∧
      decodeStep s = exec i s ∧ exec i s = f.run s) := by
  unfold decodeStep
  by_cases h1 : headerRoom s.job = 0
  · simp only [h1, bne_self_eq_false, Bool.and_false, Bool.false_eq_true, if_false]
    right
    cases h : decodeCommand s.job.kind (fetchBytes s) with
    | error e => exact .inl ⟨rfl, e, rfl⟩
    | ok p =>
      obtain ⟨i, rest⟩ := p
      obtain ⟨f, hf⟩ := decodeCommand_form h
      exact .inr ⟨i, rest, f, rfl, hf, rfl, exec_form hf s⟩
  · cases h2 : s.srcDefined s.job.srcPos (headerRoom s.job) with
    | false => left; simp [h1]
    | true =>
      simp only [Bool.not_true, Bool.false_and, Bool.false_eq_true, if_false]
      right
      cases h : decodeCommand s.job.kind (fetchBytes s) with
      | error e => exact .inl ⟨rfl, e, rfl⟩
      | ok p =>
        obtain ⟨i, rest⟩ := p
        obtain ⟨f, hf⟩ := decodeCommand_form h
        exact .inr ⟨i, rest, f, rfl, hf, rfl, exec_form hf s⟩

/-! ### The start of a job -/

/-- A START while BUSY stores `IRQ_EN` (10_state.md R33). -/
theorem startJob_busy {s : State} (op : Op) (k : Kind) (irq : Bool) (h : s.busy = true) :
    startJob op k irq s = { s with irqEn := irq } := by
  simp [startJob, h]

/-- The state after an accepted START (70_reset_and_hazards.md R303). -/
theorem startJob_idle {s : State} (op : Op) (k : Kind) (irq : Bool) (h : s.busy = false) :
    startJob op k irq s =
      { s with
        op := op, kind := k, irqEn := irq, done := false, error := false, errCode := 0
        srcPosReg := 0, dstPosReg := 0, errPos := 0, engine := .check, job := latchJob op k s } := by
  simp [startJob, h]

/-- Everything the configuration check can do (60_exceptions.md R273). -/
theorem configCheck_outcome (s : State) :
    (configOk s = false ∧ configCheck s = .next (s.raise .config 0 0 0)) ∨
    (configOk s = true ∧ deviceInWindow s = true ∧ configCheck s = .refused .deviceAccess) ∨
    (configOk s = true ∧ deviceInWindow s = false ∧ configCheck s = .next { s with engine := .seed }) := by
  unfold configCheck
  cases h1 : configOk s <;> cases h2 : deviceInWindow s <;> simp

/-- The configuration check as arithmetic (60_exceptions.md R273; 20_memory.md R82). -/
theorem configOk_iff (s : State) :
    configOk s = true ↔
      s.job.totalPixels ≠ 0 ∧ s.job.totalBytes ≤ s.params.maxTotalBytes ∧
      s.job.srcBase.toNat + s.job.srcLen.toNat ≤ s.addressTop ∧
      s.job.dstBase.toNat + s.job.dstCap.toNat ≤ s.addressTop ∧
      rangesDisjoint s.job.srcBase.toNat s.job.srcLen.toNat s.job.dstBase.toNat s.job.dstCap.toNat = true ∧
      capacityOk s.job = true := by
  simp [configOk, wellPlaced, and_assoc]

/-! ### The encoder's steps -/

/-- Everything an emission can do (42_encoder.md R211). -/
theorem emitSeq_outcome (bytes : List Byte) (s : State) :
    (s.job.dstCap.toNat < s.job.outPos + bytes.length ∧
      emitSeq bytes s = .stop (.next (s.raiseInUnit .dstOverflow))) ∨
    (s.job.outPos + bytes.length ≤ s.job.dstCap.toNat ∧ s.dstDefined s.job.outPos bytes.length = false ∧
      emitSeq bytes s = .stop (.fault .destinationWindow)) ∨
    (s.dstDefined s.job.outPos bytes.length = true ∧ emitSeq bytes s = .go (unitDone bytes s)) := by
  unfold emitSeq unitDone
  by_cases h1 : s.job.dstCap.toNat < s.job.outPos + bytes.length
  · simp [h1]
  have h1' := Nat.le_of_not_lt h1
  cases h2 : s.dstDefined s.job.outPos bytes.length <;> simp [h1, h1']

/-- Everything a literal flush can do (42_encoder.md R230). -/
theorem flushLiteral_outcome (s : State) :
    (s.job.litLen = 0 ∧ flushLiteral s = .go s) ∨
    (s.job.litLen ≠ 0 ∧ s.srcDefined (s.job.litStart * s.job.d) (s.job.litLen * s.job.d) = false ∧
      flushLiteral s = .stop (.fault .sourceWindow)) ∨
    (s.job.litLen ≠ 0 ∧ s.job.dstCap.toNat < s.job.outPos + (literalUnit s).length ∧
      flushLiteral s = .stop (.next (s.raiseInUnit .dstOverflow))) ∨
    (s.job.litLen ≠ 0 ∧ s.job.outPos + (literalUnit s).length ≤ s.job.dstCap.toNat ∧
      s.dstDefined s.job.outPos (literalUnit s).length = false ∧
      flushLiteral s = .stop (.fault .destinationWindow)) ∨
    (s.job.litLen ≠ 0 ∧ s.srcDefined (s.job.litStart * s.job.d) (s.job.litLen * s.job.d) = true ∧
      s.dstDefined s.job.outPos (literalUnit s).length = true ∧ flushLiteral s = .go (flushDone s)) := by
  unfold flushLiteral flushDone
  by_cases h0 : s.job.litLen = 0
  · simp [h0]
  cases h1 : s.srcDefined (s.job.litStart * s.job.d) (s.job.litLen * s.job.d) with
  | false => simp [h0]
  | true =>
    rcases emitSeq_outcome (literalUnit s) s with ⟨h2, e⟩ | ⟨h2, h3, e⟩ | ⟨h2, e⟩ <;> simp [h0, h2, e]
    exact h3

/-- Everything the encoder's seed can do (42_encoder.md R212). -/
theorem encodeSeed_outcome (s : State) :
    (s.srcDefined 0 s.job.d = false ∧ encodeSeed s = .fault .sourceWindow) ∨
    (s.srcDefined 0 s.job.d = true ∧ s.job.dstCap.toNat < s.job.d ∧
      encodeSeed s = .next ((encodeSetup s).raiseInUnit .dstOverflow)) ∨
    (s.srcDefined 0 s.job.d = true ∧ s.job.d ≤ s.job.dstCap.toNat ∧ s.dstDefined 0 s.job.d = false ∧
      encodeSeed s = .fault .destinationWindow) ∨
    (s.srcDefined 0 s.job.d = true ∧ s.dstDefined 0 s.job.d = true ∧ encodeSeed s = .next (encodeSeedDone s)) := by
  have hs : (encodeSetup s).srcDefined 0 (encodeSetup s).job.d = s.srcDefined 0 s.job.d := rfl
  have hd : (encodeSetup s).dstDefined 0 s.job.d = s.dstDefined 0 s.job.d := rfl
  have e0 : encodeSeed s =
      if !(encodeSetup s).srcDefined 0 (encodeSetup s).job.d then .fault .sourceWindow
      else (emitSeq (s.mem.readList (s.job.srcAddr 0) s.job.d) (encodeSetup s)).run fun u =>
        .next (encoderBoundary { u with engine := .loop }) := rfl
  rw [e0, hs]
  cases h1 : s.srcDefined 0 s.job.d with
  | false => simp
  | true =>
    have ho : (encodeSetup s).job.outPos = 0 := rfl
    have hc : (encodeSetup s).job.dstCap = s.job.dstCap := rfl
    rcases emitSeq_outcome (s.mem.readList (s.job.srcAddr 0) s.job.d) (encodeSetup s) with
      ⟨h2, e⟩ | ⟨h2, h3, e⟩ | ⟨h2, e⟩ <;>
      rw [e] <;> simp only [ho, hc, hd, Memory.readList_length, Nat.zero_add] at h2
    · simp [Flow.run, h2]
    · simp only [ho, hd, Memory.readList_length] at h3
      simp [Flow.run, h2, h3]
    · simp [Flow.run, h2, encodeSeedDone]

/-- Everything the copy path of a pass can do: the flush, then the copy unit (42_encoder.md R227). -/
theorem copyPath_outcome (len idx : Nat) (s : State) :
    (∃ o, flushLiteral s = .stop o ∧ copyPath len idx s = o) ∨
    (∃ t o, flushLiteral s = .go t ∧ emitCopy idx len t = .stop o ∧ copyPath len idx s = o) ∨
    (∃ t u, flushLiteral s = .go t ∧ emitCopy idx len t = .go u ∧
      copyPath len idx s = .next (encoderBoundary { u with job := { u.job with current := u.job.current + len } })) := by
  unfold copyPath
  cases h1 : flushLiteral s with
  | stop o => exact .inl ⟨o, rfl, rfl⟩
  | go t =>
    cases h2 : emitCopy idx len t with
    | stop o => exact .inr (.inl ⟨t, o, rfl, h2, by simp [Flow.run, h2]⟩)
    | go u => exact .inr (.inr ⟨t, u, rfl, h2, by simp [Flow.run, h2]⟩)

/-- Everything the literal path of a pass can do (42_encoder.md R226, R229). -/
theorem literalPath_outcome (s : State) :
    (s.job.litLen + 1 ≠ maxThunkSize ∧ literalPath s = .next (encoderBoundary (appendLiteral s))) ∨
    (s.job.litLen + 1 = maxThunkSize ∧ ∃ o, flushLiteral (appendLiteral s) = .stop o ∧ literalPath s = o) ∨
    (s.job.litLen + 1 = maxThunkSize ∧ ∃ t, flushLiteral (appendLiteral s) = .go t ∧
      literalPath s = .next (encoderBoundary t)) := by
  by_cases h : s.job.litLen + 1 = maxThunkSize
  · right
    cases h1 : flushLiteral (appendLiteral s) with
    | stop o => exact .inl ⟨h, o, rfl, by simp [literalPath, h, h1, Flow.run]⟩
    | go t => exact .inr ⟨h, t, rfl, by simp [literalPath, h, h1, Flow.run]⟩
  · exact .inl ⟨h, by simp [literalPath, h]⟩

/-- Everything a pass can do (42_encoder.md R213, R224). -/
theorem encodePass_outcome (s : State) :
    (s.srcDefined 0 s.job.totalBytes = false ∧ encodePass s = .fault .sourceWindow) ∨
    (s.srcDefined 0 s.job.totalBytes = true ∧ ignoreThreshold s.job.kind < (matchSearch s).1 ∧
      encodePass s = copyPath (matchSearch s).1 (matchSearch s).2 (noteMatch s)) ∨
    (s.srcDefined 0 s.job.totalBytes = true ∧ (matchSearch s).1 ≤ ignoreThreshold s.job.kind ∧
      encodePass s = literalPath (noteMatch s)) := by
  unfold encodePass noteMatch
  cases h1 : s.srcDefined 0 s.job.totalBytes with
  | false => simp
  | true =>
    by_cases h2 : ignoreThreshold s.job.kind < (matchSearch s).1
    · simp [h2]
    · have h2' := Nat.le_of_not_lt h2
      simp [h2, h2']

/-- Everything the end of an encode job can do (42_encoder.md R231). -/
theorem encodeFinish_outcome (s : State) :
    (∃ o, flushLiteral s = .stop o ∧ encodeFinish s = o) ∨
    (∃ t, flushLiteral s = .go t ∧ encodeFinish s = .next (t.endDone t.job.totalBytes t.job.outPos)) := by
  unfold encodeFinish
  cases h : flushLiteral s with
  | stop o => exact .inl ⟨o, rfl, rfl⟩
  | go t => exact .inr ⟨t, rfl, rfl⟩

end Sys2Proof.Machine
end

