-- ==== Sys2Proof/Laws/PerInstr.lean ====
section
/-! SUPPORT. The family of per-instruction lemmas: the header length that a command's meaning steps over is the length of
its encoding (30_encoding.md R113 to R115). -/

namespace Sys2Proof.Laws

open Sys2Proof.Machine

/-- An instruction with header bytes in the stream is a literal or a copy, and its operands count those bytes. -/
def HeaderLength.Statement (i : Instr) : Prop :=
  ∀ header, encode i = .stream header →
    (literalOperands i).map Prod.fst = some header.length ∨ (copyOperands i).map Prod.fst = some header.length

theorem HeaderLength.seed : HeaderLength.Statement .seed := by
  intro header h; cases h

theorem HeaderLength.lit (len : BitVec 7) : HeaderLength.Statement (.lit len) := by
  intro header h; cases h; exact .inl rfl

theorem HeaderLength.litx (ext : BitVec 16) : HeaderLength.Statement (.litx ext) := by
  intro header h; cases h; exact .inl rfl

theorem HeaderLength.cpyTc (idx : BitVec 5) (count : BitVec 2) : HeaderLength.Statement (.cpyTc idx count) := by
  intro header h; cases h; exact .inr rfl

theorem HeaderLength.cpyxTc (idx : BitVec 5) (ext : BitVec 16) : HeaderLength.Statement (.cpyxTc idx ext) := by
  intro header h; cases h; exact .inr rfl

theorem HeaderLength.cpyPal (idx : BitVec 4) (count : BitVec 3) : HeaderLength.Statement (.cpyPal idx count) := by
  intro header h; cases h; exact .inr rfl

theorem HeaderLength.cpyxPal (idx : BitVec 4) (ext : BitVec 16) : HeaderLength.Statement (.cpyxPal idx ext) := by
  intro header h; cases h; exact .inr rfl

theorem HeaderLength.decode (kind : Kind) (irqEn : Bool) : HeaderLength.Statement (.decode kind irqEn) := by
  intro header h; cases h

theorem HeaderLength.encode (kind : Kind) (irqEn : Bool) : HeaderLength.Statement (.encode kind irqEn) := by
  intro header h; cases h

end Sys2Proof.Laws
end

