-- ==== Sys2Proof/Laws/Safety.lean ====
section
/-! SUPPORT. The small lemmas of the relations in Safety.lean: the pending bytes, the steps a job still has, the turns of
the engine in a list, and a run's first step. -/

namespace Sys2Proof.Machine

/-! ### The pending literal -/

theorem pendingBytes_empty {s : State} (h : s.job.litLen = 0) : pendingBytes s = [] := by
  simp [pendingBytes, h]

theorem pendingBytes_literal {s : State} (h : s.job.litLen ≠ 0) : pendingBytes s = literalUnit s := by
  simp [pendingBytes, literalUnit, h]

@[simp] theorem pendingBytes_noteMatch (s : State) : pendingBytes (noteMatch s) = pendingBytes s := rfl

/-- A pending literal inside the source window that does not fit is not written (42_encoder.md R211, R230). -/
theorem flushLiteral_overflow {s : State} (ho : s.job.outPos ≤ s.job.dstCap.toNat)
    (hs : s.job.litLen ≠ 0 → s.srcDefined (s.job.litStart * s.job.d) (s.job.litLen * s.job.d) = true)
    (h : s.job.dstCap.toNat < s.job.outPos + (pendingBytes s).length) :
    flushLiteral s = .stop (.next (s.raiseInUnit .dstOverflow)) := by
  by_cases h0 : s.job.litLen = 0
  · rw [pendingBytes_empty h0, List.length_nil] at h
    omega
  · rw [pendingBytes_literal h0] at h
    have hd := hs h0
    rcases flushLiteral_outcome s with ⟨h1, _⟩ | ⟨_, h1, _⟩ | ⟨_, _, e⟩ | ⟨_, h1, _, _⟩ | ⟨_, _, h1, _⟩
    · exact absurd h1 h0
    · rw [hd] at h1; cases h1
    · exact e
    · omega
    · rw [dstDefined_iff] at h1; omega

/-! ### The steps a job still has -/

theorem remainingSteps_idle {s : State} (h : s.engine = .idle) : remainingSteps s = 0 := by
  simp [remainingSteps, h]

theorem remainingSteps_check {s : State} (h : s.engine = .check) : remainingSteps s = s.job.totalPixels + 2 := by
  simp [remainingSteps, h]

theorem remainingSteps_seed {s : State} (h : s.engine = .seed) : remainingSteps s = s.job.totalPixels + 1 := by
  simp [remainingSteps, h]

theorem remainingSteps_decode {s : State} (h : s.engine = .loop) (ho : s.job.op = .decode) :
    remainingSteps s = s.job.remBytes / s.job.d + 1 := by
  simp [remainingSteps, h, ho]

theorem remainingSteps_encode {s : State} (h : s.engine = .loop) (ho : s.job.op = .encode) :
    remainingSteps s = s.job.totalPixels - s.job.current + 1 := by
  simp [remainingSteps, h, ho]

/-! ### Turns and runs -/

@[simp] theorem engineTurnsIn_zero (turns : List Turn) : engineTurnsIn 0 turns = 0 := by simp [engineTurnsIn]

@[simp] theorem engineTurnsIn_nil (n : Nat) : engineTurnsIn n [] = n := by simp [engineTurnsIn]

theorem engineTurnsIn_host (n : Nat) (a : HostAction) (rest : List Turn) :
    engineTurnsIn (n + 1) (.host a :: rest) = engineTurnsIn n rest := by
  unfold engineTurnsIn
  rw [List.take_succ_cons, List.countP_cons_of_pos rfl]
  omega

theorem engineTurnsIn_engine (n : Nat) (rest : List Turn) :
    engineTurnsIn (n + 1) (.engine :: rest) = engineTurnsIn n rest + 1 := by
  have h1 := List.countP_le_length (p := Turn.isHost) (l := rest.take n)
  have h2 := List.length_take_le n rest
  unfold engineTurnsIn
  rw [List.take_succ_cons, List.countP_cons_of_neg (by simp [Turn.isHost])]
  omega

/-- A run whose first step answers goes on from its answer. -/
theorem run_of_step {s t : State} (n : Nat) (h : step s = .next t) :
    Sys2Proof.core.run (n + 1) s = Sys2Proof.core.run n t := by
  have h' : Sys2Proof.core.step s = .next t := h
  simp only [Host.Core.run, h']

end Sys2Proof.Machine
end

