-- ==== Sys2Proof/Tests/Slice0.lean ====
section
/-! SUPPORT. The model's own tests, by `decide`: ill-formed terms, words written out from the spec's encodings, one step per
instruction with the results of 95_test_vectors.md, and for each statement with hypotheses a state and operands that
meet them all (`witness_…`). -/

namespace Sys2Proof.Tests

open Sys2Proof.Machine

/-! ### Small states -/

/-- A job about to make its configuration check: the source window at 0 holds `src`, the destination window is at 64. -/
def started (op : Op) (k : Kind) (w h : Nat) (src : List Byte) (cap : Nat) : State :=
  startJob op k true { State.reset with
    width := BitVec.ofNat 32 w, height := BitVec.ofNat 32 h
    srcLen := BitVec.ofNat 32 src.length, dstBase := 64, dstCap := BitVec.ofNat 32 cap
    mem := Memory.writeList [] 0 src }

/-- The same job about to copy or emit its seed. -/
def atSeed (op : Op) (k : Kind) (w h : Nat) (src : List Byte) (cap : Nat) : State :=
  { started op k w h src cap with engine := .seed }

/-- A decode job right after its seed, at the first command of the payload `src`. -/
def atFirst (k : Kind) (w h : Nat) (src : List Byte) : State :=
  let s := atSeed .decode k w h src (w * h * byteDepth k)
  { s with
    engine := .loop
    mem := s.mem.writeList 64 (src.take (byteDepth k))
    job := { s.job with
      srcPos := byteDepth k, dstPos := byteDepth k, remBytes := w * h * byteDepth k - byteDepth k
      passed := [(byteDepth k, byteDepth k), (0, 0)] } }

/-- An encode job right after its seed, at pixel 1 of the image `src`. -/
def atPixelOne (k : Kind) (w h : Nat) (src : List Byte) (cap : Nat) : State :=
  let s := atSeed .encode k w h src cap
  { s with
    engine := .loop
    mem := s.mem.writeList 64 (src.take (byteDepth k))
    job := { s.job with
      outPos := byteDepth k, litStart := 1, current := 1
      passed := [(byteDepth k, byteDepth k), (0, 0)] } }

/-- The state of an outcome, or `s` where there is none. -/
def nextOr (s : State) : Host.Outcome State Fault Refusal → State
  | .next t => t
  | .fault _ => s
  | .refused _ => s

/-- Whether an outcome is a next state. -/
def isNext : Host.Outcome State Fault Refusal → Bool
  | .next _ => true
  | .fault _ => false
  | .refused _ => false

theorem next_of {o : Host.Outcome State Fault Refusal} (h : isNext o = true) : ∃ t, o = .next t := by
  cases o with
  | next t => exact ⟨t, rfl⟩
  | fault f => cases h
  | refused r => cases h

/-- The state on a platform with these devices in its memory. -/
def withDevices (s : State) (devices : List (Nat × Nat)) : State :=
  { s with params := { s.params with devices := devices } }

/-- What one step leaves: `STATUS`, the two cursors of a decode job, and `n` destination bytes. -/
def seen (n : Nat) (s : State) : Nat × Nat × Nat × List Byte :=
  let t := nextOr s (step s)
  (t.statusWord.toNat, t.job.srcPos, t.job.dstPos, t.mem.readList 64 n)

/-- What one step leaves: `STATUS`, `SRC_POS`, `DST_POS`, `ERR_POS`. -/
def registersAfter (s : State) : Nat × Nat × Nat × Nat :=
  let t := nextOr s (step s)
  (t.statusWord.toNat, t.srcPosReg.toNat, t.dstPosReg.toNat, t.errPos.toNat)

/-- The invariant from one decidable conjunction, for states written out. -/
theorem stateOk_of {s : State}
    (memory : s.mem.wf = true ∧ s.mem.below s.addressTop = true)
    (bases : s.srcBase.toNat < s.addressTop ∧ s.dstBase.toNat < s.addressTop)
    (status : ¬ (s.done = true ∧ s.error = true) ∧ (s.busy = true → s.done = false ∧ s.error = false) ∧
      (s.error = false → s.errCode = 0) ∧ (s.error = true → 1 ≤ s.errCode.toNat ∧ s.errCode.toNat ≤ 6))
    (latch : s.job.op = s.op ∧ s.job.kind = s.kind ∧ s.job.width = s.width ∧ s.job.height = s.height ∧
      s.job.srcBase = s.srcBase ∧ s.job.srcLen = s.srcLen ∧ s.job.dstBase = s.dstBase ∧ s.job.dstCap = s.dstCap ∧
      s.job.shiftDeltas = resolveDeltas s.params s.job.kind s.job.width.toNat ∧
      s.srcPosReg = 0 ∧ s.dstPosReg = 0 ∧ s.errPos = 0)
    (boundaries : s.job.passed ≠ [] ∧
      ∀ b ∈ s.job.passed, b.1 ≤ s.job.srcLen.toNat ∧ b.2 ≤ s.job.dstCap.toNat)
    (config : s.engine.checked = true → configOk s = true ∧ deviceInWindow s = false)
    (decoder : s.engine = .loop → s.job.op = .decode →
      s.job.dstPos + s.job.remBytes = s.job.totalBytes ∧ s.job.d ∣ s.job.dstPos ∧ s.job.d ≤ s.job.dstPos ∧
      s.job.srcPos ≤ s.job.srcLen.toNat ∧ s.job.passed.head? = some (s.job.srcPos, s.job.dstPos))
    (encoder : s.engine = .loop → s.job.op = .encode →
      1 ≤ s.job.current ∧ s.job.current ≤ s.job.totalPixels ∧
      (0 < s.job.litLen → s.job.litStart + s.job.litLen = s.job.current) ∧ 1 ≤ s.job.litStart ∧
      s.job.litLen < maxThunkSize ∧ s.job.outPos ≤ s.job.dstCap.toNat ∧
      s.job.passed.head? = some (s.job.current * s.job.d, s.job.outPos)) : StateOk s where
  memory := ⟨memory.1, memory.2⟩
  bases := ⟨bases.1, bases.2⟩
  status := ⟨status.1, status.2.1, status.2.2.1, status.2.2.2⟩
  latch _ := by
    obtain ⟨a, b, c, d, e, f, g, h, i, j, k, l⟩ := latch
    exact ⟨a, b, c, d, e, f, g, h, i, j, k, l⟩
  boundaries _ := ⟨boundaries.1, boundaries.2⟩
  config h := (config h).1
  noDevice h := (config h).2
  decoder h1 h2 := by
    obtain ⟨a, b, c, d, e⟩ := decoder h1 h2
    exact ⟨a, b, c, d, e⟩
  encoder h1 h2 := by
    obtain ⟨a, b, c, d, e, f, g⟩ := encoder h1 h2
    exact ⟨a, b, c, d, e, f, g⟩

/-! ### WellFormed: each check refuses an ill-formed term -/

theorem test_ill_formed_lit : (Instr.lit 0x7F).wf = false := by decide
theorem test_ill_formed_cpyTc : (Instr.cpyTc 5 3).wf = false := by decide
theorem test_ill_formed_cpyPal : (Instr.cpyPal 5 7).wf = false := by decide
theorem test_unfit_cpyTc : (Instr.cpyTc 5 0).fitsKind .pal = false := by decide
theorem test_unfit_cpyxTc : (Instr.cpyxTc 5 0).fitsKind .pal = false := by decide
theorem test_unfit_cpyPal : (Instr.cpyPal 5 0).fitsKind .tc = false := by decide
theorem test_unfit_cpyxPal : (Instr.cpyxPal 5 0).fitsKind .tc = false := by decide

/-! ### Decoding: words written out bit by bit from 30_encoding.md R113 to R115 and 10_state.md R33 -/

theorem test_decode_seed : decodeTableWord 0 0 = some .seed := by decide
theorem test_decode_lit : decodeCommand .pal [0b01111110, 0xAA] = .ok (.lit 126, [0xAA]) := by decide
theorem test_decode_litx : decodeCommand .tc [0b01111111, 0x34, 0x12, 9] = .ok (.litx 0x1234, [9]) := by decide
theorem test_decode_cpyTc : decodeCommand .tc [0b10100101] = .ok (.cpyTc 9 1, []) := by decide
theorem test_decode_cpyxTc : decodeCommand .tc [0b11111111, 0x00, 0x80] = .ok (.cpyxTc 31 0x8000, []) := by decide
theorem test_decode_cpyPal : decodeCommand .pal [0b10100101] = .ok (.cpyPal 4 5, []) := by decide
theorem test_decode_cpyxPal : decodeCommand .pal [0b11111111, 0x01, 0x00] = .ok (.cpyxPal 15 1, []) := by decide
theorem test_decode_decode : decodeCtrl 0b1001 = .ok (.decode .tc true) := by decide
theorem test_decode_encode : decodeCtrl 0b0111 = .ok (.encode .pal false) := by decide
theorem test_decode_missing_extension : decodeCommand .pal [0x87, 0x00] = .error .truncated := by decide
theorem test_decode_missing_command : decodeCommand .tc [] = .error .truncated := by decide
theorem test_table_word_litx : decodeTableWord 24 0x12347F = some (.litx 0x1234) := by decide
theorem test_table_word_encode : decodeTableWord 32 0x00000007 = some (.encode .pal false) := by decide

/-! ### The first step after reset runs the placed word -/

theorem test_placed_seed :
    step (State.reset.withFetchWord 0 0) = exec .seed { State.reset.withFetchWord 0 0 with turns := [] } := by rfl
theorem test_placed_lit :
    step (State.reset.withFetchWord 8 0x01) = exec (.lit 1) { State.reset.withFetchWord 8 0x01 with turns := [] } := by rfl
theorem test_placed_cpyxTc :
    step (State.reset.withFetchWord 24 0x83) = exec (.cpyxTc 0 0) { State.reset.withFetchWord 24 0x83 with turns := [] } := by
  rfl
theorem test_placed_encode :
    step (State.reset.withFetchWord 32 0x3) = exec (.encode .tc false) { State.reset.withFetchWord 32 0x3 with turns := [] } := by
  rfl

/-! ### One step per instruction (95_test_vectors.md; the vector's name is in each theorem's) -/

theorem test_seed_dv1 : seen 3 (atSeed .decode .tc 1 1 [1, 2, 3] 3) = (1, 3, 3, [1, 2, 3]) := by decide
theorem test_seed_dv3 : registersAfter (atSeed .decode .tc 1 1 [1, 2] 3) = (0x104, 0, 0, 0) := by decide
theorem test_lit_dv5 : seen 9 (atFirst .tc 3 1 [0x10, 0x20, 0x30, 1, 0xAA, 0xBB, 0xCC, 0xDD, 0xEE, 0xFF]) =
    (1, 10, 9, [0x10, 0x20, 0x30, 0xAA, 0xBB, 0xCC, 0xDD, 0xEE, 0xFF]) := by decide
theorem test_lit_dv9_length_before_data : registersAfter (atFirst .pal 3 1 [0, 2, 0xAA]) = (0x304, 1, 1, 1) := by decide
theorem test_litx_dv11 : (seen 3 (atFirst .pal 129 1 ([0, 0x7F, 0, 0] ++ List.replicate 128 7))) = (1, 132, 129, [0, 7, 7]) := by
  decide +kernel
theorem test_litx_dv12 : registersAfter (atFirst .pal 200 1 [0, 0x7F, 0]) = (0x104, 1, 1, 1) := by decide
theorem test_cpyTc_dv14 : seen 9 (atFirst .tc 3 1 [0x10, 0x20, 0x30, 0x81]) =
    (1, 4, 9, [0x10, 0x20, 0x30, 0x10, 0x20, 0x30, 0x10, 0x20, 0x30]) := by decide
theorem test_cpyTc_dv21_length_before_shift : registersAfter (atFirst .tc 1 2 [0, 0, 0, 0xA1]) = (0x304, 3, 3, 3) := by decide
theorem test_cpyxTc_dv22 : seen 15 (atFirst .tc 5 1 [10, 11, 12, 0x83, 0, 0]) =
    (1, 6, 15, [10, 11, 12, 10, 11, 12, 10, 11, 12, 10, 11, 12, 10, 11, 12]) := by decide
theorem test_cpyxTc_dv26 : registersAfter (atFirst .tc 9 1 [10, 11, 12, 0x83]) = (0x104, 3, 3, 3) := by decide
theorem test_cpyPal_dv15 : seen 4 (atFirst .pal 4 1 [0x55, 0x80]) = (1, 2, 4, [0x55, 0x55, 0x55, 0x55]) := by decide
theorem test_cpyPal_dv18 : registersAfter (atFirst .pal 1 5 [0, 0xA0]) = (0x404, 1, 1, 1) := by decide
theorem test_cpyxPal_dv25 : seen 11 (atFirst .pal 11 1 [0x55, 0x87, 0, 0]) = (1, 4, 11, List.replicate 11 0x55) := by decide
theorem test_cpyxPal_dv27 : registersAfter (atFirst .pal 10 1 [0x55, 0x87, 0, 0]) = (0x304, 1, 1, 1) := by decide
theorem test_decode_starts : (nextOr State.reset (step (State.reset.withFetchWord 32 0x0D))).ctrlWord = 0x0C ∧
    (nextOr State.reset (step (State.reset.withFetchWord 32 0x0D))).statusWord = 1 := by decide
theorem test_decode_dv30 : registersAfter (started .decode .tc 2 1 [1, 2, 3, 0x80] 5) = (0x504, 0, 0, 0) := by decide
theorem test_encode_starts : (nextOr State.reset (step (State.reset.withFetchWord 32 0x03))).ctrlWord = 0x02 := by decide
theorem test_encode_ev16 : registersAfter (atPixelOne .pal 4 1 [7, 7, 7, 7] 1) = (0x604, 1, 1, 1) := by decide

/-- The copy of EV2: index 0 wins the tie with index 6 (42_encoder.md R222). -/
theorem test_encode_pass_ev2 :
    (seen 4 (atPixelOne .tc 4 1 [1, 2, 3, 1, 2, 3, 1, 2, 3, 4, 5, 6] 32)).2.2.2 = [1, 2, 3, 0x81] := by
  decide +kernel

/-- Index 8 of EV9 (delta 0) is skipped: the pixel goes to the pending literal (42_encoder.md R221). -/
theorem test_encode_pass_ev9 :
    (nextOr State.reset (step (atPixelOne .tc 1 2 [0, 0, 0, 1, 1, 1] 32))).job.litLen = 1 := by
  decide +kernel

/-! ### Witnesses: the invariant -/

/-- P1 of 95_test_vectors.md at its first copy. -/
def copying : State := atFirst .tc 4 2 [0x10, 0x20, 0x30, 0x80, 0x00, 0x40, 0x50, 0x60, 0x80, 0xA7, 0x00, 0x00]

/-- EV2 of 95_test_vectors.md at pixel 1. -/
def matching : State := atPixelOne .tc 4 1 [1, 2, 3, 1, 2, 3, 1, 2, 3, 4, 5, 6] 32

/-- EV3 at pixel 1, where nothing matches. -/
def unmatched : State := atPixelOne .tc 2 1 [1, 2, 3, 4, 5, 6] 10

theorem copying_ok : StateOk copying := by apply stateOk_of <;> decide
theorem matching_ok : StateOk matching := by apply stateOk_of <;> decide
theorem unmatched_ok : StateOk unmatched := by apply stateOk_of <;> decide

theorem witness_EveryStepKeepsTheInvariant : StateOk copying ∧ ∃ t, step copying = .next t := ⟨copying_ok, next_of (by decide)⟩
theorem witness_TheEngineNeverFaults : StateOk matching := matching_ok
theorem witness_NoStepChangesTheTables : ∃ t, step matching = .next t := next_of (by decide +kernel)

/-! ### Witnesses: encoding -/

theorem witness_DecodeOfEncodeIsTheInstruction :
    (Instr.cpyTc 31 2).wf = true ∧ (Instr.cpyTc 31 2).fitsKind .tc = true ∧
    encode (.cpyTc 31 2) = .stream [0xFE] ∧
    (Instr.lit 0x7E).wf = true ∧ (Instr.lit 0x7E).fitsKind .pal = true ∧ encode (.lit 0x7E) = .stream [0x7E] := by decide
theorem witness_DecodedCommandHasOneEncoding : decodeCommand .tc [0x83, 0x5F, 0x00, 0x01] = .ok (.cpyxTc 0 0x5F, [0x01]) := by
  decide
/-- The command bytes on both sides of each boundary of `CommandFieldsAreMaskAndShift`. -/
theorem witness_CommandFieldsAreMaskAndShift :
    ((0x80#8).getLsbD 7 = true ∧ (0x82#8).toNat &&& countMask .tc ≠ countMask .tc) ∧
    ((0x83#8).getLsbD 7 = true ∧ (0x83#8).toNat &&& countMask .tc = countMask .tc) ∧
    ((0x86#8).getLsbD 7 = true ∧ (0x86#8).toNat &&& countMask .pal ≠ countMask .pal) ∧
    ((0x87#8).getLsbD 7 = true ∧ (0x87#8).toNat &&& countMask .pal = countMask .pal) ∧
    ((0x7E#8).getLsbD 7 = false ∧ 0x7E#8 ≠ 0x7F#8) ∧ ((0x00#8).getLsbD 7 = false ∧ 0x00#8 ≠ 0x7F#8) ∧
    0x7F#8 = 0x7F#8 := by decide

/-! ### Witnesses: a step runs the decoded instruction -/

theorem witness_StepRunsTheCommandAtTheCursor_seed :
    engineMoves (atSeed .decode .tc 1 1 [1, 2, 3] 3) ∧ (atSeed .decode .tc 1 1 [1, 2, 3] 3).job.op = .decode ∧
    (atSeed .decode .tc 1 1 [1, 2, 3] 3).engine = .seed := ⟨.inl rfl, rfl, rfl⟩
theorem witness_StepRunsTheCommandAtTheCursor_loop :
    engineMoves copying ∧ copying.job.op = .decode ∧ copying.engine = .loop ∧ copying.job.remBytes ≠ 0 ∧
    windowsPlaced copying ∧ decodeCommand copying.job.kind (fetchBytes copying) = .ok (.cpyTc 0 0, [0x00, 0x40]) :=
  ⟨.inl rfl, rfl, rfl, by decide, ⟨by decide, by decide⟩, by decide⟩
theorem witness_StepRunsTheJobCommandWritten_start :
    (placeCtrlWrite 5 State.reset).turns = .host (.regWrite 0 4 5) :: [] ∧ regOffset (placeCtrlWrite 5 State.reset) 0 = 0 ∧
    decodeCtrl 5 = .ok (.decode .pal false) := by decide
theorem witness_StepRunsTheJobCommandWritten_busy :
    (placeCtrlWrite 8 copying).turns = .host (.regWrite 0 4 8) :: [] ∧ regOffset (placeCtrlWrite 8 copying) 0 = 0 ∧
    decodeCtrl 8 = .error .noStart ∧ (placeCtrlWrite 8 copying).busy = true := by decide
theorem witness_StepRunsTheJobCommandWritten_idle :
    (placeCtrlWrite 14 State.reset).turns = .host (.regWrite 0 4 14) :: [] ∧
    regOffset (placeCtrlWrite 14 State.reset) 0 = 0 ∧ decodeCtrl 14 = .error .noStart ∧
    (placeCtrlWrite 14 State.reset).busy = false := by decide

/-- DV10: no command byte is left. -/
def noCommand : State := atFirst .tc 2 1 [0x10, 0x20, 0x30]
/-- DV12: the second extension byte of a LITX is missing. -/
def cutLitx : State := atFirst .pal 200 1 [0, 0x7F, 0]
/-- DV26: no extension byte of a CPYX. -/
def cutCpyx : State := atFirst .tc 9 1 [10, 11, 12, 0x83]

theorem noCommand_ok : StateOk noCommand := by apply stateOk_of <;> decide
theorem cutLitx_ok : StateOk cutLitx := by apply stateOk_of <;> decide
theorem cutCpyx_ok : StateOk cutCpyx := by apply stateOk_of <;> decide

theorem witness_MissingHeaderByteIsTruncated_command :
    StateOk noCommand ∧ engineMoves noCommand ∧ noCommand.engine = .loop ∧ noCommand.job.op = .decode ∧
    noCommand.job.remBytes ≠ 0 ∧ noCommand.job.srcLen.toNat ≤ noCommand.job.srcPos :=
  ⟨noCommand_ok, .inl rfl, rfl, rfl, by decide, by decide⟩
theorem witness_MissingHeaderByteIsTruncated_litx :
    StateOk cutLitx ∧ engineMoves cutLitx ∧ cutLitx.engine = .loop ∧ cutLitx.job.op = .decode ∧
    cutLitx.job.remBytes ≠ 0 ∧ cutLitx.job.srcLen.toNat < cutLitx.job.srcPos + 3 ∧
    cutLitx.mem.read (cutLitx.job.srcAddr cutLitx.job.srcPos) = 0x7F#8 :=
  ⟨cutLitx_ok, .inl rfl, rfl, rfl, by decide, by decide, by decide⟩
theorem witness_MissingHeaderByteIsTruncated_cpyx :
    StateOk cutCpyx ∧ engineMoves cutCpyx ∧ cutCpyx.engine = .loop ∧ cutCpyx.job.op = .decode ∧
    cutCpyx.job.remBytes ≠ 0 ∧ cutCpyx.job.srcLen.toNat < cutCpyx.job.srcPos + 3 ∧
    (cutCpyx.mem.read (cutCpyx.job.srcAddr cutCpyx.job.srcPos)).getLsbD 7 = true ∧
    (cutCpyx.mem.read (cutCpyx.job.srcAddr cutCpyx.job.srcPos)).toNat &&& countMask .tc = countMask .tc :=
  ⟨cutCpyx_ok, .inl rfl, rfl, rfl, by decide, by decide, by decide, by decide⟩

/-! ### Witnesses: the commands -/

theorem witness_SeedCopiesTheFirstPixelOrIsTruncated_copies :
    let s := atSeed .decode .tc 1 1 [1, 2, 3] 3
    s.mem.wf = true ∧ windowsPlaced s ∧ windowsApart s ∧ s.job.d ≤ s.job.srcLen.toNat ∧ s.job.d ≤ s.job.dstCap.toNat :=
  ⟨by decide, ⟨by decide, by decide⟩, by unfold windowsApart; decide, by decide, by decide⟩
theorem witness_SeedCopiesTheFirstPixelOrIsTruncated_truncated :
    (atSeed .decode .tc 1 1 [1, 2] 3).job.srcLen.toNat < (atSeed .decode .tc 1 1 [1, 2] 3).job.d := by decide

/-- DV5 of 95_test_vectors.md: a LIT that uses up payload and image exactly. -/
def literal : State := atFirst .tc 3 1 [0x10, 0x20, 0x30, 1, 0xAA, 0xBB, 0xCC, 0xDD, 0xEE, 0xFF]

theorem witness_LiteralRunCopiesItsDataOrFails_lit :
    literalOperands (.lit 1) = some (1, 2) ∧ literal.mem.wf = true ∧ windowsPlaced literal ∧ windowsApart literal ∧
    2 * literal.job.d ≤ literal.job.remBytes ∧ literal.job.srcPos + 1 + 2 * literal.job.d ≤ literal.job.srcLen.toNat ∧
    literal.job.dstPos + 2 * literal.job.d ≤ literal.job.dstCap.toNat :=
  ⟨rfl, by decide, ⟨by decide, by decide⟩, by unfold windowsApart; decide, by decide, by decide, by decide⟩
theorem witness_LiteralRunCopiesItsDataOrFails_litx :
    let s := loadedDecodeJob State.reset
    literalOperands (.litx 0xFFFF) = some (3, 65663) ∧ s.mem.wf = true ∧ windowsPlaced s ∧ windowsApart s ∧
    65663 * s.job.d ≤ s.job.remBytes ∧ s.job.srcPos + 3 + 65663 * s.job.d ≤ s.job.srcLen.toNat ∧
    s.job.dstPos + 65663 * s.job.d ≤ s.job.dstCap.toNat :=
  ⟨rfl, by decide, ⟨by decide, by decide⟩, by unfold windowsApart; decide, by decide, by decide, by decide⟩
/-- One pixel more than remains (DV7), and one data byte too few (the payload of DV5 without its last byte). -/
theorem witness_LiteralRunCopiesItsDataOrFails_errors :
    literalOperands (.lit 2) = some (1, 3) ∧ 3 * literal.job.d > literal.job.remBytes ∧
    literalOperands (.lit 1) = some (1, 2) ∧
    ¬ 2 * (atFirst .tc 3 1 [0x10, 0x20, 0x30, 1, 0xAA, 0xBB, 0xCC, 0xDD, 0xEE]).job.d >
      (atFirst .tc 3 1 [0x10, 0x20, 0x30, 1, 0xAA, 0xBB, 0xCC, 0xDD, 0xEE]).job.remBytes ∧
    (atFirst .tc 3 1 [0x10, 0x20, 0x30, 1, 0xAA, 0xBB, 0xCC, 0xDD, 0xEE]).job.srcLen.toNat <
      (atFirst .tc 3 1 [0x10, 0x20, 0x30, 1, 0xAA, 0xBB, 0xCC, 0xDD, 0xEE]).job.srcPos + 1 + 2 * 3 := by decide

/-- A copy run of each constructor that fills its image exactly, with the delta that reaches back to offset 0. -/
theorem witness_CopyRunRepeatsEarlierOutputOrFails_tc :
    let s := atFirst .tc 3 1 [0x10, 0x20, 0x30, 0x81]
    copyOperands (.cpyTc 0 1) = some (1, 2, 0) ∧ s.mem.wf = true ∧ windowsPlaced s ∧ 2 * s.job.d ≤ s.job.remBytes ∧
    s.job.dstPos + 2 * s.job.d ≤ s.job.dstCap.toNat ∧ s.job.shiftDeltas.getD 0 0 * (s.job.d : Int) = -((3 : Nat) : Int) ∧
    0 < 3 ∧ 3 ≤ s.job.dstPos :=
  ⟨rfl, by decide, ⟨by decide, by decide⟩, by decide, by decide, by decide, by decide, by decide⟩
theorem witness_CopyRunRepeatsEarlierOutputOrFails_xtc :
    let s := atFirst .tc 5 1 [10, 11, 12, 0x83, 0, 0]
    copyOperands (.cpyxTc 0 0) = some (3, 4, 0) ∧ s.mem.wf = true ∧ windowsPlaced s ∧ 4 * s.job.d ≤ s.job.remBytes ∧
    s.job.dstPos + 4 * s.job.d ≤ s.job.dstCap.toNat ∧ s.job.shiftDeltas.getD 0 0 * (s.job.d : Int) = -((3 : Nat) : Int) ∧
    0 < 3 ∧ 3 ≤ s.job.dstPos :=
  ⟨rfl, by decide, ⟨by decide, by decide⟩, by decide, by decide, by decide, by decide, by decide⟩
theorem witness_CopyRunRepeatsEarlierOutputOrFails_pal :
    let s := atFirst .pal 4 1 [0x55, 0x80]
    copyOperands (.cpyPal 0 0) = some (1, 3, 0) ∧ s.mem.wf = true ∧ windowsPlaced s ∧ 3 * s.job.d ≤ s.job.remBytes ∧
    s.job.dstPos + 3 * s.job.d ≤ s.job.dstCap.toNat ∧ s.job.shiftDeltas.getD 0 0 * (s.job.d : Int) = -((1 : Nat) : Int) ∧
    0 < 1 ∧ 1 ≤ s.job.dstPos :=
  ⟨rfl, by decide, ⟨by decide, by decide⟩, by decide, by decide, by decide, by decide, by decide⟩
theorem witness_CopyRunRepeatsEarlierOutputOrFails_xpal :
    let s := atFirst .pal 11 1 [0x55, 0x87, 0, 0]
    copyOperands (.cpyxPal 0 0) = some (3, 10, 0) ∧ s.mem.wf = true ∧ windowsPlaced s ∧ 10 * s.job.d ≤ s.job.remBytes ∧
    s.job.dstPos + 10 * s.job.d ≤ s.job.dstCap.toNat ∧ s.job.shiftDeltas.getD 0 0 * (s.job.d : Int) = -((1 : Nat) : Int) ∧
    0 < 1 ∧ 1 ≤ s.job.dstPos :=
  ⟨rfl, by decide, ⟨by decide, by decide⟩, by decide, by decide, by decide, by decide, by decide⟩
/-- DV20 (one pixel too many), DV17 (delta 0) and DV19 (before the output). -/
theorem witness_CopyRunRepeatsEarlierOutputOrFails_errors :
    copyOperands (.cpyTc 0 1) = some (1, 2, 0) ∧
    2 * (atFirst .tc 2 1 [0xAA, 0xBB, 0xCC, 0x81]).job.d > (atFirst .tc 2 1 [0xAA, 0xBB, 0xCC, 0x81]).job.remBytes ∧
    copyOperands (.cpyTc 8 0) = some (1, 1, 8) ∧
    (atFirst .tc 1 2 [0, 0, 0, 0xA0]).job.shiftDeltas.getD 8 0 * (3 : Int) ≥ 0 ∧
    copyOperands (.cpyTc 5 0) = some (1, 1, 5) ∧
    (3 : Int) + (atFirst .tc 8 1 [0xAA, 0xBB, 0xCC, 0x94]).job.shiftDeltas.getD 5 0 * (3 : Int) < 0 := by decide

/-- DV1 after its seed: nothing remains. -/
def allDecoded : State := atFirst .tc 1 1 [1, 2, 3]

theorem witness_DecodeJobEndsWithDone :
    StateOk allDecoded ∧ allDecoded.engine = .loop ∧ allDecoded.job.op = .decode ∧ allDecoded.job.remBytes = 0 :=
  ⟨by apply stateOk_of <;> decide, by decide, by decide, by decide⟩
theorem witness_StartBeginsAJob : State.reset.busy = false := by decide
theorem witness_StartWhileBusyStoresIrqEn : copying.busy = true := by decide

/-! ### Witnesses: the configuration check -/

/-- Each side of each limit of `ConfigurationCheck`: DV1 fits exactly; DV34, DV30, DV37, an overlap by one byte and a
window one past the top do not. -/
theorem witness_ConfigurationCheck_valid :
    let s := started .decode .tc 1 1 [1, 2, 3] 3
    s.engine = .check ∧ s.job.totalPixels ≠ 0 ∧ s.job.totalBytes ≤ s.params.maxTotalBytes ∧
    s.job.srcBase.toNat + s.job.srcLen.toNat ≤ 2 ^ s.params.addrW ∧
    s.job.dstBase.toNat + s.job.dstCap.toNat ≤ 2 ^ s.params.addrW ∧
    s.job.srcBase.toNat + s.job.srcLen.toNat ≤ s.job.dstBase.toNat ∧ s.job.totalBytes = s.job.dstCap.toNat ∧
    deviceInWindow s = false := by decide
/-- The same with devices on both sides of both windows. -/
theorem witness_ConfigurationCheck_devices :
    let s := withDevices (started .decode .tc 1 1 [1, 2, 3] 3) [(3, 61), (67, 5)]
    s.engine = .check ∧ configOk s = true ∧ deviceInWindow s = false := by decide
theorem witness_ConfigurationCheck_invalid :
    ((started .decode .tc 0 1 [1, 2, 3] 3).engine = .check ∧ (started .decode .tc 0 1 [1, 2, 3] 3).job.totalPixels = 0) ∧
    ((started .decode .tc 2 1 [1, 2, 3] 5).engine = .check ∧ (started .decode .tc 2 1 [1, 2, 3] 5).job.dstCap.toNat < 6) ∧
    ((started .encode .tc 2 1 [1, 2, 3, 4, 5] 9).engine = .check ∧
      (started .encode .tc 2 1 [1, 2, 3, 4, 5] 9).job.srcLen.toNat < 6) := by decide
theorem witness_ConfigurationCheck_placement :
    let s := nextOr State.reset (exec (.decode .tc false) { State.reset with
      width := 1, height := 1, srcBase := 0x100, srcLen := 4, dstBase := 0xFFFFFFFC, dstCap := 5 })
    let t := nextOr State.reset (exec (.decode .tc false) { State.reset with
      width := 1, height := 1, srcBase := 0x100, srcLen := 4, dstBase := 0x103, dstCap := 5 })
    (s.engine = .check ∧ 2 ^ s.params.addrW < s.job.dstBase.toNat + s.job.dstCap.toNat) ∧
    (t.engine = .check ∧ t.job.dstBase.toNat < t.job.srcBase.toNat + t.job.srcLen.toNat ∧
      t.job.srcBase.toNat < t.job.dstBase.toNat + t.job.dstCap.toNat) := by decide

/-! ### Witnesses: the register file -/

/-- The register offsets of 10_state.md R32, the first reserved one and the last of the bus, at the default base. -/
theorem witness_register_offsets :
    ∀ o ∈ [0x00, 0x04, 0x08, 0x0C, 0x10, 0x14, 0x18, 0x1C, 0x20, 0x24, 0x28, 0x2C, 0x30, 0xFFFFFFFC],
      regOffset State.reset (BitVec.ofNat 32 o) = o ∧ regOffset copying (BitVec.ofNat 32 o) = o ∧ o % 4 = 0 := by decide
theorem witness_WritingStatusAcknowledges : regOffset copying 4 = 4 := by decide
theorem witness_RegisterWritesWhileBusyAreIgnored :
    copying.busy = true ∧ regOffset copying 0 = 0 ∧ regOffset copying 8 = 8 ∧ regOffset copying 8 % 4 = 0 := by decide
theorem witness_JobRegistersReadBack : State.reset.busy = false ∧ regOffset State.reset 8 = 8 ∧
    regOffset State.reset 0x0C = 0x0C ∧ regOffset State.reset 0x10 = 0x10 ∧ regOffset State.reset 0x14 = 0x14 ∧
    regOffset State.reset 0x18 = 0x18 ∧ regOffset State.reset 0x1C = 0x1C := by decide
theorem witness_ReservedOffsetsIgnoreWrites : regOffset copying 0x20 % 4 = 0 ∧ 0x1C < regOffset copying 0x20 := by decide
/-- A narrow access, an unaligned one, and one that is neither. -/
theorem witness_OddAccessesAreRefused :
    2 ≠ 4 ∧ regOffset State.reset 0x0A % 4 ≠ 0 ∧ ¬ (4 ≠ 4 ∨ regOffset State.reset 0x08 % 4 ≠ 0) := by decide
theorem witness_PositionReadWhileBusyIsAPassedBoundary :
    StateOk copying ∧ copying.busy = true ∧ regOffset copying 0x20 = 0x20 ∧ regOffset copying 0x24 = 0x24 :=
  ⟨copying_ok, rfl, rfl, rfl⟩

/-! ### Witnesses: memory -/

/-- The bytes beside both windows of `copying`, and the last byte of the memory. -/
theorem witness_HostMemoryAccess_write :
    copying.mem.wf = true ∧ copying.busy = true ∧ ∀ a ∈ [12, 63, 88, 0xFFFFFFFF],
      a < 2 ^ copying.params.addrW ∧ deviceAt copying a = false ∧
      (a < copying.job.dstBase.toNat ∨ copying.job.dstBase.toNat + copying.job.dstCap.toNat ≤ a) ∧
      (a < copying.job.srcBase.toNat ∨ copying.job.srcBase.toNat + copying.job.srcLen.toNat ≤ a) := by decide
/-- The first and the last byte of the running job's source window, which may be read. -/
theorem witness_HostMemoryAccess_readSource :
    copying.mem.wf = true ∧ copying.busy = true ∧ ∀ a ∈ [0, 11],
      a < 2 ^ copying.params.addrW ∧ deviceAt copying a = false ∧
      (a < copying.job.dstBase.toNat ∨ copying.job.dstBase.toNat + copying.job.dstCap.toNat ≤ a) ∧
      copying.job.srcBase.toNat ≤ a ∧ a < copying.job.srcBase.toNat + copying.job.srcLen.toNat := by decide
theorem witness_WriteToARunningWindowIsRefused :
    copying.busy = true ∧ ∀ a ∈ [0, 11, 64, 87], a < 2 ^ copying.params.addrW ∧ deviceAt copying a = false ∧
      ((copying.job.srcBase.toNat ≤ a ∧ a < copying.job.srcBase.toNat + copying.job.srcLen.toNat) ∨
        (copying.job.dstBase.toNat ≤ a ∧ a < copying.job.dstBase.toNat + copying.job.dstCap.toNat)) := by decide
theorem witness_DestinationReadWhileBusyCompletes :
    copying.busy = true ∧ ∀ a ∈ [64, 87], a < 2 ^ copying.params.addrW ∧ deviceAt copying a = false ∧
      copying.job.dstBase.toNat ≤ a ∧ a < copying.job.dstBase.toNat + copying.job.dstCap.toNat := by decide
/-- A device on the last byte of the source window, and one on the first byte of the destination window. -/
theorem witness_DeviceAccessIsRefused :
    (∀ d ∈ [(2, 5), (60, 5)], (withDevices (started .decode .tc 1 1 [1, 2, 3] 3) [d]).engine = .check ∧
      configOk (withDevices (started .decode .tc 1 1 [1, 2, 3] 3) [d]) = true ∧
      deviceInWindow (withDevices (started .decode .tc 1 1 [1, 2, 3] 3) [d]) = true) ∧
    ∀ a ∈ [100, 103], a < 2 ^ (withDevices State.reset [(100, 4)]).params.addrW ∧
      deviceAt (withDevices State.reset [(100, 4)]) a = true := by decide
theorem witness_EngineWritesOnlyTheDestination :
    (∃ t, engineTurn copying = .next t) ∧ 63 < copying.job.dstBase.toNat ∧
    copying.job.dstBase.toNat + copying.job.dstCap.toNat ≤ 88 := ⟨next_of (by decide), by decide, by decide⟩
theorem witness_EngineKeepsSourceAndProducedBytes :
    StateOk copying ∧ (∃ t, engineTurn copying = .next t) ∧ 11 < copying.job.srcLen.toNat ∧
    copying.engine.checked = true ∧ 2 < produced copying ∧ copying.job.op = .decode ∧ copying.job.totalBytes ≤ 24 :=
  ⟨copying_ok, next_of (by decide), by decide, by decide, by decide, by decide, by decide⟩

/-- DV3: a seed that fails. -/
def cutSeed : State := atSeed .decode .tc 1 1 [1, 2] 3

theorem cutSeed_ok : StateOk cutSeed := by apply stateOk_of <;> decide
theorem witness_FailingDecodeStepWritesNothing_seed :
    StateOk cutSeed ∧ cutSeed.busy = true ∧ cutSeed.job.op = .decode ∧
    (∃ t, engineTurn cutSeed = .next t ∧ t.error = true) ∧ cutSeed.engine ≠ .loop :=
  ⟨cutSeed_ok, rfl, rfl, ⟨_, rfl, rfl⟩, by decide⟩
theorem witness_FailingDecodeStepWritesNothing_loop :
    StateOk cutCpyx ∧ cutCpyx.busy = true ∧ cutCpyx.job.op = .decode ∧
    (∃ t, engineTurn cutCpyx = .next t ∧ t.error = true) ∧ cutCpyx.engine = .loop :=
  ⟨cutCpyx_ok, rfl, rfl, ⟨_, rfl, rfl⟩, rfl⟩

/-! ### Witnesses: the encoder -/

/-- Index 0 (delta -1) reaches pixel 0 of EV2, index 1 (delta -2) lies before the image, and index 8 of EV9 has delta 0. -/
theorem witness_MatchEntryIsTheLongestMatch :
    matching.job.current < matching.job.totalPixels ∧ matching.job.shiftDeltas.getD 0 0 < 0 ∧
    (matching.job.current : Int) + matching.job.shiftDeltas.getD 0 0 = ((0 : Nat) : Int) ∧ matchEntry matching 0 = 2 ∧
    (matching.job.current : Int) + matching.job.shiftDeltas.getD 1 0 < 0 ∧
    (atPixelOne .tc 1 2 [0, 0, 0, 1, 1, 1] 32).job.current < (atPixelOne .tc 1 2 [0, 0, 0, 1, 1, 1] 32).job.totalPixels ∧
    0 ≤ (atPixelOne .tc 1 2 [0, 0, 0, 1, 1, 1] 32).job.shiftDeltas.getD 8 0 := by decide
theorem witness_LongestMatchLowestIndexWins : 31 < tableSize matching.job.kind ∧ 0 < (matchSearch matching).1 := by
  decide +kernel
theorem witness_CopyUnitDecodesBack :
    (31 < tableSize .tc ∧ ignoreThreshold .tc < 1 ∧ 1 ≤ 0x10000) ∧
    (15 < tableSize .pal ∧ ignoreThreshold .pal < 3 ∧ ignoreThreshold .pal < 0x10000) := by decide
theorem witness_LiteralHeaderDecodesBack : 1 ≤ 127 ∧ 128 ≤ maxThunkSize ∧ 1 ≤ maxThunkSize := by decide
/-- Four bytes after the seed of EV14: one more than fits in a capacity of 6, and an exact fit in 7. -/
theorem witness_EmissionUnitIsAllOrNothing :
    let s := atPixelOne .tc 2 1 [1, 2, 3, 4, 5, 6] 6
    let t := atPixelOne .tc 2 1 [1, 2, 3, 4, 5, 6] 7
    s.mem.wf = true ∧ s.job.dstCap.toNat < s.job.outPos + [0#8, 4, 5, 6].length ∧
    t.mem.wf = true ∧ t.job.outPos + [0#8, 4, 5, 6].length ≤ t.job.dstCap.toNat ∧ windowsPlaced t :=
  ⟨by decide, by decide, by decide, by decide, ⟨by decide, by decide⟩⟩

/-- EV15 and an exact fit: the seed of an encode job with capacity 2 and with capacity 3. -/
theorem witness_EncodeSeedEmitsTheFirstPixel :
    let s := atSeed .encode .tc 2 1 [1, 2, 3, 4, 5, 6] 2
    let t := atSeed .encode .tc 2 1 [1, 2, 3, 4, 5, 6] 3
    (StateOk s ∧ s.engine = .seed ∧ s.job.op = .encode ∧ s.job.dstCap.toNat < s.job.d) ∧
    (StateOk t ∧ t.engine = .seed ∧ t.job.op = .encode ∧ t.job.d ≤ t.job.dstCap.toNat) :=
  ⟨⟨by apply stateOk_of <;> decide, by decide, by decide, by decide⟩,
   ⟨by apply stateOk_of <;> decide, by decide, by decide, by decide⟩⟩
theorem witness_ShortMatchIsAppendedToTheLiteral :
    StateOk unmatched ∧ unmatched.engine = .loop ∧ unmatched.job.op = .encode ∧
    unmatched.job.current < unmatched.job.totalPixels ∧
    (matchSearch unmatched).1 ≤ ignoreThreshold unmatched.job.kind ∧ unmatched.job.litLen + 1 < maxThunkSize :=
  ⟨unmatched_ok, by decide, by decide, by decide, by decide +kernel, by decide⟩
/-- TC, three pixels, the last two alike, at pixel 2: one pixel is pending, whose unit takes 4 bytes at offset 3, and index 0
matches, whose copy takes 1 byte. -/
def pendingAndMatch (cap : Nat) : State :=
  let s := atPixelOne .tc 3 1 [1, 2, 3, 4, 5, 6, 4, 5, 6] cap
  { s with job := { s.job with current := 2, litLen := 1, passed := (6, 3) :: s.job.passed } }

theorem pendingAndMatch_ok (cap : Nat) (h : cap = 6 ∨ cap = 7 ∨ cap = 8) : StateOk (pendingAndMatch cap) := by
  rcases h with rfl | rfl | rfl <;> apply stateOk_of <;> decide

/-- The hypotheses that the clauses of `LongMatchFlushesThenCopies` share, at each capacity. -/
theorem pendingAndMatch_pass : ∀ cap ∈ [6, 7, 8],
    (pendingAndMatch cap).engine = .loop ∧ (pendingAndMatch cap).job.op = .encode ∧
    (pendingAndMatch cap).job.current < (pendingAndMatch cap).job.totalPixels ∧
    ignoreThreshold (pendingAndMatch cap).job.kind < (matchSearch (pendingAndMatch cap)).1 ∧
    (pendingBytes (pendingAndMatch cap)).length = 4 ∧
    (copyUnit (pendingAndMatch cap).job.kind (matchSearch (pendingAndMatch cap)).2
      (matchSearch (pendingAndMatch cap)).1).length = 1 := by decide +kernel

/-- Both units fit exactly in 8 bytes, the flush alone in 7, and neither in 6. -/
theorem witness_LongMatchFlushesThenCopies :
    (StateOk (pendingAndMatch 8) ∧ (pendingAndMatch 8).job.outPos + (4 + 1) ≤ (pendingAndMatch 8).job.dstCap.toNat) ∧
    (StateOk (pendingAndMatch 7) ∧ (pendingAndMatch 7).job.outPos + 4 ≤ (pendingAndMatch 7).job.dstCap.toNat ∧
      (pendingAndMatch 7).job.dstCap.toNat < (pendingAndMatch 7).job.outPos + (4 + 1)) ∧
    (StateOk (pendingAndMatch 6) ∧ (pendingAndMatch 6).job.dstCap.toNat < (pendingAndMatch 6).job.outPos + 4) :=
  ⟨⟨pendingAndMatch_ok 8 (by decide), by decide⟩, ⟨pendingAndMatch_ok 7 (by decide), by decide, by decide⟩,
    ⟨pendingAndMatch_ok 6 (by decide), by decide⟩⟩

/-- By 60_exceptions.md R277 the flush that fits stays written, and the positions are those after it. -/
theorem test_encode_copy_overflows_after_flush :
    registersAfter (pendingAndMatch 7) = (0x604, 6, 7, 2) ∧
    (nextOr State.reset (step (pendingAndMatch 7))).mem.readList 67 4 = [0, 4, 5, 6] := by decide +kernel

/-- EV1 after its seed: every pixel is assigned. -/
def allEncoded : State := atPixelOne .tc 1 1 [1, 2, 3] 3

/-- EV3 after its pass: one pixel is pending, and its unit takes four bytes at offset 3. -/
def allAssigned (cap : Nat) : State :=
  let s := atPixelOne .tc 2 1 [1, 2, 3, 4, 5, 6] cap
  { s with job := { s.job with current := 2, litLen := 1, passed := (6, 3) :: s.job.passed } }

/-- Nothing pending, a pending literal that fits exactly in 7 bytes, and EV14, whose capacity of 5 is too small for it. -/
theorem witness_EncodeJobEndsWithDone :
    (StateOk allEncoded ∧ allEncoded.engine = .loop ∧ allEncoded.job.op = .encode ∧
      allEncoded.job.current = allEncoded.job.totalPixels ∧
      allEncoded.job.outPos + (pendingBytes allEncoded).length ≤ allEncoded.job.dstCap.toNat) ∧
    (StateOk (allAssigned 7) ∧ (allAssigned 7).engine = .loop ∧ (allAssigned 7).job.op = .encode ∧
      (allAssigned 7).job.current = (allAssigned 7).job.totalPixels ∧
      (allAssigned 7).job.outPos + (pendingBytes (allAssigned 7)).length ≤ (allAssigned 7).job.dstCap.toNat) ∧
    (StateOk (allAssigned 5) ∧ (allAssigned 5).engine = .loop ∧ (allAssigned 5).job.op = .encode ∧
      (allAssigned 5).job.current = (allAssigned 5).job.totalPixels ∧
      (allAssigned 5).job.dstCap.toNat < (allAssigned 5).job.outPos + (pendingBytes (allAssigned 5)).length) :=
  ⟨⟨by apply stateOk_of <;> decide, by decide, by decide, by decide, by decide⟩,
   ⟨by apply stateOk_of <;> decide, by decide, by decide, by decide, by decide⟩,
   ⟨by apply stateOk_of <;> decide, by decide, by decide, by decide, by decide⟩⟩

theorem test_encode_ev14 : registersAfter (allAssigned 5) = (0x604, 6, 3, 2) := by decide

/-- The literal limit of 95_test_vectors.md, one pixel before it: PAL, 0x1007F pixels. The unit takes 0x10081 bytes. -/
def almostFull (cap : Word) : State :=
  let s := { started .encode .pal 0x1007F 1 [] 0 with
    srcLen := 0x1007F, dstBase := 0x20000, dstCap := cap, engine := .loop }
  { s with job := { s.job with
    srcLen := 0x1007F, dstBase := 0x20000, dstCap := cap
    outPos := 1, litStart := 1, litLen := 0x1007D, current := 0x1007E, passed := [(0x1007E, 1), (0, 0)] } }

/-- The hypotheses that both clauses share. -/
theorem almostFull_pass (cap : Word) (h : cap = 0x10081 ∨ cap = 0x10082) :
    (almostFull cap).engine = .loop ∧ (almostFull cap).job.op = .encode ∧
    (almostFull cap).job.current < (almostFull cap).job.totalPixels ∧
    (matchSearch (almostFull cap)).1 ≤ ignoreThreshold (almostFull cap).job.kind ∧
    (almostFull cap).job.litLen + 1 = 0xFFFF + 0x7F := by
  rcases h with rfl | rfl <;> exact ⟨by decide, by decide, by decide, by decide +kernel, by decide⟩

/-- An exact fit, and one byte too few. -/
theorem witness_FullLiteralIsFlushedAtOnce (a : Nat) :
    (StateOk (almostFull 0x10082) ∧ (almostFull 0x10082).job.outPos + ([0x7F#8, 0xFE#8, 0xFF#8] ++
      (almostFull 0x10082).mem.readList a (0x1007E * (almostFull 0x10082).job.d)).length ≤
        (almostFull 0x10082).job.dstCap.toNat) ∧
    (StateOk (almostFull 0x10081) ∧ (almostFull 0x10081).job.dstCap.toNat <
      (almostFull 0x10081).job.outPos + ([0x7F#8, 0xFE#8, 0xFF#8] ++
        (almostFull 0x10081).mem.readList a (0x1007E * (almostFull 0x10081).job.d)).length) := by
  refine ⟨⟨by apply stateOk_of <;> decide, ?_⟩, ⟨by apply stateOk_of <;> decide, ?_⟩⟩ <;>
    rw [List.length_append, Memory.readList_length] <;> decide

/-! ### Witnesses: whole jobs -/

/-- DV1 at its configuration check: no turns listed, and host turns between and around the engine's. -/
theorem witness_EveryJobEnds :
    let s := started .decode .tc 1 1 [1, 2, 3] 3
    let t := { s with turns := [.host (.regRead 4 4), .engine, .host (.regWrite 0 4 0), .engine, .host (.memRead 0)] }
    (StateOk s ∧ s.engine = .check ∧ deviceInWindow s = false ∧ (∀ turn ∈ s.turns.take 3, turn ≠ .host .reset) ∧
      s.job.totalPixels + 2 = engineTurnsIn 3 s.turns) ∧
    (StateOk t ∧ t.engine = .check ∧ deviceInWindow t = false ∧ (∀ turn ∈ t.turns.take 6, turn ≠ .host .reset) ∧
      t.job.totalPixels + 2 = engineTurnsIn 6 t.turns) :=
  ⟨⟨by apply stateOk_of <;> decide, by decide, by decide, by decide, by decide⟩,
   ⟨by apply stateOk_of <;> decide, by decide, by decide, by decide, by decide⟩⟩
theorem witness_EngineTurnEndsOrAdvancesTheJob :
    (StateOk copying ∧ copying.busy = true ∧ deviceInWindow copying = false) ∧
    (StateOk matching ∧ matching.busy = true ∧ deviceInWindow matching = false) :=
  ⟨⟨copying_ok, by decide, by decide⟩, ⟨matching_ok, by decide, by decide⟩⟩
/-- A write beside the destination window of a running job, and one to a job register. -/
theorem witness_HostTurnKeepsARunningJob :
    copying.busy = true ∧ (∃ t, hostTurn (.memWrite 88 1) copying = .next t) ∧
    (∃ t, hostTurn (.regWrite 8 4 7) copying = .next t) :=
  ⟨by decide, next_of (by decide), next_of (by decide)⟩

/-- `copying` with another byte in the part of the destination window that is not produced yet. -/
def copyingOther : State := { copying with mem := copying.mem.write 70 0xEE }

theorem copyingOther_ok : StateOk copyingOther := by apply stateOk_of <;> decide
theorem witness_PriorDestinationIsNeverRead :
    StateOk copying ∧ StateOk copyingOther ∧ copying.engine.checked = true ∧
    AgreeUpTo (produced copying) copying copyingOther ∧ (∃ t, engineTurn copying = .next t) ∧
    copying.mem ≠ copyingOther.mem :=
  ⟨copying_ok, copyingOther_ok, by decide, ⟨rfl, by decide, by decide⟩, next_of (by decide), by decide⟩

/-- EV3 with a capacity of exactly R235's bound, before its seed and after it. -/
theorem witness_SufficientCapacityNeverOverflows :
    let s := atSeed .encode .tc 2 1 [1, 2, 3, 4, 5, 6] 7
    let t := atPixelOne .tc 2 1 [1, 2, 3, 4, 5, 6] 7
    (StateOk s ∧ s.job.op = .encode ∧ payloadBound s.job ≤ s.job.dstCap.toNat ∧ s.engine = .seed ∧
      ∃ u, engineTurn s = .next u) ∧
    (StateOk t ∧ t.job.op = .encode ∧ payloadBound t.job ≤ t.job.dstCap.toNat ∧ t.engine = .loop ∧
      payloadWithinBound t ∧ ∃ u, engineTurn t = .next u) :=
  ⟨⟨by apply stateOk_of <;> decide, by decide, by decide, by decide, next_of (by decide)⟩,
   ⟨by apply stateOk_of <;> decide, by decide, by decide, by decide, by unfold payloadWithinBound; decide, next_of (by decide +kernel)⟩⟩

/-- EV1 from its seed, what its two steps leave, and the decode job of DV1 over the payload. -/
theorem witness_DecodeOfEncodeReproducesThePixels :
    let s := atSeed .encode .tc 1 1 [1, 2, 3] 3
    let u := atSeed .decode .tc 1 1 [1, 2, 3] 3
    ∃ e, StateOk s ∧ s.engine = .seed ∧ s.job.op = .encode ∧ s.turns = [] ∧ Sys2Proof.core.run 2 s = .next e ∧
      endedDone e ∧ StateOk u ∧ u.engine = .seed ∧ u.job.op = .decode ∧ u.turns = [] ∧ u.job.kind = s.job.kind ∧
      u.job.width = s.job.width ∧ u.job.height = s.job.height ∧ u.params = s.params ∧
      e.dstPosReg.toNat ≤ u.job.srcLen.toNat ∧
      ∀ i, i < e.dstPosReg.toNat → u.mem.read (u.job.srcAddr i) = e.mem.read (s.job.dstAddr i) :=
  ⟨_, by apply stateOk_of <;> decide, by decide, by decide, by decide, rfl, ⟨by decide, by decide, by decide⟩,
    by apply stateOk_of <;> decide, by decide, by decide, by decide, by decide, by decide, by decide, by decide,
    by decide, by decide⟩

end Sys2Proof.Tests
end

/-! # Proofs: the state (10_state.md)

The invariant in layers, one inversion lemma per kind of turn (`engineTurn_turn`, `hostTurn_turn`, `step_turn`), and the
statements of the family: each is a case per turn, or a register read or write at an offset. -/

namespace Sys2Proof.Machine

/-! ## The invariant, in the parts that the steps keep

`StateOk` in three layers: what depends on the latched constants and the registers alone (`SetupOk`), what every state of a
checked job has (`RunOk`), and the cursors. -/

/-! ### What a running job keeps -/

/-- The constants latched at START (10_state.md R42) with the cursors and the passed boundaries blanked. -/
def Job.constants (j : Job) : Job :=
  { Job.blank with
    op := j.op, kind := j.kind, width := j.width, height := j.height
    srcBase := j.srcBase, srcLen := j.srcLen, dstBase := j.dstBase, dstCap := j.dstCap
    shiftDeltas := j.shiftDeltas }

/-- The state without what the engine changes before a job ends: its mode, the memory, the cursors and the boundaries. -/
def State.setup (s : State) : State := { s with engine := .idle, mem := [], job := s.job.constants }

/-- The part of the invariant of a checked job that speaks of registers, flags and latched constants only. -/
structure SetupOk (s : State) : Prop where
  bases : BasesOk s
  notDone : s.done = false
  noError : s.error = false
  noCode : s.errCode = 0
  latch : LatchOk s
  config : configOk s = true
  noDevice : deviceInWindow s = false

theorem setupOk_setup (s : State) : SetupOk s.setup ↔ SetupOk s :=
  ⟨fun h => { h with bases := { h.bases with }, latch := { h.latch with } },
   fun h => { h with bases := { h.bases with }, latch := { h.latch with } }⟩

theorem SetupOk.of_setup_eq {s t : State} (h : SetupOk s) (he : t.setup = s.setup) : SetupOk t :=
  (setupOk_setup t).1 (he ▸ (setupOk_setup s).2 h)

/-- What every state of a job that has passed its configuration check satisfies, in the middle of a step too. -/
structure RunOk (s : State) : Prop where
  setup : SetupOk s
  memory : MemoryOk s
  boundaries : BoundariesOk s

theorem busy_of_checked {s : State} (h : s.engine.checked = true) : s.busy = true := by
  cases he : s.engine <;> simp [State.busy, Engine.checked, he] at h ⊢

theorem StateOk.runOk {s : State} (h : StateOk s) (hc : s.engine.checked = true) : RunOk s :=
  have hb := busy_of_checked hc
  have hq := h.status.quietWhileBusy hb
  { setup :=
      { bases := h.bases, notDone := hq.1, noError := hq.2, noCode := h.status.noCode hq.2, latch := h.latch hb
        config := h.config hc, noDevice := h.noDevice hc }
    memory := h.memory
    boundaries := h.boundaries hb }

/-! ### The invariant from its parts -/

theorem StatusOk.quiet {s : State} (hd : s.done = false) (he : s.error = false) (hc : s.errCode = 0) : StatusOk s where
  exclusive := by simp [hd]
  quietWhileBusy _ := ⟨hd, he⟩
  noCode _ := hc
  codeInRange h := by simp [he] at h

/-- While IDLE the invariant is about the memory, the bases and the flags only. -/
theorem StateOk.of_idle {s : State} (hi : s.engine = .idle) (hm : MemoryOk s) (hb : BasesOk s) (hs : StatusOk s) :
    StateOk s where
  memory := hm
  bases := hb
  status := hs
  latch h := by simp [State.busy, hi] at h
  boundaries h := by simp [State.busy, hi] at h
  config h := by simp [Engine.checked, hi] at h
  noDevice h := by simp [Engine.checked, hi] at h
  decoder h := by simp [hi] at h
  encoder h := by simp [hi] at h

/-- A running state with good cursors satisfies the invariant. -/
theorem RunOk.stateOk {s : State} (h : RunOk s) (hd : s.job.op = .decode → DecoderOk s)
    (he : s.job.op = .encode → EncoderOk s) : StateOk s where
  memory := h.memory
  bases := h.setup.bases
  status := .quiet h.setup.notDone h.setup.noError h.setup.noCode
  latch _ := h.setup.latch
  boundaries _ := h.boundaries
  config _ := h.setup.config
  noDevice _ := h.setup.noDevice
  decoder _ := hd
  encoder _ := he

/-- Every job error has one of the codes 1 to 6 (60_exceptions.md R271). -/
theorem JobError.code_range (e : JobError) : 1 ≤ e.code.toNat ∧ e.code.toNat ≤ 6 := by
  cases e <;> decide

/-- Taking a job error keeps the invariant (60_exceptions.md R276). -/
theorem stateOk_raise {s : State} (hm : MemoryOk s) (hb : BasesOk s) (hd : s.done = false)
    (e : JobError) (sp dp ep : Nat) : StateOk (s.raise e sp dp ep) :=
  .of_idle rfl { hm with } { hb with }
    { exclusive := by simp [hd]
      quietWhileBusy := by simp
      noCode := by simp
      codeInRange := fun _ => e.code_range }

theorem RunOk.raise {s : State} (h : RunOk s) (e : JobError) (sp dp ep : Nat) : StateOk (s.raise e sp dp ep) :=
  stateOk_raise h.memory h.setup.bases h.setup.notDone e sp dp ep

theorem RunOk.raiseInCommand {s : State} (h : RunOk s) (e : JobError) : StateOk (s.raiseInCommand e) :=
  stateOk_raise (s := { s with job := { s.job with cmdStart := s.job.srcPos } })
    { h.memory with } { h.setup.bases with } h.setup.notDone ..

/-- `EndJob(DONE)` keeps the invariant (60_exceptions.md R279). -/
theorem RunOk.endDone {s : State} (h : RunOk s) (sp dp : Nat) : StateOk (s.endDone sp dp) :=
  .of_idle rfl { h.memory with } { h.setup.bases with }
    { exclusive := by simp [h.setup.noError]
      quietWhileBusy := by simp
      noCode := fun _ => h.setup.noCode
      codeInRange := by simp [h.setup.noError] }

/-- The invariant does not speak of the host's own fields or the interrupt enable, and of the memory only that it is
legal. -/
theorem StateOk.withHostFields {s : State} (h : StateOk s) (irq : Bool) (mem : Memory) (turns : List Turn) (rdata : Word)
    (draws : Nat) (hw : mem.wf = true) (hb : mem.below s.addressTop = true) :
    StateOk { s with irqEn := irq, mem := mem, turns := turns, rdata := rdata, draws := draws } where
  memory := ⟨hw, hb⟩
  bases := { h.bases with }
  status := { h.status with }
  latch hb := { h.latch hb with }
  boundaries hb := { h.boundaries hb with }
  config := h.config
  noDevice := h.noDevice
  decoder hl ho := { h.decoder hl ho with }
  encoder hl ho := { h.encoder hl ho with }

/-! ### Memory, boundaries and windows of a running job -/

theorem MemoryOk.copyForward {s t : State} (h : MemoryOk s) {off n src : Nat} (hd : s.dstDefined off n = true)
    (hm : t.mem = s.mem.copyForward src (s.job.dstAddr off) n) (ht : t.addressTop = s.addressTop) : MemoryOk t := by
  rw [dstDefined_iff] at hd
  constructor
  · rw [hm]; exact Memory.copyForward_wf _ _ _ h.canonical
  · rw [hm, ht]; exact Memory.copyForward_below _ _ _ h.inside (by unfold Job.dstAddr; omega)

theorem MemoryOk.writeList {s t : State} (h : MemoryOk s) {off : Nat} {bs : List Byte}
    (hd : s.dstDefined off bs.length = true) (hm : t.mem = s.mem.writeList (s.job.dstAddr off) bs)
    (ht : t.addressTop = s.addressTop) : MemoryOk t := by
  rw [dstDefined_iff] at hd
  constructor
  · rw [hm]; exact Memory.writeList_wf _ _ h.canonical
  · rw [hm, ht]; exact Memory.writeList_below _ _ h.inside (by unfold Job.dstAddr; omega)

theorem BoundariesOk.cons {s t : State} (h : BoundariesOk s) {sp dp : Nat} (hp : t.job.passed = (sp, dp) :: s.job.passed)
    (hl : t.job.srcLen = s.job.srcLen) (hc : t.job.dstCap = s.job.dstCap)
    (hs : sp ≤ s.job.srcLen.toNat) (hd : dp ≤ s.job.dstCap.toNat) : BoundariesOk t where
  some_passed := by simp [hp]
  inWindows := by
    rw [hp, hl, hc]
    exact List.forall_mem_cons.2 ⟨⟨hs, hd⟩, h.inWindows⟩

theorem d_le_totalBytes {s : State} (h : configOk s = true) : s.job.d ≤ s.job.totalBytes :=
  Nat.le_mul_of_pos_left _ (Nat.pos_of_ne_zero ((configOk_iff s).1 h).1)

/-- The source image of an encode job lies inside its source window (60_exceptions.md R273 check 5). -/
theorem totalBytes_le_srcLen {s : State} (h : configOk s = true) (ho : s.job.op = .encode) :
    s.job.totalBytes ≤ s.job.srcLen.toNat := by
  obtain ⟨-, -, -, -, -, hc⟩ := (configOk_iff s).1 h
  simpa [capacityOk, ho] using hc

/-! ## What a turn of the engine can do -/

/-! ### The header of a command -/

/-- The header bytes of a command form. -/
def CommandForm.header : CommandForm → Nat
  | .literal header _ => header
  | .copy header _ _ => header

theorem withExt_ok {make : BitVec 16 → Instr} {bs rest : List Byte} {i : Instr} (h : withExt make bs = .ok (i, rest)) :
    ∃ lo hi, bs = lo :: hi :: rest ∧ i = make (le16 lo hi) := by
  unfold withExt at h
  split at h
  · cases h; exact ⟨_, _, rfl, rfl⟩
  · cases h

/-- A copy command's form counts the command byte and the extension that were read (30_encoding.md R114, R115). -/
theorem decodeCopy_header {k : Kind} {cmd : Byte} {bs rest : List Byte} {i : Instr} {f : CommandForm}
    (h : decodeCopy k cmd bs = .ok (i, rest)) (hf : commandForm i = some f) : f.header + rest.length = bs.length + 1 := by
  cases k <;> simp only [decodeCopy] at h <;> split at h
  case tc.isTrue | pal.isTrue =>
    obtain ⟨lo, hi, rfl, rfl⟩ := withExt_ok h
    cases hf
    simp [CommandForm.header]
    omega
  case tc.isFalse | pal.isFalse =>
    cases h
    cases hf
    simp [CommandForm.header]
    omega

/-- A command's form counts the bytes that the decoder read for it (30_encoding.md R113 to R115). -/
theorem decodeCommand_header {k : Kind} {bs rest : List Byte} {i : Instr} {f : CommandForm}
    (h : decodeCommand k bs = .ok (i, rest)) (hf : commandForm i = some f) : f.header + rest.length = bs.length := by
  cases bs with
  | nil => cases h
  | cons cmd bs =>
    simp only [decodeCommand] at h
    split at h
    · obtain ⟨lo, hi, rfl, rfl⟩ := withExt_ok h
      cases hf
      simp [CommandForm.header]
      omega
    · split at h
      · cases h
        cases hf
        simp [CommandForm.header]
        omega
      · exact decodeCopy_header h hf

/-- The header of the command at the read cursor lies in the payload (10_state.md R43; 41_decoder.md R173). -/
theorem header_in_payload {s : State} {rest : List Byte} {i : Instr} {f : CommandForm}
    (h : decodeCommand s.job.kind (fetchBytes s) = .ok (i, rest)) (hf : commandForm i = some f) (hp : 0 < f.header) :
    s.job.srcPos + f.header ≤ s.job.srcLen.toNat := by
  have hl := decodeCommand_header h hf
  simp only [fetchBytes, headerRoom, Memory.readList_length] at hl
  omega

theorem commandForm_header_pos {i : Instr} {f : CommandForm} (h : commandForm i = some f) : 0 < f.header := by
  cases i <;> cases h <;> exact Nat.succ_pos _

/-! ### A turn of a decode job -/

/-- Everything an answered turn of a running decode job can leave (41_decoder.md R172, R173, R184). -/
inductive DecodeTurn (s : State) : State → Prop where
  | seedShort (hl : s.engine = .seed) : DecodeTurn s (s.raise .truncated 0 0 0)
  | seeded (hl : s.engine = .seed) (hs : s.srcDefined 0 s.job.d = true) (hd : s.dstDefined 0 s.job.d = true) :
      DecodeTurn s (seedDone s)
  | failed (hl : s.engine = .loop) (e : JobError) : DecodeTurn s (s.raiseInCommand e)
  | command (hl : s.engine = .loop) (n src pos : Nat) (hn : n * s.job.d ≤ s.job.remBytes)
      (hp : pos ≤ s.job.srcLen.toNat) (hd : s.dstDefined s.job.dstPos (n * s.job.d) = true) :
      DecodeTurn s (s.commandDone
        (s.mem.copyForward src (s.job.dstAddr s.job.dstPos) (n * s.job.d)) pos (n * s.job.d))
  | finished (hl : s.engine = .loop) (hr : s.job.remBytes = 0) : DecodeTurn s (s.endDone s.job.srcPos s.job.dstPos)

theorem execSeed_turn {s t : State} (hl : s.engine = .seed) (h : execSeed s = .next t) : DecodeTurn s t := by
  rcases execSeed_outcome s with ⟨-, e⟩ | ⟨-, -, e⟩ | ⟨-, -, e⟩ | ⟨hs, hd, e⟩ <;> rw [e] at h <;> cases h
  · exact .seedShort hl
  · exact .seeded hl hs hd

theorem literalBody_turn {s t : State} (hl : s.engine = .loop) {header n : Nat} (h : literalBody header n s = .next t) :
    DecodeTurn s t := by
  rcases literalBody_outcome header n s with ⟨-, e⟩ | ⟨-, -, e⟩ | ⟨-, -, -, e⟩ | ⟨-, -, -, e⟩ | ⟨hn, hs, hd, e⟩ <;>
    rw [e] at h <;> cases h
  · exact .failed hl _
  · exact .failed hl _
  · exact .command hl n _ _ hn ((srcDefined_iff ..).1 hs).1 hd

theorem copyBody_turn {s t : State} (hl : s.engine = .loop) {header n idx : Nat}
    (hp : s.job.srcPos + header ≤ s.job.srcLen.toNat) (h : copyBody header n idx s = .next t) : DecodeTurn s t := by
  rcases copyBody_outcome header n idx s with ⟨-, e⟩ | ⟨-, -, e⟩ | ⟨-, -, e⟩ | ⟨hn, -, -, hd, e⟩ <;>
    rw [e] at h <;> cases h
  · exact .failed hl _
  · exact .failed hl _
  · exact .command hl n _ _ hn hp hd

theorem decodeStep_turn {s t : State} (hl : s.engine = .loop) (h : decodeStep s = .next t) : DecodeTurn s t := by
  rcases decodeStep_outcome s with ⟨-, -, e⟩ | ⟨e, -⟩ | ⟨i, rest, f, hi, hf, e, hrun⟩
  · rw [e] at h; cases h
  · rw [e] at h; cases h; exact .failed hl _
  · have hp := header_in_payload hi hf (commandForm_header_pos hf)
    rw [e, hrun] at h
    cases f with
    | literal header n => exact literalBody_turn hl h
    | copy header n idx => exact copyBody_turn hl hp h

/-! ### A turn of an encode job -/

theorem emitSeq_go {bytes : List Byte} {s t : State} (h : emitSeq bytes s = .go t) :
    s.dstDefined s.job.outPos bytes.length = true ∧ t = unitDone bytes s := by
  rcases emitSeq_outcome bytes s with ⟨-, e⟩ | ⟨-, -, e⟩ | ⟨hd, e⟩ <;> rw [e] at h <;> cases h
  exact ⟨hd, rfl⟩

theorem emitSeq_stop {bytes : List Byte} {s t : State} (h : emitSeq bytes s = .stop (.next t)) :
    t = s.raiseInUnit .dstOverflow := by
  rcases emitSeq_outcome bytes s with ⟨-, e⟩ | ⟨-, -, e⟩ | ⟨-, e⟩ <;> rw [e] at h <;> cases h
  rfl

theorem flushLiteral_go {s t : State} (h : flushLiteral s = .go t) :
    (s.job.litLen = 0 ∧ t = s) ∨
    (s.dstDefined s.job.outPos (literalUnit s).length = true ∧ t = flushDone s) := by
  rcases flushLiteral_outcome s with ⟨h0, e⟩ | ⟨-, -, e⟩ | ⟨-, -, e⟩ | ⟨-, -, -, e⟩ | ⟨-, -, hd, e⟩ <;>
    rw [e] at h <;> cases h
  · exact .inl ⟨h0, rfl⟩
  · exact .inr ⟨hd, rfl⟩

theorem flushLiteral_stop {s t : State} (h : flushLiteral s = .stop (.next t)) : t = s.raiseInUnit .dstOverflow := by
  rcases flushLiteral_outcome s with ⟨-, e⟩ | ⟨-, -, e⟩ | ⟨-, -, e⟩ | ⟨-, -, -, e⟩ | ⟨-, -, -, e⟩ <;>
    rw [e] at h <;> cases h
  rfl

/-- The state after the copy unit of a match of `len` pixels at index `idx` (42_encoder.md R227, R228). -/
def copyDone (len idx : Nat) (s : State) : State :=
  { s with
    mem := s.mem.writeList (s.job.dstAddr s.job.outPos) (copyUnit s.job.kind idx len)
    job := { s.job with
      outPos := s.job.outPos + (copyUnit s.job.kind idx len).length
      current := s.job.current + len } }

@[simp] theorem copyDone_params (len idx : Nat) (s : State) : (copyDone len idx s).params = s.params := rfl
@[simp] theorem copyDone_job_current (len idx : Nat) (s : State) :
    (copyDone len idx s).job.current = s.job.current + len := rfl
@[simp] theorem copyDone_job_litLen (len idx : Nat) (s : State) : (copyDone len idx s).job.litLen = s.job.litLen := rfl
@[simp] theorem copyDone_job_outPos (len idx : Nat) (s : State) :
    (copyDone len idx s).job.outPos = s.job.outPos + (copyUnit s.job.kind idx len).length := rfl
@[simp] theorem copyDone_mem (len idx : Nat) (s : State) :
    (copyDone len idx s).mem = s.mem.writeList (s.job.dstAddr s.job.outPos) (copyUnit s.job.kind idx len) := rfl

/-- The states in which a turn of a running encode job emits a unit (42_encoder.md R226, R227, R231). -/
inductive EmissionPoint (s : State) : State → Prop where
  | start : EmissionPoint s s
  | noted : EmissionPoint s (noteMatch s)
  | appended (hc : s.job.current < s.job.totalPixels) : EmissionPoint s (appendLiteral (noteMatch s))
  | flushed {t : State} (hf : flushLiteral (noteMatch s) = .go t) : EmissionPoint s t

/-- Everything an answered turn of a running encode job can leave (42_encoder.md R212, R213, R224, R231). -/
inductive EncodeTurn (s : State) : State → Prop where
  | seedOverflow (hl : s.engine = .seed) : EncodeTurn s ((encodeSetup s).raiseInUnit .dstOverflow)
  | seeded (hl : s.engine = .seed) (hs : s.srcDefined 0 s.job.d = true) (hd : s.dstDefined 0 s.job.d = true) :
      EncodeTurn s (encodeSeedDone s)
  | overflow {t : State} (hl : s.engine = .loop) (hp : EmissionPoint s t) : EncodeTurn s (t.raiseInUnit .dstOverflow)
  | copied {t : State} (hl : s.engine = .loop) (hc : s.job.current < s.job.totalPixels)
      (hf : flushLiteral (noteMatch s) = .go t)
      (hd : t.dstDefined t.job.outPos (copyUnit t.job.kind (matchSearch s).2 (matchSearch s).1).length = true) :
      EncodeTurn s (encoderBoundary (copyDone (matchSearch s).1 (matchSearch s).2 t))
  | appended (hl : s.engine = .loop) (hc : s.job.current < s.job.totalPixels) (hn : s.job.litLen + 1 ≠ maxThunkSize) :
      EncodeTurn s (encoderBoundary (appendLiteral (noteMatch s)))
  | filled {t : State} (hl : s.engine = .loop) (hc : s.job.current < s.job.totalPixels)
      (hf : flushLiteral (appendLiteral (noteMatch s)) = .go t) : EncodeTurn s (encoderBoundary t)
  | finished {t : State} (hl : s.engine = .loop) (hc : s.job.totalPixels ≤ s.job.current) (hf : flushLiteral s = .go t) :
      EncodeTurn s (t.endDone t.job.totalBytes t.job.outPos)

theorem encodeSeed_turn {s t : State} (hl : s.engine = .seed) (h : encodeSeed s = .next t) : EncodeTurn s t := by
  rcases encodeSeed_outcome s with ⟨-, e⟩ | ⟨-, -, e⟩ | ⟨-, -, -, e⟩ | ⟨hs, hd, e⟩ <;> rw [e] at h <;> cases h
  · exact .seedOverflow hl
  · exact .seeded hl hs hd

theorem copyPath_turn {s t : State} (hl : s.engine = .loop) (hc : s.job.current < s.job.totalPixels)
    (h : copyPath (matchSearch s).1 (matchSearch s).2 (noteMatch s) = .next t) : EncodeTurn s t := by
  rcases copyPath_outcome (matchSearch s).1 (matchSearch s).2 (noteMatch s) with
    ⟨o, hf, e⟩ | ⟨u, o, hf, he, e⟩ | ⟨u, v, hf, he, e⟩ <;> rw [e] at h
  · rw [h] at hf
    rw [flushLiteral_stop hf]
    exact .overflow hl .noted
  · rw [h] at he
    rw [emitSeq_stop he]
    exact .overflow hl (.flushed hf)
  · obtain ⟨hd, rfl⟩ := emitSeq_go he
    cases h
    exact .copied hl hc hf hd

theorem literalPath_turn {s t : State} (hl : s.engine = .loop) (hc : s.job.current < s.job.totalPixels)
    (h : literalPath (noteMatch s) = .next t) : EncodeTurn s t := by
  rcases literalPath_outcome (noteMatch s) with ⟨hn, e⟩ | ⟨-, o, hf, e⟩ | ⟨-, u, hf, e⟩ <;> rw [e] at h
  · cases h
    exact .appended hl hc hn
  · rw [h] at hf
    rw [flushLiteral_stop hf]
    exact .overflow hl (.appended hc)
  · cases h
    exact .filled hl hc hf

theorem encodePass_turn {s t : State} (hl : s.engine = .loop) (hc : s.job.current < s.job.totalPixels)
    (h : encodePass s = .next t) : EncodeTurn s t := by
  rcases encodePass_outcome s with ⟨-, e⟩ | ⟨-, -, e⟩ | ⟨-, -, e⟩ <;> rw [e] at h
  · cases h
  · exact copyPath_turn hl hc h
  · exact literalPath_turn hl hc h

theorem encodeFinish_turn {s t : State} (hl : s.engine = .loop) (hc : s.job.totalPixels ≤ s.job.current)
    (h : encodeFinish s = .next t) : EncodeTurn s t := by
  rcases encodeFinish_outcome s with ⟨o, hf, e⟩ | ⟨u, hf, e⟩ <;> rw [e] at h
  · rw [h] at hf
    rw [flushLiteral_stop hf]
    exact .overflow hl .start
  · cases h
    exact .finished hl hc hf

/-! ### A turn of the engine -/

/-- Everything an answered turn of the engine can leave (70_reset_and_hazards.md R312). -/
inductive EngineTurn (s : State) : State → Prop where
  | idle : EngineTurn s s
  | checkFailed (he : s.engine = .check) : EngineTurn s (s.raise .config 0 0 0)
  | checkPassed (he : s.engine = .check) (hc : configOk s = true) (hd : deviceInWindow s = false) :
      EngineTurn s { s with engine := .seed }
  | decode {t : State} (ho : s.job.op = .decode) (h : DecodeTurn s t) : EngineTurn s t
  | encode {t : State} (ho : s.job.op = .encode) (h : EncodeTurn s t) : EngineTurn s t

theorem configCheck_turn {s t : State} (he : s.engine = .check) (h : configCheck s = .next t) : EngineTurn s t := by
  rcases configCheck_outcome s with ⟨-, e⟩ | ⟨-, -, e⟩ | ⟨hc, hd, e⟩ <;> rw [e] at h <;> cases h
  · exact .checkFailed he
  · exact .checkPassed he hc hd

theorem engineTurn_turn {s t : State} (h : engineTurn s = .next t) : EngineTurn s t := by
  unfold engineTurn at h
  split at h
  case h_1 => cases h; exact .idle
  case h_2 he => exact configCheck_turn he h
  case h_3 he ho => exact .decode ho (execSeed_turn he h)
  case h_4 he ho => exact .encode ho (encodeSeed_turn he h)
  case h_5 he ho =>
    split at h
    next hr => cases h; exact .decode ho (.finished he hr)
    next => exact .decode ho (decodeStep_turn he h)
  case h_6 he ho =>
    split at h
    next hc => exact .encode ho (encodePass_turn he hc h)
    next hc => exact .encode ho (encodeFinish_turn he (Nat.le_of_not_lt hc) h)

/-! ## Every turn of the engine keeps the invariant -/

/-! ### The decoder -/

/-- SEED leaves good decoder cursors (41_decoder.md R172). -/
theorem RunOk.seedDone {s : State} (h : RunOk s) (ho : s.job.op = .decode)
    (hs : s.srcDefined 0 s.job.d = true) (hd : s.dstDefined 0 s.job.d = true) : StateOk (seedDone s) := by
  have hsrc : s.job.d ≤ s.job.srcLen.toNat := by simpa using ((srcDefined_iff ..).1 hs).1
  have hdst : s.job.d ≤ s.job.dstCap.toNat := by simpa using ((dstDefined_iff ..).1 hd).1
  have hrun : RunOk (Machine.seedDone s) :=
    { setup := h.setup.of_setup_eq rfl
      memory := h.memory.copyForward hd rfl rfl
      boundaries := h.boundaries.cons rfl rfl rfl hsrc hdst }
  have htotal := d_le_totalBytes h.setup.config
  refine hrun.stateOk (fun _ => ?_) (fun he => by simp [ho] at he)
  exact
    { total := by simp; omega
      wholePixels := dvd_rfl
      seedDone := le_rfl
      inPayload := hsrc
      latest := rfl }

/-- A finished command of `n` pixels keeps the decoder's cursors good (10_state.md R43 to R45; 41_decoder.md R183). -/
theorem DecoderOk.commandDone {s : State} (h : DecoderOk s) {n pos : Nat} (mem : Memory) (hn : n * s.job.d ≤ s.job.remBytes)
    (hp : pos ≤ s.job.srcLen.toNat) : DecoderOk (s.commandDone mem pos (n * s.job.d)) where
  total := by have := h.total; simp; omega
  wholePixels := (Nat.dvd_add_right h.wholePixels).2 (Nat.dvd_mul_left ..)
  seedDone := le_trans h.seedDone (Nat.le_add_right ..)
  inPayload := hp
  latest := rfl

theorem RunOk.commandDone {s : State} (h : RunOk s) (hc : DecoderOk s) (ho : s.job.op = .decode) {n src pos : Nat}
    (hn : n * s.job.d ≤ s.job.remBytes) (hp : pos ≤ s.job.srcLen.toNat)
    (hd : s.dstDefined s.job.dstPos (n * s.job.d) = true) :
    StateOk (s.commandDone (s.mem.copyForward src (s.job.dstAddr s.job.dstPos) (n * s.job.d)) pos (n * s.job.d)) :=
  have hrun : RunOk (s.commandDone (s.mem.copyForward src (s.job.dstAddr s.job.dstPos) (n * s.job.d)) pos
      (n * s.job.d)) :=
    { setup := h.setup.of_setup_eq rfl
      memory := h.memory.copyForward hd rfl rfl
      boundaries := h.boundaries.cons rfl rfl rfl hp ((dstDefined_iff ..).1 hd).1 }
  hrun.stateOk (fun _ => hc.commandDone _ hn hp) (fun he => by simp [ho] at he)

/-- Every turn of a decode job keeps the invariant. -/
theorem DecodeTurn.stateOk {s t : State} (h : StateOk s) (ho : s.job.op = .decode) (ht : DecodeTurn s t) : StateOk t := by
  have hrun : s.engine.checked = true → RunOk s := h.runOk
  cases ht with
  | seedShort hl => exact (hrun (by simp [hl, Engine.checked])).raise ..
  | seeded hl hs hd => exact (hrun (by simp [hl, Engine.checked])).seedDone ho hs hd
  | failed hl e => exact (hrun (by simp [hl, Engine.checked])).raiseInCommand e
  | command hl n src pos hn hp hd =>
    exact (hrun (by simp [hl, Engine.checked])).commandDone (h.decoder hl ho) ho hn hp hd
  | finished hl hr => exact (hrun (by simp [hl, Engine.checked])).endDone ..

/-! ### The match finder's bound -/

theorem extendMatch_le (same : Nat → Bool) (room k : Nat) : extendMatch same room k ≤ k + room := by
  induction room generalizing k with
  | zero => simp [extendMatch]
  | succ room ih =>
    have := ih (k + 1)
    unfold extendMatch
    split <;> omega

/-- A match never passes the end of the image (42_encoder.md R223). -/
theorem matchEntry_le {s : State} (h : s.job.current < s.job.totalPixels) (i : Nat) :
    matchEntry s i ≤ s.job.totalPixels - s.job.current := by
  have hbound : s.job.current < matchBound s ∧ matchBound s ≤ s.job.totalPixels := by
    simp [matchBound, maxMatchSize, h]
  simp only [matchEntry]
  split_ifs
  · exact Nat.zero_le _
  · exact Nat.zero_le _
  · exact Nat.zero_le _
  · exact le_trans (extendMatch_le ..) (by omega)

theorem foldl_betterMatch_le {len : Nat → Nat} {bound : Nat} (hlen : ∀ i, len i ≤ bound) (l : List Nat) {best : Nat × Nat}
    (hb : best.1 ≤ bound) : (l.foldl (betterMatch len) best).1 ≤ bound := by
  induction l generalizing best with
  | nil => exact hb
  | cons i l ih =>
    refine ih ?_
    unfold betterMatch
    split
    · exact hlen i
    · exact hb

theorem matchSearch_le {s : State} (h : s.job.current < s.job.totalPixels) :
    (matchSearch s).1 ≤ s.job.totalPixels - s.job.current :=
  foldl_betterMatch_le (matchEntry_le h) _ (Nat.zero_le _)

/-! ### The encoder -/

/-- The encoder's cursors in the middle of a turn: `EncoderOk` without the boundary that ends the turn and without the bound
that a full literal reaches before its flush (42_encoder.md R229). -/
structure CursorsOk (s : State) : Prop where
  started : 1 ≤ s.job.current
  inImage : s.job.current ≤ s.job.totalPixels
  pending : 0 < s.job.litLen → s.job.litStart + s.job.litLen = s.job.current
  pendingStart : 1 ≤ s.job.litStart
  inCapacity : s.job.outPos ≤ s.job.dstCap.toNat

theorem EncoderOk.cursorsOk {s : State} (h : EncoderOk s) : CursorsOk s := { h with }

/-- A running encode job in the middle of a turn. -/
structure EmitOk (s : State) : Prop where
  run : RunOk s
  op : s.job.op = .encode
  cursors : CursorsOk s

theorem StateOk.emitOk {s : State} (h : StateOk s) (hl : s.engine = .loop) (ho : s.job.op = .encode) : EmitOk s :=
  ⟨h.runOk (by simp [hl, Engine.checked]), ho, (h.encoder hl ho).cursorsOk⟩

theorem EmitOk.noteMatch {s : State} (h : EmitOk s) : EmitOk (noteMatch s) where
  run := ⟨h.run.setup.of_setup_eq rfl, { h.run.memory with }, { h.run.boundaries with }⟩
  op := h.op
  cursors := { h.cursors with }

theorem EmitOk.appendLiteral {s : State} (h : EmitOk s) (hc : s.job.current < s.job.totalPixels) :
    EmitOk (appendLiteral s) where
  run := ⟨h.run.setup.of_setup_eq rfl, { h.run.memory with }, { h.run.boundaries with }⟩
  op := h.op
  cursors :=
    { started := Nat.le_add_left ..
      inImage := hc
      pending := fun _ => by
        have := h.cursors.pending
        simp only [appendLiteral_job_litStart, appendLiteral_job_litLen, appendLiteral_job_current]
        split <;> omega
      pendingStart := by
        have := h.cursors.started
        have := h.cursors.pendingStart
        simp only [appendLiteral_job_litStart]
        split <;> omega
      inCapacity := h.cursors.inCapacity }

/-- A literal flush keeps a running encode job good, and none of the literal is left (42_encoder.md R230). -/
theorem EmitOk.flush {s t : State} (h : EmitOk s) (hf : flushLiteral s = .go t) :
    EmitOk t ∧ t.job.litLen = 0 ∧ t.job.current = s.job.current ∧ t.job.totalPixels = s.job.totalPixels := by
  rcases flushLiteral_go hf with ⟨h0, rfl⟩ | ⟨hd, rfl⟩
  · exact ⟨h, h0, rfl, rfl⟩
  · refine ⟨{ run := ⟨h.run.setup.of_setup_eq rfl, h.run.memory.writeList hd rfl rfl, { h.run.boundaries with }⟩
              op := h.op
              cursors := { h.cursors with pending := ?_, inCapacity := ((dstDefined_iff ..).1 hd).1 } }, rfl, rfl, rfl⟩
    simp

theorem EmitOk.copyDone {s : State} (h : EmitOk s) (h0 : s.job.litLen = 0) {len idx : Nat}
    (hl : s.job.current + len ≤ s.job.totalPixels)
    (hd : s.dstDefined s.job.outPos (copyUnit s.job.kind idx len).length = true) : EmitOk (copyDone len idx s) where
  run := ⟨h.run.setup.of_setup_eq rfl, h.run.memory.writeList hd rfl rfl, { h.run.boundaries with }⟩
  op := h.op
  cursors :=
    { started := le_trans h.cursors.started (Nat.le_add_right ..)
      inImage := hl
      pending := fun hp => absurd hp (by simp [h0])
      pendingStart := h.cursors.pendingStart
      inCapacity := ((dstDefined_iff ..).1 hd).1 }

/-- A turn that leaves the encoder running ends at a boundary inside both windows (10_state.md R38, R39). -/
theorem EmitOk.boundary {s : State} (h : EmitOk s) (hl : s.job.litLen < maxThunkSize) : StateOk (encoderBoundary s) :=
  have hsrc : s.job.current * s.job.d ≤ s.job.srcLen.toNat :=
    le_trans (Nat.mul_le_mul_right _ h.cursors.inImage) (totalBytes_le_srcLen h.run.setup.config h.op)
  have hrun : RunOk (encoderBoundary s) :=
    { setup := h.run.setup.of_setup_eq rfl
      memory := { h.run.memory with }
      boundaries := h.run.boundaries.cons rfl rfl rfl hsrc h.cursors.inCapacity }
  hrun.stateOk (fun hd => by simp [h.op] at hd) (fun _ => { h.cursors with pendingShort := hl, latest := rfl })

theorem EmissionPoint.emitOk {s t : State} (h : EmitOk s) (hp : EmissionPoint s t) : EmitOk t := by
  cases hp with
  | start => exact h
  | noted => exact h.noteMatch
  | appended hc => exact h.noteMatch.appendLiteral hc
  | flushed hf => exact (h.noteMatch.flush hf).1

theorem RunOk.encodeSetup {s : State} (h : RunOk s) : RunOk (Machine.encodeSetup s) :=
  ⟨h.setup.of_setup_eq rfl, { h.memory with }, { h.boundaries with }⟩

/-- The encoder's seed leaves good cursors (42_encoder.md R212). -/
theorem RunOk.encodeSeedDone {s : State} (h : RunOk s) (ho : s.job.op = .encode) (hd : s.dstDefined 0 s.job.d = true) :
    StateOk (encodeSeedDone s) :=
  have hlen : (s.mem.readList (s.job.srcAddr 0) s.job.d).length = s.job.d := Memory.readList_length ..
  have hemit : EmitOk { unitDone (s.mem.readList (s.job.srcAddr 0) s.job.d) (Machine.encodeSetup s) with engine := .loop } :=
    { run := ⟨h.setup.of_setup_eq rfl, h.memory.writeList (by rw [hlen]; exact hd) rfl rfl, { h.boundaries with }⟩
      op := ho
      cursors :=
        { started := le_rfl
          inImage := Nat.pos_of_ne_zero ((configOk_iff s).1 h.setup.config).1
          pending := fun hp => absurd hp (Nat.lt_irrefl 0)
          pendingStart := le_rfl
          inCapacity := by simpa [hlen] using ((dstDefined_iff ..).1 hd).1 } }
  hemit.boundary (Nat.zero_lt_succ _)

/-- Every turn of an encode job keeps the invariant. -/
theorem EncodeTurn.stateOk {s t : State} (h : StateOk s) (ho : s.job.op = .encode) (ht : EncodeTurn s t) : StateOk t := by
  cases ht with
  | seedOverflow hl => exact (h.runOk (by simp [hl, Engine.checked])).encodeSetup.raise ..
  | seeded hl hs hd => exact (h.runOk (by simp [hl, Engine.checked])).encodeSeedDone ho hd
  | overflow hl hp => exact (hp.emitOk (h.emitOk hl ho)).run.raise ..
  | @copied t hl hc hf hd =>
    obtain ⟨hemit, h0, hcur, htot⟩ := (h.emitOk hl ho).noteMatch.flush hf
    have hlen := matchSearch_le hc
    have hfit : t.job.current + (matchSearch s).1 ≤ t.job.totalPixels := by
      rw [hcur, htot, noteMatch_job_current, noteMatch_job_totalPixels]; omega
    exact (hemit.copyDone h0 hfit hd).boundary (by simp [h0, maxThunkSize])
  | appended hl hc hn =>
    have hshort := (h.encoder hl ho).pendingShort
    exact ((h.emitOk hl ho).noteMatch.appendLiteral hc).boundary (by simp; omega)
  | filled hl hc hf =>
    obtain ⟨hemit, h0, -⟩ := ((h.emitOk hl ho).noteMatch.appendLiteral hc).flush hf
    exact hemit.boundary (by simp [h0, maxThunkSize])
  | finished hl hc hf => exact ((h.emitOk hl ho).flush hf).1.run.endDone ..

/-- Every answered turn of the engine keeps the invariant. -/
theorem EngineTurn.stateOk {s t : State} (h : StateOk s) (ht : EngineTurn s t) : StateOk t := by
  cases ht with
  | idle => exact h
  | checkFailed he =>
    have hb : s.busy = true := by simp [State.busy, he]
    exact stateOk_raise h.memory h.bases (h.status.quietWhileBusy hb).1 ..
  | checkPassed he hc hd =>
    have hb : s.busy = true := by simp [State.busy, he]
    exact
      { memory := { h.memory with }
        bases := { h.bases with }
        status := { h.status with quietWhileBusy := fun _ => h.status.quietWhileBusy hb }
        latch := fun _ => { h.latch hb with }
        boundaries := fun _ => { h.boundaries hb with }
        config := fun _ => hc
        noDevice := fun _ => hd
        decoder := nofun
        encoder := nofun }
  | decode ho ht => exact ht.stateOk h ho
  | encode ho ht => exact ht.stateOk h ho

/-! ## The host's turns -/

/-! ### The register file -/

/-- `CTRL` written with no job command, while BUSY (10_state.md R33). -/
theorem latchCtrl_busy {s : State} (v : Word) (h : s.busy = true) : latchCtrl v s = { s with irqEn := v.getLsbD 3 } := by
  simp [latchCtrl, h]

theorem latchCtrl_idle {s : State} (v : Word) (h : s.busy = false) :
    latchCtrl v s = { s with op := opOfBit (v.getLsbD 1), kind := kindOfBit (v.getLsbD 2), irqEn := v.getLsbD 3 } := by
  simp [latchCtrl, h]

theorem writeJobRegister_busy {s : State} (new : State) (h : s.busy = true) : writeJobRegister s new = s := by
  simp [writeJobRegister, h]

theorem writeJobRegister_idle {s : State} (new : State) (h : s.busy = false) : writeJobRegister s new = new := by
  simp [writeJobRegister, h]

theorem exec_decode (k : Kind) (irq : Bool) (s : State) :
    exec (.decode k irq) s = .next (startJob .decode k irq s) := rfl

theorem exec_encode (k : Kind) (irq : Bool) (s : State) :
    exec (.encode k irq) s = .next (startJob .encode k irq s) := rfl

theorem writeCtrl_command {v : Word} {i : Instr} (h : decodeCtrl v = .ok i) (s : State) : writeCtrl v s = exec i s := by
  simp [writeCtrl, h]

theorem writeCtrl_noCommand {v : Word} {e : DecodeError} (h : decodeCtrl v = .error e) (s : State) :
    writeCtrl v s = .next (latchCtrl v s) := by
  simp [writeCtrl, h]

/-- What a written `CTRL` value decodes to, bit by bit (10_state.md R33). -/
theorem decodeCtrl_eq (v : Word) :
    decodeCtrl v =
      if v.getLsbD 0 = true then
        if v.getLsbD 1 = true then .ok (.encode (kindOfBit (v.getLsbD 2)) (v.getLsbD 3))
        else .ok (.decode (kindOfBit (v.getLsbD 2)) (v.getLsbD 3))
      else .error .noStart := by
  unfold decodeCtrl opOfBit
  cases v.getLsbD 0 <;> cases v.getLsbD 1 <;> rfl

theorem alignedWord_iff (offset size : Nat) : alignedWord offset size = true ↔ size = 4 ∧ offset % 4 = 0 := by
  simp [alignedWord]

theorem hostTurn_regRead {s : State} {addr : Word} (h : regOffset s addr % 4 = 0) :
    hostTurn (.regRead addr 4) s =
      .next { s with rdata := readRegister (regOffset s addr) s, draws := s.draws + 1 } := by
  simp [hostTurn, hostRegRead, alignedWord, h]

theorem hostTurn_regWrite {s : State} {addr : Word} (v : Word) (h : regOffset s addr % 4 = 0) :
    hostTurn (.regWrite addr 4 v) s = writeRegister (regOffset s addr) v s := by
  simp [hostTurn, hostRegWrite, alignedWord, h]

/-- A write to the register at a known aligned offset. -/
theorem hostTurn_regWrite_at {s : State} {addr : Word} (v : Word) {offset : Nat} (h : regOffset s addr = offset)
    (ha : offset % 4 = 0) : hostTurn (.regWrite addr 4 v) s = writeRegister offset v s := by
  subst h
  exact hostTurn_regWrite v ha

/-- Offsets above `DST_CAP` ignore writes: reserved ones and read-only registers (10_state.md R32, R38 to R41). -/
theorem writeRegister_ignored {offset : Nat} (h : 0x1C < offset) (v : Word) (s : State) :
    writeRegister offset v s = .next s := by
  unfold writeRegister
  split
  case h_9 => rfl
  all_goals omega

/-- Reserved offsets read 0 (10_state.md R32). -/
theorem readRegister_reserved {offset : Nat} (h : 0x2C < offset) (s : State) : readRegister offset s = 0 := by
  unfold readRegister
  split
  case h_13 => rfl
  all_goals omega

/-- Everything a write of `v` to a register can leave (10_state.md R32 to R41). -/
inductive RegisterWrite (v : Word) (s : State) : State → Prop where
  | start (op : Op) (k : Kind) (irq : Bool) : RegisterWrite v s (startJob op k irq s)
  | latch : RegisterWrite v s (latchCtrl v s)
  | acknowledge : RegisterWrite v s (s.acknowledge v)
  | jobRegister (hb : s.busy = false) (w h sb sl db dc : Word) (hsb : sb = s.srcBase ∨ sb = baseValue s.params v)
      (hdb : db = s.dstBase ∨ db = baseValue s.params v) :
      RegisterWrite v s
        { s with width := w, height := h, srcBase := sb, srcLen := sl, dstBase := db, dstCap := dc }
  | ignored : RegisterWrite v s s

/-- Every write to `CTRL` is answered, as a job command or as a latch of its fields (10_state.md R33). -/
theorem writeCtrl_outcome (v : Word) (s : State) : ∃ t, writeCtrl v s = .next t ∧ RegisterWrite v s t := by
  have h := decodeCtrl_eq v
  split_ifs at h
  · exact ⟨_, writeCtrl_command h s, .start .encode _ _⟩
  · exact ⟨_, writeCtrl_command h s, .start .decode _ _⟩
  · exact ⟨_, writeCtrl_noCommand h s, .latch⟩

/-- A write to a job register is ignored while BUSY (10_state.md R35 to R37; 70_reset_and_hazards.md R315). -/
theorem writeJobRegister_outcome {v : Word} {s new : State} (h : s.busy = false → RegisterWrite v s new) :
    ∃ t, Host.Outcome.next (φ := Fault) (ρ := Refusal) (writeJobRegister s new) = .next t ∧ RegisterWrite v s t := by
  cases hb : s.busy with
  | true => rw [writeJobRegister_busy new hb]; exact ⟨s, rfl, .ignored⟩
  | false => rw [writeJobRegister_idle new hb]; exact ⟨new, rfl, h hb⟩

/-- Every register write of the right shape is answered. -/
theorem writeRegister_outcome (offset : Nat) (v : Word) (s : State) :
    ∃ t, writeRegister offset v s = .next t ∧ RegisterWrite v s t := by
  unfold writeRegister
  split
  · exact writeCtrl_outcome v s
  · exact ⟨_, rfl, .acknowledge⟩
  · exact writeJobRegister_outcome fun hb => .jobRegister hb _ _ _ _ _ _ (.inl rfl) (.inl rfl)
  · exact writeJobRegister_outcome fun hb => .jobRegister hb _ _ _ _ _ _ (.inl rfl) (.inl rfl)
  · exact writeJobRegister_outcome fun hb => .jobRegister hb _ _ _ _ _ _ (.inr rfl) (.inl rfl)
  · exact writeJobRegister_outcome fun hb => .jobRegister hb _ _ _ _ _ _ (.inl rfl) (.inl rfl)
  · exact writeJobRegister_outcome fun hb => .jobRegister hb _ _ _ _ _ _ (.inl rfl) (.inr rfl)
  · exact writeJobRegister_outcome fun hb => .jobRegister hb _ _ _ _ _ _ (.inl rfl) (.inl rfl)
  · exact ⟨_, rfl, .ignored⟩

/-! ### A turn of the host -/

/-- Everything an answered turn of the host can leave (10_state.md R32; 20_memory.md R93; 70_reset_and_hazards.md R300). -/
inductive HostTurn (s : State) : State → Prop where
  | read (value : Word) : HostTurn s { s with rdata := value, draws := s.draws + 1 }
  | write (v : Word) {t : State} (h : RegisterWrite v s t) : HostTurn s t
  | store (a : Nat) (v : Byte) (ha : a < s.addressTop) (hw : inBusyWindow s a = false) :
      HostTurn s { s with mem := s.mem.write a v }
  | reset : HostTurn s (platformReset s)

theorem hostMemRead_turn {a : Nat} {s t : State} (h : hostMemRead a s = .next t) : HostTurn s t := by
  unfold hostMemRead at h
  split_ifs at h <;> cases h
  · exact .read _
  · exact .read _

theorem hostMemWrite_turn {a : Nat} {v : Byte} {s t : State} (h : hostMemWrite a v s = .next t) : HostTurn s t := by
  unfold hostMemWrite at h
  split_ifs at h with ha hd hw
  cases h
  exact .store a v (Nat.lt_of_not_le ha) (by simpa using hw)

theorem hostTurn_turn {a : HostAction} {s t : State} (h : hostTurn a s = .next t) : HostTurn s t := by
  cases a with
  | regRead addr size =>
    simp only [hostTurn, hostRegRead] at h
    split at h <;> cases h
    exact .read _
  | regWrite addr size v =>
    simp only [hostTurn, hostRegWrite] at h
    split at h
    · obtain ⟨u, hu, hw⟩ := writeRegister_outcome (regOffset s addr) v s
      rw [hu] at h
      cases h
      exact .write v hw
    · cases h
  | memRead addr => exact hostMemRead_turn h
  | memWrite addr v => exact hostMemWrite_turn h
  | reset => cases h; exact .reset

/-! ## Every turn of the host keeps the invariant -/

/-- A base register's hard-wired bits keep it inside the memory (10_state.md R36, R37). -/
theorem baseValue_lt (s : State) (v : Word) : (baseValue s.params v).toNat < s.addressTop := by
  have h := Nat.mod_lt v.toNat (Nat.two_pow_pos s.params.addrW)
  simp only [baseValue, BitVec.toNat_ofNat, State.addressTop]
  exact lt_of_le_of_lt (Nat.mod_le ..) h

/-- START keeps the invariant: the constants it latches are the registers (70_reset_and_hazards.md R303). -/
theorem StateOk.startJob {s : State} (h : StateOk s) (op : Op) (k : Kind) (irq : Bool) :
    StateOk (startJob op k irq s) := by
  cases hb : s.busy with
  | true =>
    rw [startJob_busy op k irq hb]
    exact h.withHostFields irq s.mem s.turns s.rdata s.draws h.memory.canonical h.memory.inside
  | false =>
    rw [startJob_idle op k irq hb]
    exact
      { memory := { h.memory with }
        bases := { h.bases with }
        status := .quiet rfl rfl rfl
        latch := fun _ => by constructor <;> rfl
        boundaries := fun _ => ⟨List.cons_ne_nil _ _, by simp [latchJob]⟩
        config := nofun
        noDevice := nofun
        decoder := nofun
        encoder := nofun }

theorem engine_of_not_busy {s : State} (h : s.busy = false) : s.engine = .idle := by
  simpa [State.busy] using h

theorem StateOk.latchCtrl {s : State} (h : StateOk s) (v : Word) : StateOk (latchCtrl v s) := by
  cases hb : s.busy with
  | true =>
    rw [latchCtrl_busy v hb]
    exact h.withHostFields _ s.mem s.turns s.rdata s.draws h.memory.canonical h.memory.inside
  | false =>
    rw [latchCtrl_idle v hb]
    exact .of_idle (engine_of_not_busy hb) { h.memory with } { h.bases with } { h.status with }

/-- The acknowledgement keeps the flags legal (10_state.md R34; 60_exceptions.md R280). -/
theorem StatusOk.acknowledge {s : State} (h : StatusOk s) (v : Word) : StatusOk (s.acknowledge v) where
  exclusive := by
    have := h.exclusive
    simp only [State.acknowledge_done, State.acknowledge_error, Bool.and_eq_true]
    tauto
  quietWhileBusy hb := by
    obtain ⟨hd, he⟩ := h.quietWhileBusy hb
    simp [hd, he]
  noCode he := by
    have := h.noCode
    cases hv : v.getLsbD 2 <;> simp_all
  codeInRange he := by
    have := h.codeInRange
    cases hv : v.getLsbD 2 <;> simp_all

theorem StateOk.acknowledge {s : State} (h : StateOk s) (v : Word) : StateOk (s.acknowledge v) where
  memory := { h.memory with }
  bases := { h.bases with }
  status := h.status.acknowledge v
  latch hb := { h.latch hb with }
  boundaries hb := { h.boundaries hb with }
  config := h.config
  noDevice := h.noDevice
  decoder hl ho := { h.decoder hl ho with }
  encoder hl ho := { h.encoder hl ho with }

theorem RegisterWrite.stateOk {v : Word} {s t : State} (h : StateOk s) (ht : RegisterWrite v s t) : StateOk t := by
  cases ht with
  | start op k irq => exact h.startJob op k irq
  | latch => exact h.latchCtrl v
  | acknowledge => exact h.acknowledge v
  | jobRegister hb w ht sb sl db dc hsb hdb =>
    have hsrc : sb.toNat < s.addressTop := by
      rcases hsb with rfl | rfl
      · exact h.bases.src
      · exact baseValue_lt s v
    have hdst : db.toNat < s.addressTop := by
      rcases hdb with rfl | rfl
      · exact h.bases.dst
      · exact baseValue_lt s v
    exact .of_idle (engine_of_not_busy hb) { h.memory with } ⟨hsrc, hdst⟩ { h.status with }
  | ignored => exact h

/-- Every answered turn of the host keeps the invariant. -/
theorem HostTurn.stateOk {s t : State} (h : StateOk s) (ht : HostTurn s t) : StateOk t := by
  cases ht with
  | read value =>
    exact h.withHostFields s.irqEn s.mem s.turns value (s.draws + 1) h.memory.canonical h.memory.inside
  | write v hw => exact hw.stateOk h
  | store a v ha hw =>
    exact h.withHostFields s.irqEn _ s.turns s.rdata s.draws (Memory.write_wf a v h.memory.canonical)
      (Memory.write_below v h.memory.inside ha)
  | reset =>
    have htop : 0 < s.addressTop := Nat.two_pow_pos _
    exact .of_idle rfl { h.memory with } ⟨htop, htop⟩ (.quiet rfl rfl rfl)

/-! ## A step -/

/-- Everything an answered step can leave: a turn of the engine or of the host, after the turn is taken from the list. -/
inductive StepTurn (s : State) : State → Prop where
  | engine {turns : List Turn} {t : State} (h : EngineTurn { s with turns := turns } t) : StepTurn s t
  | host {turns : List Turn} {t : State} (h : HostTurn { s with turns := turns } t) : StepTurn s t

theorem step_turn {s t : State} (h : step s = .next t) : StepTurn s t := by
  unfold step at h
  split at h
  · exact .engine (turns := s.turns) (engineTurn_turn h)
  · exact .engine (engineTurn_turn h)
  · exact .host (hostTurn_turn h)

theorem step_host {s : State} {a : HostAction} {rest : List Turn} (h : s.turns = .host a :: rest) :
    step s = hostTurn a { s with turns := rest } := by
  simp [step, h]

theorem StateOk.takeTurn {s : State} (h : StateOk s) (turns : List Turn) : StateOk { s with turns := turns } :=
  h.withHostFields s.irqEn s.mem turns s.rdata s.draws h.memory.canonical h.memory.inside

/-- Settles O3: a case per turn that an answered step can be. -/
theorem everyStepKeepsTheInvariant : Obligations.EveryStepKeepsTheInvariant := by
  intro s t h hstep
  cases step_turn hstep with
  | engine ht => exact ht.stateOk (h.takeTurn _)
  | host ht => exact ht.stateOk (h.takeTurn _)

/-! ### The parameters -/

theorem flushLiteral_params {s t : State} (h : flushLiteral s = .go t) : t.params = s.params := by
  rcases flushLiteral_go h with ⟨-, rfl⟩ | ⟨-, rfl⟩ <;> rfl

theorem EmissionPoint.params {s t : State} (h : EmissionPoint s t) : t.params = s.params := by
  cases h with
  | start | noted | appended => rfl
  | flushed hf => exact (flushLiteral_params hf :)

theorem DecodeTurn.params {s t : State} (h : DecodeTurn s t) : t.params = s.params := by
  cases h <;> rfl

theorem EncodeTurn.params {s t : State} (h : EncodeTurn s t) : t.params = s.params := by
  cases h with
  | seedOverflow | seeded | appended => rfl
  | overflow _ hp => exact hp.params
  | copied _ _ hf => exact (flushLiteral_params hf :)
  | filled _ _ hf => exact (flushLiteral_params hf :)
  | finished _ _ hf => exact (flushLiteral_params hf :)

theorem EngineTurn.params {s t : State} (h : EngineTurn s t) : t.params = s.params := by
  cases h with
  | idle | checkFailed | checkPassed => rfl
  | decode _ h => exact h.params
  | encode _ h => exact h.params

theorem RegisterWrite.params {v : Word} {s t : State} (h : RegisterWrite v s t) : t.params = s.params := by
  cases h with
  | start op k irq => unfold startJob; split <;> rfl
  | latch => unfold latchCtrl; split <;> rfl
  | acknowledge | jobRegister | ignored => rfl

theorem HostTurn.params {s t : State} (h : HostTurn s t) : t.params = s.params := by
  cases h with
  | read | store | reset => rfl
  | write v hw => exact hw.params

/-- Settles O5: a case per turn that an answered step can be. -/
theorem noStepChangesTheTables : Obligations.NoStepChangesTheTables := by
  intro s t hstep
  cases step_turn hstep with
  | engine h => exact h.params
  | host h => exact h.params

/-! ## The register file -/

theorem kindOfBit_eq_iff (b : Bool) (k : Kind) : kindOfBit b = k ↔ (b = true ↔ k = .pal) := by
  cases b <;> cases k <;> decide

/-- Settles O11: a written value decodes by its bits 0 to 3 alone (`decodeCtrl_eq`). -/
theorem jobCommandFields : Obligations.JobCommandFields := by
  intro v k irq
  rw [decodeCtrl_eq]
  simp only [← kindOfBit_eq_iff]
  cases v.getLsbD 0 <;> cases v.getLsbD 1 <;> simp

/-- The lowest field of a word is one bit. -/
theorem getLsbD_append_ofBool {n : Nat} (x : BitVec n) (bit : Bool) (i : Nat) :
    (x ++ BitVec.ofBool bit).getLsbD i = if i = 0 then bit else x.getLsbD (i - 1) := by
  rw [BitVec.getLsbD_append]
  cases i <;> simp

/-- Every bit of `CTRL` as it reads (10_state.md R33). -/
theorem getLsbD_ctrlWord (s : State) (b : Nat) :
    s.ctrlWord.getLsbD b =
      if b = 1 then s.op == .encode else if b = 2 then s.kind == .pal else if b = 3 then s.irqEn else false := by
  unfold State.ctrlWord
  rw [BitVec.getLsbD_append, getLsbD_append_ofBool, getLsbD_append_ofBool, getLsbD_append_ofBool]
  rcases b with _ | _ | _ | _ | b <;> simp

/-- Every bit of `STATUS` as it reads (10_state.md R34). -/
theorem getLsbD_statusWord (s : State) (b : Nat) :
    s.statusWord.getLsbD b =
      if b = 0 then s.busy else if b = 1 then s.done else if b = 2 then s.error
      else if b < 8 then false else s.errCode.getLsbD (b - 8) := by
  unfold State.statusWord
  rw [getLsbD_append_ofBool, getLsbD_append_ofBool, getLsbD_append_ofBool, BitVec.getLsbD_append, BitVec.getLsbD_append]
  rcases b with _ | _ | _ | b
  · rfl
  · rfl
  · rfl
  · have hsub : b + 1 + 1 + 1 - 1 - 1 - 1 = b := rfl
    by_cases h5 : b < 5
    · have h8 : b + 3 < 8 := by omega
      simp [h5, h8]
    · have h8 : ¬ b + 3 < 8 := by omega
      by_cases h9 : b - 5 < 4
      · simp [h5, h8, h9]
      · simp [h5, h8, h9, BitVec.getLsbD_of_ge s.errCode (b - 5) (Nat.le_of_not_lt h9)]

/-- Settles O22: each word bit by bit (`getLsbD_ctrlWord`, `getLsbD_statusWord`). -/
theorem controlAndStatusBits : Obligations.ControlAndStatusBits := by
  intro s
  have hbusy : s.busy = decide (s.engine ≠ .idle) := by unfold State.busy; cases s.engine <;> rfl
  have hcode : s.statusWord.extractLsb' 8 4 = s.errCode := BitVec.eq_of_getLsbD_eq fun i hi => by
    have h1 : ¬ 8 + i = 1 := by omega
    have h2 : ¬ 8 + i = 2 := by omega
    simp [getLsbD_statusWord, hi, h1, h2]
  simp only [getLsbD_ctrlWord, getLsbD_statusWord]
  refine ⟨⟨rfl, rfl, rfl, rfl, fun b hb => ?_⟩, hbusy, rfl, rfl, hcode, fun b hb => ?_⟩
  · have hne : b ≠ 1 ∧ b ≠ 2 ∧ b ≠ 3 := by omega
    simp [hne]
  · split_ifs with h0 h1 h2 h8
    · omega
    · omega
    · omega
    · rfl
    · exact BitVec.getLsbD_of_ge _ _ (by omega)

/-- The bits of a base register as written (10_state.md R36, R37). -/
theorem getLsbD_baseValue (p : Params) (v : Word) (n : Nat) :
    (baseValue p v).getLsbD n = (decide (n < p.addrW) && v.getLsbD n) := by
  rw [baseValue, BitVec.getLsbD_ofNat, Nat.testBit_mod_two_pow, BitVec.testBit_toNat]
  by_cases hn : n < 32
  · simp [hn]
  · simp [hn, BitVec.getLsbD_of_ge v n (Nat.le_of_not_lt hn)]

/-- Settles O26: a write to a job register while IDLE stores the value, and the bases are reduced modulo `2 ^ addrW`. -/
theorem jobRegistersReadBack : Obligations.JobRegistersReadBack := by
  intro s addr v hb
  have hwrite : ∀ {offset new}, writeRegister offset v s = .next (writeJobRegister s new) → offset % 4 = 0 →
      regOffset s addr = offset → hostTurn (.regWrite addr 4 v) s = .next new := fun hw ha h => by
    rw [hostTurn_regWrite_at v h ha, hw, writeJobRegister_idle _ hb]
  exact ⟨hwrite rfl rfl, hwrite rfl rfl, hwrite rfl rfl, hwrite rfl rfl,
    fun h => ⟨_, hwrite rfl rfl h, getLsbD_baseValue s.params v⟩,
    fun h => ⟨_, hwrite rfl rfl h, getLsbD_baseValue s.params v⟩⟩

theorem readRegister_srcPos_idle {s : State} (h : s.busy = false) : readRegister 0x20 s = s.srcPosReg := by
  simp [readRegister, h]

theorem readRegister_dstPos_idle {s : State} (h : s.busy = false) : readRegister 0x24 s = s.dstPosReg := by
  simp [readRegister, h]

/-- Settles O27: the value is `readRegister` at the offset. -/
theorem registerReadsReturnTheRegister : Obligations.RegisterReadsReturnTheRegister := by
  intro s addr ha
  refine ⟨_, hostTurn_regRead ha, ?_⟩
  generalize regOffset s addr = offset
  refine ⟨?_, ?_, ?_, ?_, ?_, ?_, ?_, ?_, ?_, ?_, ?_, ?_, fun h => readRegister_reserved h s⟩ <;> rintro rfl
  case refine_9 => exact readRegister_srcPos_idle
  case refine_10 => exact readRegister_dstPos_idle
  all_goals rfl

/-- A drawn boundary is one of the passed ones (10_state.md R38, R39; log entry 7). -/
theorem drawBoundary_mem (f : Nat × Nat → Nat) {passed : List (Nat × Nat)} (h : passed ≠ []) (draw : Nat) :
    ∃ b ∈ passed, drawBoundary (passed.map f) draw = BitVec.ofNat 32 (f b) := by
  have hi : Config.boundaryDraw draw % passed.length < passed.length := Nat.mod_lt _ (List.length_pos_of_ne_nil h)
  refine ⟨passed[Config.boundaryDraw draw % passed.length], List.getElem_mem hi, ?_⟩
  simp [drawBoundary, List.getD_eq_getElem?_getD, hi]

/-- A position register that shows a drawn boundary reads as one of the passed ones, within the register's width. -/
theorem hostTurn_regRead_boundary {s : State} {addr : Word} {offset bound : Nat} (f : Nat × Nat → Nat)
    (hoff : regOffset s addr = offset) (ha : offset % 4 = 0)
    (hread : readRegister offset s = drawBoundary (s.job.passed.map f) s.draws) (hp : s.job.passed ≠ [])
    (hf : ∀ b ∈ s.job.passed, f b ≤ bound) (hbound : bound < 2 ^ 32) :
    ∃ b ∈ s.job.passed, f b < 2 ^ 32 ∧
      hostTurn (.regRead addr 4) s = .next { s with rdata := BitVec.ofNat 32 (f b), draws := s.draws + 1 } := by
  subst hoff
  obtain ⟨b, hmem, hdraw⟩ := drawBoundary_mem f hp s.draws
  exact ⟨b, hmem, lt_of_le_of_lt (hf b hmem) hbound, by rw [hostTurn_regRead ha, hread, hdraw]⟩

/-- Settles O30: the passed boundaries of a running job lie in its windows, whose lengths are 32-bit values. -/
theorem positionReadWhileBusyIsAPassedBoundary : Obligations.PositionReadWhileBusyIsAPassedBoundary := by
  intro s addr hs hb
  obtain ⟨hp, hwin⟩ := hs.boundaries hb
  exact
    ⟨fun h => hostTurn_regRead_boundary Prod.fst h rfl (by simp [readRegister, hb]) hp (fun b hm => (hwin b hm).1)
      s.job.srcLen.isLt,
     fun h => hostTurn_regRead_boundary Prod.snd h rfl (by simp [readRegister, hb]) hp (fun b hm => (hwin b hm).2)
      s.job.dstCap.isLt⟩

/-- Settles O13: the turn is a write to `CTRL`, which runs the decoded command or latches the fields. -/
theorem stepRunsTheJobCommandWritten : Obligations.StepRunsTheJobCommandWritten := by
  intro s addr v rest hturns hoff
  have hstep : step s = writeCtrl v { s with turns := rest } := by
    rw [step_host hturns, hostTurn_regWrite_at (s := { s with turns := rest }) v hoff rfl]
    rfl
  refine ⟨fun i hi => ?_, fun he hb => ?_, fun he hb => ?_⟩
  · rw [hstep, writeCtrl_command hi]
  · rw [hstep, writeCtrl_noCommand he, latchCtrl_busy (s := { s with turns := rest }) v hb]
  · rw [hstep, writeCtrl_noCommand he, latchCtrl_idle (s := { s with turns := rest }) v hb]
    rfl

/-- Settles O20: both commands are `startJob`. -/
theorem startWhileBusyStoresIrqEn : Obligations.StartWhileBusyStoresIrqEn := by
  intro s k irq hb
  rw [exec_decode, exec_encode, startJob_busy .decode k irq hb, startJob_busy .encode k irq hb]
  exact ⟨rfl, rfl⟩

/-- Settles O24: the write is `State.acknowledge`, and each bit of `v` decides its flag. -/
theorem writingStatusAcknowledges : Obligations.WritingStatusAcknowledges := by
  intro s addr v h
  rw [hostTurn_regWrite_at v h rfl]
  show Host.Outcome.next (s.acknowledge v) = _
  unfold State.acknowledge
  cases v.getLsbD 1 <;> cases v.getLsbD 2 <;> simp

/-- Settles O28: no arm of `writeRegister` is above offset 0x1C. -/
theorem reservedOffsetsIgnoreWrites : Obligations.ReservedOffsetsIgnoreWrites := by
  intro s addr v ha h
  rw [hostTurn_regWrite v ha, writeRegister_ignored h]

/-- Settles O29: a write of the right shape is always answered. -/
theorem oddAccessesAreRefused : Obligations.OddAccessesAreRefused := by
  intro s addr v size
  have hshape : ¬ alignedWord (regOffset s addr) size = true ↔ size ≠ 4 ∨ regOffset s addr % 4 ≠ 0 := by
    rw [alignedWord_iff, not_and_or]
  obtain ⟨t, ht, -⟩ := writeRegister_outcome (regOffset s addr) v s
  rw [← hshape]
  constructor
  · simp only [hostTurn, hostRegRead]
    split <;> simp_all
  · simp only [hostTurn, hostRegWrite, ht]
    split <;> simp_all

end Sys2Proof.Machine

/-! # Proofs: the buffer memory (20_memory.md)

What a turn of the engine may read and write, in three parts: which of its accesses are defined (R81, R82), which bytes it
changes (R81, R96), and which bytes its outcome depends on (R92). After them the host's accesses (R80, R88, R93). -/

namespace Sys2Proof.Machine

/-! ## A turn of the engine by its mode -/

theorem engineTurn_idle {s : State} (h : s.engine = .idle) : engineTurn s = .next s := by
  simp [engineTurn, h]

theorem engineTurn_check {s : State} (h : s.engine = .check) : engineTurn s = configCheck s := by
  simp [engineTurn, h]

theorem engineTurn_seed_decode {s : State} (h : s.engine = .seed) (ho : s.job.op = .decode) :
    engineTurn s = execSeed s := by
  simp [engineTurn, h, ho, exec]

theorem engineTurn_seed_encode {s : State} (h : s.engine = .seed) (ho : s.job.op = .encode) :
    engineTurn s = encodeSeed s := by
  simp [engineTurn, h, ho]

theorem engineTurn_loop_decode {s : State} (h : s.engine = .loop) (ho : s.job.op = .decode) :
    engineTurn s = if s.job.remBytes = 0 then decodeFinish s else decodeStep s := by
  simp [engineTurn, h, ho]

theorem engineTurn_loop_encode {s : State} (h : s.engine = .loop) (ho : s.job.op = .encode) :
    engineTurn s = if s.job.current < s.job.totalPixels then encodePass s else encodeFinish s := by
  simp [engineTurn, h, ho]

/-! ## The engine's accesses are defined -/

theorem windowsPlaced_of_configOk {s : State} (h : configOk s = true) : windowsPlaced s := by
  obtain ⟨-, -, hsrc, hdst, -⟩ := (configOk_iff s).1 h
  exact ⟨hsrc, hdst⟩

/-- In a placed window an access is undefined only past the window's end (00_scope.md R13). -/
theorem srcLen_lt_of_undefined {s : State} (h : windowsPlaced s) {off n : Nat} (hs : s.srcDefined off n = false) :
    s.job.srcLen.toNat < off + n := by
  by_contra hn
  simp [(srcDefined_iff s off n).2 ⟨Nat.le_of_not_lt hn, h.1⟩] at hs

theorem dstCap_lt_of_undefined {s : State} (h : windowsPlaced s) {off n : Nat} (hd : s.dstDefined off n = false) :
    s.job.dstCap.toNat < off + n := by
  by_contra hn
  simp [(dstDefined_iff s off n).2 ⟨Nat.le_of_not_lt hn, h.2⟩] at hd

/-- The image of a decode job fits its destination window (60_exceptions.md R273 check 5). -/
theorem totalBytes_le_dstCap {s : State} (h : configOk s = true) (ho : s.job.op = .decode) :
    s.job.totalBytes ≤ s.job.dstCap.toNat := by
  obtain ⟨-, -, -, -, -, hc⟩ := (configOk_iff s).1 h
  simpa [capacityOk, ho] using hc

/-! ### The decoder -/

theorem execSeed_ne_fault {s : State} (h : configOk s = true) (ho : s.job.op = .decode) (f : Fault) :
    execSeed s ≠ .fault f := by
  have hw := windowsPlaced_of_configOk h
  have hcap := le_trans (d_le_totalBytes h) (totalBytes_le_dstCap h ho)
  rcases execSeed_outcome s with ⟨-, e⟩ | ⟨hl, hs, -⟩ | ⟨-, hd, -⟩ | ⟨-, -, e⟩
  · simp [e]
  · have := srcLen_lt_of_undefined hw hs
    omega
  · have := dstCap_lt_of_undefined hw hd
    omega
  · simp [e]

theorem literalBody_ne_fault {s : State} (hw : windowsPlaced s)
    (hfit : s.job.dstPos + s.job.remBytes ≤ s.job.dstCap.toNat) (header n : Nat) (f : Fault) :
    literalBody header n s ≠ .fault f := by
  rcases literalBody_outcome header n s with ⟨-, e⟩ | ⟨-, -, e⟩ | ⟨-, hl, hs, -⟩ | ⟨hn, -, hd, -⟩ | ⟨-, -, -, e⟩
  · simp [e]
  · simp [e]
  · exact absurd (srcLen_lt_of_undefined hw hs) (Nat.not_lt_of_le hl)
  · have := dstCap_lt_of_undefined hw hd
    omega
  · simp [e]

theorem copyBody_ne_fault {s : State} (hw : windowsPlaced s)
    (hfit : s.job.dstPos + s.job.remBytes ≤ s.job.dstCap.toNat) (header n idx : Nat) (f : Fault) :
    copyBody header n idx s ≠ .fault f := by
  rcases copyBody_outcome header n idx s with ⟨-, e⟩ | ⟨-, -, e⟩ | ⟨hn, hd, -⟩ | ⟨-, -, -, -, e⟩
  · simp [e]
  · simp [e]
  · have := dstCap_lt_of_undefined hw hd
    omega
  · simp [e]

/-- The header that a decode step reads lies in the payload (10_state.md R43). -/
theorem headerRoom_le {s : State} (h : s.job.srcPos ≤ s.job.srcLen.toNat) :
    s.job.srcPos + headerRoom s.job ≤ s.job.srcLen.toNat := by
  unfold headerRoom
  omega

theorem decodeStep_ne_fault {s : State} (hw : windowsPlaced s) (hp : s.job.srcPos ≤ s.job.srcLen.toNat)
    (hfit : s.job.dstPos + s.job.remBytes ≤ s.job.dstCap.toNat) (f : Fault) : decodeStep s ≠ .fault f := by
  rcases decodeStep_outcome s with ⟨-, hs, -⟩ | ⟨e, -⟩ | ⟨i, rest, form, -, -, e, hrun⟩
  · exact absurd (srcLen_lt_of_undefined hw hs) (Nat.not_lt_of_le (headerRoom_le hp))
  · simp [e]
  · rw [e, hrun]
    cases form with
    | literal header n => exact literalBody_ne_fault hw hfit header n f
    | copy header n idx => exact copyBody_ne_fault hw hfit header n idx f

/-! ### The encoder -/

theorem emitSeq_ne_fault {s : State} (hw : windowsPlaced s) (bytes : List Byte) (f : Fault) :
    emitSeq bytes s ≠ .stop (.fault f) := by
  rcases emitSeq_outcome bytes s with ⟨-, e⟩ | ⟨hl, hd, -⟩ | ⟨-, e⟩
  · simp [e]
  · exact absurd (dstCap_lt_of_undefined hw hd) (Nat.not_lt_of_le hl)
  · simp [e]

theorem EmitOk.windowsPlaced {s : State} (h : EmitOk s) : windowsPlaced s :=
  windowsPlaced_of_configOk h.run.setup.config

/-- The pixels of the pending literal lie in the source window (10_state.md R48). -/
theorem EmitOk.pending_in_source {s : State} (h : EmitOk s) (h0 : s.job.litLen ≠ 0) :
    s.job.litStart * s.job.d + s.job.litLen * s.job.d ≤ s.job.srcLen.toNat :=
  calc s.job.litStart * s.job.d + s.job.litLen * s.job.d
      = s.job.current * s.job.d := by rw [← add_mul, h.cursors.pending (Nat.pos_of_ne_zero h0)]
    _ ≤ s.job.totalBytes := Nat.mul_le_mul_right _ h.cursors.inImage
    _ ≤ s.job.srcLen.toNat := totalBytes_le_srcLen h.run.setup.config h.op

theorem EmitOk.flush_ne_fault {s : State} (h : EmitOk s) (f : Fault) : flushLiteral s ≠ .stop (.fault f) := by
  rcases flushLiteral_outcome s with ⟨-, e⟩ | ⟨h0, hs, -⟩ | ⟨-, -, e⟩ | ⟨-, hl, hd, -⟩ | ⟨-, -, -, e⟩
  · simp [e]
  · exact absurd (srcLen_lt_of_undefined h.windowsPlaced hs) (Nat.not_lt_of_le (h.pending_in_source h0))
  · simp [e]
  · exact absurd (dstCap_lt_of_undefined h.windowsPlaced hd) (Nat.not_lt_of_le hl)
  · simp [e]

theorem encodeSeed_ne_fault {s : State} (h : configOk s = true) (ho : s.job.op = .encode) (f : Fault) :
    encodeSeed s ≠ .fault f := by
  have hw := windowsPlaced_of_configOk h
  have hsrc := le_trans (d_le_totalBytes h) (totalBytes_le_srcLen h ho)
  rcases encodeSeed_outcome s with ⟨hs, -⟩ | ⟨-, -, e⟩ | ⟨-, hl, hd, -⟩ | ⟨-, -, e⟩
  · have := srcLen_lt_of_undefined hw hs
    omega
  · simp [e]
  · have := dstCap_lt_of_undefined hw hd
    omega
  · simp [e]

theorem EmitOk.copyPath_ne_fault {s : State} (h : EmitOk s) (len idx : Nat) (f : Fault) :
    copyPath len idx s ≠ .fault f := by
  rcases copyPath_outcome len idx s with ⟨o, hf, e⟩ | ⟨t, o, hf, he, e⟩ | ⟨t, u, -, -, e⟩ <;> rw [e]
  · rintro rfl
    exact h.flush_ne_fault f hf
  · rintro rfl
    exact emitSeq_ne_fault (h.flush hf).1.windowsPlaced _ f he
  · simp

theorem EmitOk.literalPath_ne_fault {s : State} (h : EmitOk s) (hc : s.job.current < s.job.totalPixels) (f : Fault) :
    literalPath s ≠ .fault f := by
  rcases literalPath_outcome s with ⟨-, e⟩ | ⟨-, o, hf, e⟩ | ⟨-, t, -, e⟩ <;> rw [e]
  · simp
  · rintro rfl
    exact (h.appendLiteral hc).flush_ne_fault f hf
  · simp

theorem EmitOk.encodePass_ne_fault {s : State} (h : EmitOk s) (hc : s.job.current < s.job.totalPixels) (f : Fault) :
    encodePass s ≠ .fault f := by
  rcases encodePass_outcome s with ⟨hs, -⟩ | ⟨-, -, e⟩ | ⟨-, -, e⟩
  · have hsrc := totalBytes_le_srcLen h.run.setup.config h.op
    have := srcLen_lt_of_undefined h.windowsPlaced hs
    omega
  · rw [e]
    exact h.noteMatch.copyPath_ne_fault _ _ f
  · rw [e]
    exact h.noteMatch.literalPath_ne_fault hc f

theorem EmitOk.encodeFinish_ne_fault {s : State} (h : EmitOk s) (f : Fault) : encodeFinish s ≠ .fault f := by
  rcases encodeFinish_outcome s with ⟨o, hf, e⟩ | ⟨t, -, e⟩ <;> rw [e]
  · rintro rfl
    exact h.flush_ne_fault f hf
  · simp

/-! ### A turn of the engine -/

theorem configCheck_ne_fault (s : State) (f : Fault) : configCheck s ≠ .fault f := by
  rcases configCheck_outcome s with ⟨-, e⟩ | ⟨-, -, e⟩ | ⟨-, -, e⟩ <;> simp [e]

/-- A decoder's cursors leave room for what remains of the image (10_state.md R44, R45). -/
theorem StateOk.remaining_fits {s : State} (h : StateOk s) (hl : s.engine = .loop) (ho : s.job.op = .decode) :
    s.job.dstPos + s.job.remBytes ≤ s.job.dstCap.toNat :=
  (h.decoder hl ho).total ▸ totalBytes_le_dstCap (h.config (by simp [hl, Engine.checked])) ho

/-- Settles O4: in each mode the invariant makes the windows' tests of that step true. -/
theorem theEngineNeverFaults : Obligations.TheEngineNeverFaults := by
  intro s f h
  cases he : s.engine with
  | idle => simp [engineTurn_idle he]
  | check => exact engineTurn_check he ▸ configCheck_ne_fault s f
  | seed =>
    have hc := h.config (by simp [he, Engine.checked])
    cases ho : s.job.op with
    | decode => exact engineTurn_seed_decode he ho ▸ execSeed_ne_fault hc ho f
    | encode => exact engineTurn_seed_encode he ho ▸ encodeSeed_ne_fault hc ho f
  | loop =>
    have hw := windowsPlaced_of_configOk (h.config (by simp [he, Engine.checked]))
    cases ho : s.job.op with
    | decode =>
      rw [engineTurn_loop_decode he ho]
      split
      · simp [decodeFinish]
      · exact decodeStep_ne_fault hw (h.decoder he ho).inPayload (h.remaining_fits he ho) f
    | encode =>
      have hemit := h.emitOk he ho
      rw [engineTurn_loop_encode he ho]
      split
      next hc => exact hemit.encodePass_ne_fault hc f
      next => exact hemit.encodeFinish_ne_fault f

/-! ## The bytes that the engine writes -/

/-! ### Frames -/

theorem unchangedOutside_refl (m : Memory) (a n : Nat) : unchangedOutside m m a n := fun _ _ => rfl

theorem unchangedOutside_write (m : Memory) (a : Nat) (v : Byte) : unchangedOutside m (m.write a v) a 1 :=
  fun _ hb => Memory.read_write_other m v (by omega)

theorem unchangedOutside_writeList (m : Memory) (a : Nat) (bs : List Byte) :
    unchangedOutside m (m.writeList a bs) a bs.length :=
  fun _ hb => Memory.read_writeList_other m a bs hb

theorem unchangedOutside_copyForward (m : Memory) (src dst n : Nat) :
    unchangedOutside m (m.copyForward src dst n) dst n :=
  fun _ hb => Memory.read_copyForward_other m src dst n hb

/-- Writing a range and then the range after it changes no byte outside both. -/
theorem unchangedOutside.append {m m' m'' : Memory} {a n k : Nat} (h : unchangedOutside m m' a n)
    (h' : unchangedOutside m' m'' (a + n) k) : unchangedOutside m m'' a (n + k) :=
  fun b hb => (h' b (by omega)).trans (h b (by omega))

/-! ### An emission -/

/-- Between two states of one turn an encode job emits `n` bytes: it writes them at its output cursor, inside its destination
window (42_encoder.md R211). -/
structure Emitted (n : Nat) (s t : State) : Prop where
  base : t.job.dstBase = s.job.dstBase
  capacity : t.job.dstCap = s.job.dstCap
  cursor : t.job.outPos = s.job.outPos + n
  inWindow : n ≠ 0 → s.job.outPos + n ≤ s.job.dstCap.toNat
  frame : unchangedOutside s.mem t.mem (s.job.dstAddr s.job.outPos) n

theorem Emitted.refl (s : State) : Emitted 0 s s := ⟨rfl, rfl, rfl, nofun, unchangedOutside_refl _ _ _⟩

theorem Emitted.noteMatch (s : State) : Emitted 0 s (noteMatch s) := { Emitted.refl s with }

theorem Emitted.appendLiteral (s : State) : Emitted 0 s (appendLiteral (Machine.noteMatch s)) := { Emitted.refl s with }

theorem Emitted.append {n k : Nat} {s t u : State} (h : Emitted n s t) (h' : Emitted k t u) : Emitted (n + k) s u where
  base := h'.base.trans h.base
  capacity := h'.capacity.trans h.capacity
  cursor := by rw [h'.cursor, h.cursor, add_assoc]
  inWindow hne := by
    have h1 := h.inWindow
    have h2 := h'.inWindow
    rw [h.cursor, h.capacity] at h2
    omega
  frame := by
    have hstart : t.job.dstAddr t.job.outPos = s.job.dstAddr s.job.outPos + n := by
      rw [h.cursor, Job.dstAddr, Job.dstAddr, h.base, add_assoc]
    exact h.frame.append (hstart ▸ h'.frame)

theorem Emitted.unit {s : State} {bytes : List Byte} (h : s.dstDefined s.job.outPos bytes.length = true) :
    Emitted bytes.length s (unitDone bytes s) :=
  ⟨rfl, rfl, rfl, fun _ => ((dstDefined_iff ..).1 h).1, unchangedOutside_writeList _ _ _⟩

theorem Emitted.flush {s t : State} (h : flushLiteral s = .go t) : ∃ n, Emitted n s t := by
  rcases flushLiteral_go h with ⟨-, rfl⟩ | ⟨hd, rfl⟩
  · exact ⟨0, .refl t⟩
  · exact ⟨_, { Emitted.unit hd with }⟩

theorem Emitted.copyDone {s : State} {len idx : Nat}
    (h : s.dstDefined s.job.outPos (copyUnit s.job.kind idx len).length = true) :
    Emitted (copyUnit s.job.kind idx len).length s (copyDone len idx s) :=
  { Emitted.unit h with }

theorem EmissionPoint.emitted {s t : State} (h : EmissionPoint s t) : ∃ n, Emitted n s t := by
  cases h with
  | start => exact ⟨0, .refl s⟩
  | noted => exact ⟨0, .noteMatch s⟩
  | appended => exact ⟨0, .appendLiteral s⟩
  | flushed hf =>
    obtain ⟨n, h⟩ := Emitted.flush hf
    exact ⟨0 + n, (Emitted.noteMatch s).append h⟩

/-! ### A turn of the engine -/

/-- A turn from `s` to `t` writes at most `n` bytes, those after the bytes already produced (20_memory.md R81, R96). -/
structure WritesOutput (n : Nat) (s t : State) : Prop where
  frame : unchangedOutside s.mem t.mem (s.job.dstAddr (produced s)) n
  inWindow : n ≠ 0 → produced s + n ≤ s.job.dstCap.toNat
  inImage : StateOk s → s.job.op = .decode → n ≠ 0 → produced s + n ≤ s.job.totalBytes

theorem WritesOutput.of_mem_eq {s t : State} (h : t.mem = s.mem) : WritesOutput 0 s t :=
  ⟨h ▸ unchangedOutside_refl _ _ _, nofun, nofun⟩

theorem produced_seed {s : State} (h : s.engine = .seed) : produced s = 0 := by simp [produced, h]

theorem produced_loop_decode {s : State} (h : s.engine = .loop) (ho : s.job.op = .decode) : produced s = s.job.dstPos := by
  simp [produced, h, ho]

theorem produced_loop_encode {s : State} (h : s.engine = .loop) (ho : s.job.op = .encode) : produced s = s.job.outPos := by
  simp [produced, h, ho]

theorem DecodeTurn.writesOutput {s t : State} (ho : s.job.op = .decode) (h : DecodeTurn s t) :
    ∃ n, WritesOutput n s t := by
  cases h with
  | seedShort | failed | finished => exact ⟨0, .of_mem_eq rfl⟩
  | seeded hl hs hd =>
    refine ⟨s.job.d, ?_, fun _ => ?_, fun hok _ _ => ?_⟩ <;> rw [produced_seed hl]
    · exact unchangedOutside_copyForward _ _ _ _
    · exact ((dstDefined_iff ..).1 hd).1
    · simpa using d_le_totalBytes (hok.config (by simp [hl, Engine.checked]))
  | command hl n src pos hn hp hd =>
    refine ⟨n * s.job.d, ?_, fun _ => ?_, fun hok _ _ => ?_⟩ <;> rw [produced_loop_decode hl ho]
    · exact unchangedOutside_copyForward _ _ _ _
    · exact ((dstDefined_iff ..).1 hd).1
    · exact (hok.decoder hl ho).total ▸ Nat.add_le_add_left hn _

/-- What a step of the encoder's loop emitted is all that it wrote, when it ends with that memory. -/
theorem Emitted.writesOutput {n : Nat} {s t u : State} (h : Emitted n s t) (hl : s.engine = .loop) (ho : s.job.op = .encode)
    (hu : u.mem = t.mem) : WritesOutput n s u := by
  refine ⟨?_, fun hn => ?_, fun _ hd => by simp [ho] at hd⟩ <;> rw [produced_loop_encode hl ho]
  · exact hu ▸ h.frame
  · exact h.inWindow hn

theorem EncodeTurn.writesOutput {s t : State} (ho : s.job.op = .encode) (h : EncodeTurn s t) :
    ∃ n, WritesOutput n s t := by
  cases h with
  | seedOverflow | appended => exact ⟨0, .of_mem_eq rfl⟩
  | seeded hl hs hd =>
    refine ⟨s.job.d, ?_, fun _ => ?_, fun _ hdec => by simp [ho] at hdec⟩ <;> rw [produced_seed hl]
    · have hframe := unchangedOutside_writeList s.mem (s.job.dstAddr 0) (s.mem.readList (s.job.srcAddr 0) s.job.d)
      rwa [Memory.readList_length] at hframe
    · exact ((dstDefined_iff ..).1 hd).1
  | overflow hl hp =>
    obtain ⟨n, h⟩ := hp.emitted
    exact ⟨n, h.writesOutput hl ho rfl⟩
  | copied hl _ hf hd =>
    obtain ⟨n, h⟩ := Emitted.flush hf
    exact ⟨_, (((Emitted.noteMatch s).append h).append (.copyDone hd)).writesOutput hl ho rfl⟩
  | filled hl hc hf =>
    obtain ⟨n, h⟩ := Emitted.flush hf
    exact ⟨_, ((Emitted.appendLiteral s).append h).writesOutput hl ho rfl⟩
  | finished hl _ hf =>
    obtain ⟨n, h⟩ := Emitted.flush hf
    exact ⟨n, h.writesOutput hl ho rfl⟩

theorem EngineTurn.writesOutput {s t : State} (h : EngineTurn s t) : ∃ n, WritesOutput n s t := by
  cases h with
  | idle | checkFailed | checkPassed => exact ⟨0, .of_mem_eq rfl⟩
  | decode ho h => exact h.writesOutput ho
  | encode ho h => exact h.writesOutput ho

/-- Settles O34: the bytes written follow the produced ones and end inside the window. -/
theorem engineWritesOnlyTheDestination : Obligations.EngineWritesOnlyTheDestination := by
  intro s t a hturn ha
  obtain ⟨n, hframe, hwin, -⟩ := (engineTurn_turn hturn).writesOutput
  refine hframe a ?_
  unfold Job.dstAddr
  omega

/-- Settles O35: the written bytes lie past the produced ones, in the window and in a decode job's image, and the source
window has no byte of them. -/
theorem engineKeepsSourceAndProducedBytes : Obligations.EngineKeepsSourceAndProducedBytes := by
  intro s t hs hturn
  obtain ⟨n, hframe, hwin, himage⟩ := (engineTurn_turn hturn).writesOutput
  refine ⟨fun i hi hc => hframe _ ?_, fun i hi => hframe _ ?_, fun i ho hi => hframe _ ?_⟩
  · obtain ⟨-, -, -, -, hapart, -⟩ := (configOk_iff s).1 (hs.config hc)
    rw [rangesDisjoint_iff] at hapart
    unfold Job.srcAddr Job.dstAddr
    omega
  · unfold Job.dstAddr
    omega
  · have := himage hs ho
    unfold Job.dstAddr
    omega

/-! ## The bytes that a turn's outcome depends on

A turn is run twice, on one state with two memories that read alike at the readable addresses: the source window and the
output produced so far. Every operation then ends alike, with memories that read alike at the addresses readable after it. -/

/-! ### Memories that read alike -/

/-- Two canonical memories that read alike at the addresses of `A`. -/
structure Alike (A : Set Nat) (m m' : Memory) : Prop where
  canonical : m.wf = true
  canonical' : m'.wf = true
  reads : Set.EqOn m.read m'.read A

theorem Alike.mono {A B : Set Nat} {m m' : Memory} (h : Alike A m m') (hB : B ⊆ A) : Alike B m m' :=
  { h with reads := h.reads.mono hB }

/-- The same byte written to both memories is one more byte that reads alike. -/
theorem Alike.write {A : Set Nat} {m m' : Memory} (h : Alike A m m') (a : Nat) (v : Byte) :
    Alike (insert a A) (m.write a v) (m'.write a v) where
  canonical := Memory.write_wf a v h.canonical
  canonical' := Memory.write_wf a v h.canonical'
  reads b hb := by
    rw [Memory.read_write a b v h.canonical, Memory.read_write a b v h.canonical']
    split
    · rfl
    · exact h.reads (hb.resolve_left ‹_›)

theorem Alike.writeList {A : Set Nat} {m m' : Memory} (h : Alike A m m') (a : Nat) (bs : List Byte) :
    Alike (A ∪ Set.Ico a (a + bs.length)) (m.writeList a bs) (m'.writeList a bs) := by
  induction bs generalizing A m m' a with
  | nil => simpa [Memory.writeList] using h
  | cons v rest ih =>
    refine (ih (h.write a v) (a + 1)).mono fun b hb => ?_
    simp only [Set.mem_union, Set.mem_insert_iff, Set.mem_Ico, List.length_cons] at hb ⊢
    grind

/-- A forward copy of bytes that read alike, or that the copy itself has written before, leaves bytes that read alike
(41_decoder.md R181). -/
theorem Alike.copyForward {A : Set Nat} {m m' : Memory} (h : Alike A m m') {src dst n : Nat}
    (hsrc : ∀ j, j < n → src + j ∈ A ∪ Set.Ico dst (dst + j)) :
    Alike (A ∪ Set.Ico dst (dst + n)) (m.copyForward src dst n) (m'.copyForward src dst n) := by
  induction n generalizing A m m' src dst with
  | zero => simpa [Memory.copyForward] using h
  | succ n ih =>
    have hfirst : m.read src = m'.read src := h.reads (by simpa using hsrc 0 (Nat.succ_pos n))
    have hrest : ∀ j, j < n → src + 1 + j ∈ insert dst A ∪ Set.Ico (dst + 1) (dst + 1 + j) := fun j hj => by
      have := hsrc (j + 1) (by omega)
      rw [show src + (j + 1) = src + 1 + j by omega] at this
      simp only [Set.mem_union, Set.mem_insert_iff, Set.mem_Ico] at this ⊢
      grind
    simp only [Memory.copyForward, ← hfirst]
    refine (ih (h.write dst (m.read src)) hrest).mono fun b hb => ?_
    simp only [Set.mem_union, Set.mem_insert_iff, Set.mem_Ico] at hb ⊢
    grind

theorem Alike.readList {A : Set Nat} {m m' : Memory} (h : Alike A m m') {a n : Nat} (hA : Set.Ico a (a + n) ⊆ A) :
    m.readList a n = m'.readList a n :=
  Memory.readList_congr fun _ hi => h.reads (hA ⟨Nat.le_add_right .., Nat.add_lt_add_left hi a⟩)

/-! ### The readable addresses -/

/-- The addresses a job may read when it has produced `n` bytes: its source window and those bytes (20_memory.md R92). -/
def Job.readable (j : Job) (n : Nat) : Set Nat :=
  Set.Ico (j.srcAddr 0) (j.srcAddr j.srcLen.toNat) ∪ Set.Ico (j.dstAddr 0) (j.dstAddr n)

theorem Job.mem_readable (j : Job) (n a : Nat) :
    a ∈ j.readable n ↔
      (j.srcBase.toNat ≤ a ∧ a < j.srcBase.toNat + j.srcLen.toNat) ∨
      (j.dstBase.toNat ≤ a ∧ a < j.dstBase.toNat + n) := Iff.rfl

theorem Job.readable_mono (j : Job) {n k : Nat} (h : n ≤ k) : j.readable n ⊆ j.readable k := fun a ha => by
  rw [Job.mem_readable] at ha ⊢
  omega

theorem Job.source_subset_readable (j : Job) {off len : Nat} (h : off + len ≤ j.srcLen.toNat) (n : Nat) :
    Set.Ico (j.srcAddr off) (j.srcAddr off + len) ⊆ j.readable n := fun a ha => by
  rw [Set.mem_Ico, Job.srcAddr] at ha
  rw [Job.mem_readable]
  omega

/-- Output written after the first `n` bytes becomes readable. -/
theorem Job.readable_add (j : Job) (n k : Nat) :
    j.readable (n + k) ⊆ j.readable n ∪ Set.Ico (j.dstAddr n) (j.dstAddr n + k) := fun a ha => by
  rw [Set.mem_union, Set.mem_Ico, Job.dstAddr]
  rw [Job.mem_readable] at ha ⊢
  omega

/-- The state with another buffer memory. -/
def State.withMem (s : State) (m : Memory) : State := { s with mem := m }

@[simp] theorem State.withMem_job (s : State) (m : Memory) : (s.withMem m).job = s.job := rfl
@[simp] theorem State.withMem_mem (s : State) (m : Memory) : (s.withMem m).mem = m := rfl

/-- `AgreeUpTo` in terms of the readable addresses. -/
theorem agreeUpTo_withMem (n : Nat) (s : State) (m : Memory) :
    AgreeUpTo n s (s.withMem m) ↔ Set.EqOn s.mem.read m.read (s.job.readable n) := by
  refine ⟨fun h a ha => ?_, fun h => ⟨rfl, fun i hi => h ?_, fun i hi => h ?_⟩⟩
  · rcases (Job.mem_readable ..).1 ha with ⟨hlo, hhi⟩ | ⟨hlo, hhi⟩
    · have := h.source (a - s.job.srcBase.toNat) (by omega)
      rwa [State.withMem_job, Job.srcAddr, Nat.add_sub_cancel' hlo] at this
    · have := h.output (a - s.job.dstBase.toNat) (by omega)
      rwa [State.withMem_job, Job.dstAddr, Nat.add_sub_cancel' hlo] at this
  · exact (Job.mem_readable ..).2 (.inl ⟨Nat.le_add_right .., Nat.add_lt_add_left hi _⟩)
  · exact (Job.mem_readable ..).2 (.inr ⟨Nat.le_add_right .., Nat.add_lt_add_left hi _⟩)

theorem AgreeUpTo.eq_withMem {n : Nat} {s t : State} (h : AgreeUpTo n s t) : t = s.withMem t.mem :=
  (congrArg (State.withMem · t.mem) h.same :).symm

/-! ### Outcomes that are alike -/

/-- Two outcomes are the same but for memory bytes that the job may not read. -/
inductive AlikeOutcome : Host.Outcome State Fault Refusal → Host.Outcome State Fault Refusal → Prop where
  | next {s : State} {m : Memory} (h : Alike (s.job.readable (produced s)) s.mem m) :
      AlikeOutcome (.next s) (.next (s.withMem m))
  | fault (f : Fault) : AlikeOutcome (.fault f) (.fault f)
  | refused (r : Refusal) : AlikeOutcome (.refused r) (.refused r)

theorem AlikeOutcome.ite {p : Prop} [Decidable p] {a b a' b' : Host.Outcome State Fault Refusal}
    (ht : p → AlikeOutcome a a') (hf : ¬ p → AlikeOutcome b b') :
    AlikeOutcome (if p then a else b) (if p then a' else b') := by
  split
  · exact ht ‹_›
  · exact hf ‹_›

/-- The output counts as produced up to the job's cursor at most. -/
theorem produced_le_dstPos {s : State} (h : s.job.op = .decode) : produced s ≤ s.job.dstPos := by
  unfold produced
  split <;> simp_all
  split <;> omega

theorem produced_le_outPos {s : State} (h : s.job.op = .encode) : produced s ≤ s.job.outPos := by
  unfold produced
  split <;> simp_all
  split <;> omega

theorem AlikeOutcome.decode {s : State} {m : Memory} (ho : s.job.op = .decode)
    (h : Alike (s.job.readable s.job.dstPos) s.mem m) : AlikeOutcome (.next s) (.next (s.withMem m)) :=
  .next (h.mono (s.job.readable_mono (produced_le_dstPos ho)))

theorem AlikeOutcome.encode {s : State} {m : Memory} (ho : s.job.op = .encode)
    (h : Alike (s.job.readable s.job.outPos) s.mem m) : AlikeOutcome (.next s) (.next (s.withMem m)) :=
  .next (h.mono (s.job.readable_mono (produced_le_outPos ho)))

/-! ### The decoder -/

theorem execSeed_alike {s : State} {m : Memory} (ho : s.job.op = .decode) (hd : s.done = false)
    (h : Alike (s.job.readable 0) s.mem m) : AlikeOutcome (execSeed s) (execSeed (s.withMem m)) := by
  refine .ite (fun _ => ?_) fun hl => .ite (fun _ => .fault _) fun _ => .ite (fun _ => .fault _) fun _ => ?_
  · have hnone : produced (s.raise .truncated 0 0 0) = 0 := by simp [produced, ho, hd]
    exact .next (s := s.raise .truncated 0 0 0) (hnone ▸ h)
  · have hsrc : Set.Ico (s.job.srcAddr 0) (s.job.srcAddr 0 + s.job.d) ⊆ s.job.readable 0 :=
      s.job.source_subset_readable (by omega) 0
    have hcopy := h.copyForward (dst := s.job.dstAddr 0) (n := s.job.d) fun j hj =>
      .inl (hsrc ⟨Nat.le_add_right .., Nat.add_lt_add_left hj _⟩)
    have hout := s.job.readable_add 0 s.job.d
    rw [Nat.zero_add] at hout
    exact .decode (s := seedDone s) ho (hcopy.mono hout)

theorem commandDone_alike {s : State} {m mem mem' : Memory} {pos nb : Nat} (ho : s.job.op = .decode)
    (h : Alike (s.job.readable s.job.dstPos ∪ Set.Ico (s.job.dstAddr s.job.dstPos) (s.job.dstAddr s.job.dstPos + nb))
      mem mem') :
    AlikeOutcome (.next (s.commandDone mem pos nb)) (.next ((s.withMem m).commandDone mem' pos nb)) :=
  .decode (s := s.commandDone mem pos nb) ho (h.mono (s.job.readable_add s.job.dstPos nb))

section

variable {s : State} {m : Memory} (ho : s.job.op = .decode) (h : Alike (s.job.readable s.job.dstPos) s.mem m)

include ho h

theorem raiseInCommand_alike (e : JobError) :
    AlikeOutcome (.next (s.raiseInCommand e)) (.next ((s.withMem m).raiseInCommand e)) :=
  .decode (s := s.raiseInCommand e) ho h

theorem literalBody_alike (header n : Nat) :
    AlikeOutcome (literalBody header n s) (literalBody header n (s.withMem m)) := by
  refine .ite (fun _ => raiseInCommand_alike ho h _) fun _ => .ite (fun _ => raiseInCommand_alike ho h _) fun hl =>
    .ite (fun _ => .fault _) fun _ => .ite (fun _ => .fault _) fun _ => commandDone_alike ho (h.copyForward fun j hj => ?_)
  exact .inl (s.job.source_subset_readable (Nat.le_of_not_lt hl) _ ⟨Nat.le_add_right .., Nat.add_lt_add_left hj _⟩)

/-- A copy reads output alone, from before the write cursor on (41_decoder.md R180, R181). -/
theorem copyBody_alike (header n idx : Nat) :
    AlikeOutcome (copyBody header n idx s) (copyBody header n idx (s.withMem m)) := by
  refine .ite (fun _ => raiseInCommand_alike ho h _) fun _ => .ite (fun _ => raiseInCommand_alike ho h _) fun hdelta =>
    .ite (fun _ => .fault _) fun _ => commandDone_alike ho (h.copyForward fun j hj => ?_)
  simp only [Set.mem_union, Job.mem_readable, Set.mem_Ico, Job.dstAddr]
  omega

theorem CommandForm.run_alike (f : CommandForm) : AlikeOutcome (f.run s) (f.run (s.withMem m)) := by
  cases f with
  | literal header n => exact literalBody_alike ho h header n
  | copy header n idx => exact copyBody_alike ho h header n idx

omit ho in
theorem fetchBytes_alike : fetchBytes (s.withMem m) = fetchBytes s := by
  by_cases hp : s.job.srcPos ≤ s.job.srcLen.toNat
  · exact (h.readList (s.job.source_subset_readable (headerRoom_le hp) _)).symm
  · have h0 : headerRoom s.job = 0 := by unfold headerRoom; omega
    simp [fetchBytes, h0, Memory.readList]

theorem decodeStep_alike : AlikeOutcome (decodeStep s) (decodeStep (s.withMem m)) := by
  refine .ite (fun _ => .fault _) fun _ => ?_
  rw [fetchBytes_alike h, State.withMem_job]
  cases hdec : decodeCommand s.job.kind (fetchBytes s) with
  | error e => exact raiseInCommand_alike ho h _
  | ok p =>
    obtain ⟨f, hf⟩ := decodeCommand_form hdec
    simp only [exec_form hf]
    exact f.run_alike ho h

end

/-! ### The match finder -/

theorem extendMatch_congr {same same' : Nat → Bool} {room k : Nat} (h : ∀ i, i < k + room → same i = same' i) :
    extendMatch same room k = extendMatch same' room k := by
  induction room generalizing k with
  | zero => rfl
  | succ room ih =>
    rw [extendMatch, extendMatch, h k (by omega), ih fun i hi => h i (by omega)]

section

variable {s : State} {m : Memory} (h : Alike (s.job.readable s.job.outPos) s.mem m)
  (hsrc : s.job.totalBytes ≤ s.job.srcLen.toNat)

include h hsrc

/-- The source image lies in the source window, pixel by pixel. -/
theorem pixelsEqual_alike {p q : Nat} (hp : p < s.job.totalPixels) (hq : q < s.job.totalPixels) :
    pixelsEqual (s.withMem m) p q = pixelsEqual s p q := by
  have hpixel : ∀ {r}, r < s.job.totalPixels →
      m.readList (s.job.srcAddr (r * s.job.d)) s.job.d = s.mem.readList (s.job.srcAddr (r * s.job.d)) s.job.d :=
    fun {r} hr => by
      have hend : r * s.job.d + s.job.d ≤ s.job.totalBytes := by
        rw [← Nat.succ_mul]; exact Nat.mul_le_mul_right _ hr
      exact (h.readList (s.job.source_subset_readable (le_trans hend hsrc) _)).symm
  simp only [pixelsEqual, State.withMem_job, State.withMem_mem, hpixel hp, hpixel hq]

/-- The match finder reads the source image alone (42_encoder.md R223, R234). -/
theorem matchEntry_alike (hc : s.job.current < s.job.totalPixels) :
    matchEntry (s.withMem m) = matchEntry s := by
  funext i
  have hbound : matchBound s ≤ s.job.totalPixels := Nat.min_le_right ..
  refine ite_congr rfl (fun _ => rfl) fun hdelta => ite_congr rfl (fun _ => rfl) fun hprev => ?_
  have hback : ((s.job.current : Int) + s.job.shiftDeltas.getD i 0).toNat < s.job.current := by omega
  have hinside : ∀ k, k < 1 + (matchBound s - s.job.current - 1) →
      ((s.job.current : Int) + s.job.shiftDeltas.getD i 0).toNat + k < s.job.totalPixels ∧
      s.job.current + k < s.job.totalPixels := fun k hk => by omega
  refine ite_congr ?_ (fun _ => rfl) fun _ => ?_
  · exact congrArg (fun b => (!b) = true) (pixelsEqual_alike h hsrc (lt_trans hback hc) hc)
  · exact extendMatch_congr fun k hk => pixelsEqual_alike h hsrc (hinside k hk).1 (hinside k hk).2

theorem matchSearch_alike (hc : s.job.current < s.job.totalPixels) :
    matchSearch (s.withMem m) = matchSearch s := by
  rw [matchSearch, matchEntry_alike h hsrc hc]
  rfl

end

/-! ### The encoder -/

/-- Two emissions go on, or end the step, alike. -/
inductive AlikeFlow : Flow → Flow → Prop where
  | go {s : State} {m : Memory} (ho : s.job.op = .encode) (h : Alike (s.job.readable s.job.outPos) s.mem m) :
      AlikeFlow (.go s) (.go (s.withMem m))
  | stop {o o' : Host.Outcome State Fault Refusal} (h : AlikeOutcome o o') : AlikeFlow (.stop o) (.stop o')

theorem AlikeFlow.ite {p : Prop} [Decidable p] {a b a' b' : Flow} (ht : p → AlikeFlow a a') (hf : ¬ p → AlikeFlow b b') :
    AlikeFlow (if p then a else b) (if p then a' else b') := by
  split
  · exact ht ‹_›
  · exact hf ‹_›

theorem AlikeFlow.run {f f' : Flow} (h : AlikeFlow f f') {rest : State → Host.Outcome State Fault Refusal}
    (hrest : ∀ (s : State) (m : Memory), s.job.op = .encode → Alike (s.job.readable s.job.outPos) s.mem m →
      AlikeOutcome (rest s) (rest (s.withMem m))) : AlikeOutcome (f.run rest) (f'.run rest) := by
  cases h with
  | go ho h => exact hrest _ _ ho h
  | stop h => exact h

/-- The pending literal is re-read from the source window (42_encoder.md R230). -/
theorem literalUnit_alike {s : State} {m : Memory} (h : Alike (s.job.readable s.job.outPos) s.mem m)
    (hsrc : s.job.litStart * s.job.d + s.job.litLen * s.job.d ≤ s.job.srcLen.toNat) :
    literalUnit (s.withMem m) = literalUnit s :=
  congrArg (literalHeader s.job.litLen ++ ·) (h.readList (s.job.source_subset_readable hsrc _)).symm

section

variable {s : State} {m : Memory} (ho : s.job.op = .encode) (h : Alike (s.job.readable s.job.outPos) s.mem m)

include ho h

theorem emitSeq_alike (bytes : List Byte) :
    AlikeFlow (emitSeq bytes s) (emitSeq bytes (s.withMem m)) :=
  .ite (fun _ => .stop (.encode (s := s.raiseInUnit .dstOverflow) ho h)) fun _ =>
    .ite (fun _ => .stop (.fault _)) fun _ =>
      .go (s := unitDone bytes s) ho ((h.writeList _ bytes).mono (s.job.readable_add s.job.outPos bytes.length))

theorem flushLiteral_alike : AlikeFlow (flushLiteral s) (flushLiteral (s.withMem m)) := by
  refine .ite (fun _ => .go ho h) fun _ => .ite (fun _ => .stop (.fault _)) fun hs => ?_
  have hsrc := ((srcDefined_iff ..).1 (by simpa using hs)).1
  rw [literalUnit_alike h hsrc]
  have hemit := emitSeq_alike ho h (literalUnit s)
  generalize emitSeq (literalUnit s) s = f, emitSeq (literalUnit s) (s.withMem m) = f' at hemit
  cases hemit with
  | @go t _ ho ht => exact .go (s := { t with job := { t.job with litLen := 0 } }) ho ht
  | stop ht => exact .stop ht

/-- A boundary adds to the passed ones only. -/
theorem encoderBoundary_alike : AlikeOutcome (.next (encoderBoundary s)) (.next (encoderBoundary (s.withMem m))) :=
  .encode (s := encoderBoundary s) ho h

theorem copyPath_alike (len idx : Nat) :
    AlikeOutcome (copyPath len idx s) (copyPath len idx (s.withMem m)) :=
  (flushLiteral_alike ho h).run fun _ _ ho ht => (emitSeq_alike ho ht _).run fun u _ ho hu =>
    encoderBoundary_alike (s := { u with job := { u.job with current := u.job.current + len } }) ho hu

theorem literalPath_alike : AlikeOutcome (literalPath s) (literalPath (s.withMem m)) :=
  .ite (fun _ => (flushLiteral_alike (s := appendLiteral s) ho h).run fun _ _ => encoderBoundary_alike) fun _ =>
    encoderBoundary_alike (s := appendLiteral s) ho h

theorem encodePass_alike (hc : s.job.current < s.job.totalPixels) :
    AlikeOutcome (encodePass s) (encodePass (s.withMem m)) := by
  unfold encodePass
  refine .ite (fun _ => .fault _) fun hs => ?_
  have hsrc : s.job.totalBytes ≤ s.job.srcLen.toNat := by
    have := (srcDefined_iff s 0 s.job.totalBytes).1 (by simpa using hs)
    omega
  rw [matchSearch_alike h hsrc hc]
  exact .ite (fun _ => copyPath_alike (s := noteMatch s) ho h _ _) fun _ => literalPath_alike (s := noteMatch s) ho h

theorem encodeFinish_alike : AlikeOutcome (encodeFinish s) (encodeFinish (s.withMem m)) :=
  (flushLiteral_alike ho h).run fun t _ ho ht => .encode (s := t.endDone t.job.totalBytes t.job.outPos) ho ht

end

theorem encodeSeed_alike {s : State} {m : Memory} (ho : s.job.op = .encode) (h : Alike (s.job.readable 0) s.mem m) :
    AlikeOutcome (encodeSeed s) (encodeSeed (s.withMem m)) := by
  refine .ite (fun _ => .fault _) fun (hs : ¬ (!s.srcDefined 0 s.job.d) = true) => ?_
  have hd : s.job.d ≤ s.job.srcLen.toNat := by
    have := (srcDefined_iff s 0 s.job.d).1 (by simpa using hs)
    omega
  have hread := h.readList (s.job.source_subset_readable (off := 0) (len := s.job.d) (by omega) 0)
  have hemit : AlikeFlow (emitSeq (s.mem.readList (s.job.srcAddr 0) s.job.d) (encodeSetup s))
      (emitSeq (m.readList (s.job.srcAddr 0) s.job.d) ((encodeSetup s).withMem m)) := by
    rw [← hread]
    exact emitSeq_alike (s := encodeSetup s) ho h _
  exact hemit.run fun t _ ho ht =>
    .encode (s := encoderBoundary { t with engine := .loop }) ho ht

/-! ### A turn of the engine -/

/-- A turn of a checked job ends alike from memories that read alike where the job may read. -/
theorem engineTurn_alike {s : State} {m : Memory} (hs : StateOk s) (hc : s.engine.checked = true)
    (h : Alike (s.job.readable (produced s)) s.mem m) : AlikeOutcome (engineTurn s) (engineTurn (s.withMem m)) := by
  cases he : s.engine with
  | idle | check => simp [he, Engine.checked] at hc
  | seed =>
    rw [produced_seed he] at h
    cases ho : s.job.op with
    | decode =>
      rw [engineTurn_seed_decode he ho, engineTurn_seed_decode (s := s.withMem m) he ho]
      exact execSeed_alike ho (hs.status.quietWhileBusy (busy_of_checked hc)).1 h
    | encode =>
      rw [engineTurn_seed_encode he ho, engineTurn_seed_encode (s := s.withMem m) he ho]
      exact encodeSeed_alike ho h
  | loop =>
    cases ho : s.job.op with
    | decode =>
      rw [produced_loop_decode he ho] at h
      rw [engineTurn_loop_decode he ho, engineTurn_loop_decode (s := s.withMem m) he ho]
      exact .ite (fun _ => .decode (s := s.endDone s.job.srcPos s.job.dstPos) ho h) fun _ => decodeStep_alike ho h
    | encode =>
      rw [produced_loop_encode he ho] at h
      rw [engineTurn_loop_encode he ho, engineTurn_loop_encode (s := s.withMem m) he ho]
      exact .ite (fun hcur => encodePass_alike ho h hcur) fun _ => encodeFinish_alike ho h

/-- Settles O50: agreement up to the produced bytes is reading alike at the readable addresses. -/
theorem priorDestinationIsNeverRead : Obligations.PriorDestinationIsNeverRead := by
  intro s t s' hs ht hc hagree hturn
  obtain ⟨m, rfl⟩ : ∃ m, t = s.withMem m := ⟨_, hagree.eq_withMem⟩
  have hreads : Alike (s.job.readable (produced s)) s.mem m :=
    ⟨hs.memory.canonical, ht.memory.canonical, (agreeUpTo_withMem ..).1 hagree⟩
  have halike := engineTurn_alike hs hc hreads
  rw [hturn] at halike
  generalize engineTurn (s.withMem m) = o at halike
  cases halike with
  | @next _ m' h => exact ⟨_, rfl, (agreeUpTo_withMem ..).2 h.reads⟩

/-! ## The host's accesses -/

theorem inBusyDestination_iff (s : State) (a : Nat) :
    inBusyDestination s a = true ↔
      s.busy = true ∧ s.job.dstBase.toNat ≤ a ∧ a < s.job.dstBase.toNat + s.job.dstCap.toNat := by
  simp [inBusyDestination, inRange_iff]

theorem inBusyWindow_iff (s : State) (a : Nat) :
    inBusyWindow s a = true ↔
      s.busy = true ∧ ((s.job.srcBase.toNat ≤ a ∧ a < s.job.srcBase.toNat + s.job.srcLen.toNat) ∨
        (s.job.dstBase.toNat ≤ a ∧ a < s.job.dstBase.toNat + s.job.dstCap.toNat)) := by
  simp [inBusyWindow, inRange_iff]

theorem deviceAt_iff (s : State) (a : Nat) :
    deviceAt s a = true ↔ ∃ r ∈ s.params.devices, r.1 ≤ a ∧ a < r.1 + r.2 := by
  simp [deviceAt, inRange_iff]

/-- A read of an existing byte in no device (20_memory.md R93; log entry 8). -/
theorem hostTurn_memRead {s : State} {a : Nat} (ha : a < s.addressTop) (hd : deviceAt s a = false) :
    hostTurn (.memRead a) s =
      .next { s with
        rdata := (if inBusyDestination s a = true then Config.busyByte s.draws else s.mem.read a).setWidth 32
        draws := s.draws + 1 } := by
  simp [hostTurn, hostMemRead, Nat.not_le_of_lt ha, hd]

theorem hostTurn_memWrite {s : State} {a : Nat} (v : Byte) (ha : a < s.addressTop) (hd : deviceAt s a = false)
    (hw : ¬ inBusyWindow s a = true) : hostTurn (.memWrite a v) s = .next { s with mem := s.mem.write a v } := by
  simp [hostTurn, hostMemWrite, Nat.not_le_of_lt ha, hd, hw]

/-- Settles O31: the access is neither refused nor free, and a written byte reads back (`Memory.read_write_same`). -/
theorem hostMemoryAccess : Obligations.HostMemoryAccess := by
  intro s a v hm ha hd hdst
  have hfree : ¬ inBusyDestination s a = true := fun h => by
    obtain ⟨hb, hin⟩ := (inBusyDestination_iff s a).1 h
    have := hdst hb
    omega
  refine ⟨by rw [hostTurn_memRead ha hd, if_neg hfree], fun hsrc => ?_⟩
  have hout : ¬ inBusyWindow s a = true := fun h => by
    obtain ⟨hb, hin⟩ := (inBusyWindow_iff s a).1 h
    have := hsrc hb
    have := hdst hb
    omega
  exact ⟨_, hostTurn_memWrite v ha hd hout, Memory.read_write_same a v hm, unchangedOutside_write s.mem a v⟩

/-- Settles O33: the free byte is the value. -/
theorem destinationReadWhileBusyCompletes : Obligations.DestinationReadWhileBusyCompletes := by
  intro s a hb ha hd hlo hhi
  have hdst : inBusyDestination s a = true := (inBusyDestination_iff s a).2 ⟨hb, hlo, hhi⟩
  exact ⟨_, by rw [hostTurn_memRead ha hd, if_pos hdst]⟩

/-- A job's windows hold a device exactly where a device's address lies in one of them (20_memory.md R88). -/
theorem deviceInWindow_iff (s : State) :
    deviceInWindow s = true ↔ ∃ a, deviceAt s a = true ∧
      ((s.job.srcBase.toNat ≤ a ∧ a < s.job.srcBase.toNat + s.job.srcLen.toNat) ∨
        (s.job.dstBase.toNat ≤ a ∧ a < s.job.dstBase.toNat + s.job.dstCap.toNat)) := by
  simp only [deviceInWindow, List.any_eq_true, Bool.or_eq_true, Bool.not_eq_true', rangesDisjoint_false_iff, deviceAt_iff]
  constructor
  · rintro ⟨r, hr, ⟨a, hin, hdev⟩ | ⟨a, hin, hdev⟩⟩
    · exact ⟨a, ⟨r, hr, hdev⟩, .inl hin⟩
    · exact ⟨a, ⟨r, hr, hdev⟩, .inr hin⟩
  · rintro ⟨a, ⟨r, hr, hdev⟩, hin | hin⟩
    · exact ⟨r, hr, .inl ⟨a, hin, hdev⟩⟩
    · exact ⟨r, hr, .inr ⟨a, hin, hdev⟩⟩

/-- Settles O53: the configuration check and the host's two accesses each test for a device before they go on. -/
theorem deviceAccessIsRefused : Obligations.DeviceAccessIsRefused := by
  intro s
  refine ⟨deviceInWindow_iff s, fun he hok hdev => ?_, fun a v ha hdev => ?_⟩
  · rw [engineTurn_check he]
    simp [configCheck, hok, hdev]
  · have htop : ¬ s.addressTop ≤ a := Nat.not_le_of_lt ha
    simp [hostTurn, hostMemRead, hostMemWrite, htop, hdev]

end Sys2Proof.Machine

/-! # Proofs: the encoding of commands (30_encoding.md)

The fields of a command byte, as bits and as numbers; one equation of `decodeCommand` per class of command byte (R121); from
them the agreement of decoder and encoder in both directions (R120), and the units that the encode job emits (R119). -/

namespace Sys2Proof.Machine

/-! ## The fields of a command byte -/

/-! ### As bits (R113 to R115) -/

theorem extractLsb'_one {n : Nat} (x : BitVec n) (i : Nat) : x.extractLsb' i 1 = BitVec.ofBool (x.getLsbD i) := by
  ext j hj
  obtain rfl : j = 0 := by omega
  simp

/-- A byte with bit 7 clear is a 0 and the field below it. -/
theorem literalByte_eq {n : Nat} {cmd : BitVec (1 + n)} (h : cmd.getLsbD n = false) : 0#1 ++ cmd.extractLsb' 0 n = cmd := by
  have htop : cmd.extractLsb' n 1 = 0#1 := by rw [extractLsb'_one, h]; rfl
  rw [← htop, BitVec.extractLsb'_append_extractLsb']

/-- A byte with bit 7 set is a 1, an index field and a count field below it. -/
theorem copyByte_eq {n m : Nat} {cmd : BitVec (1 + n + m)} (h : cmd.getLsbD (m + n) = true) :
    1#1 ++ cmd.extractLsb' m n ++ cmd.extractLsb' 0 m = cmd := by
  have htop : cmd.extractLsb' (m + n) 1 = 1#1 := by rw [extractLsb'_one, h]; rfl
  rw [← htop, BitVec.extractLsb'_append_extractLsb'_eq_extractLsb' rfl, BitVec.extractLsb'_append_extractLsb']

theorem getLsbD_literalByte {n : Nat} (len : BitVec n) : (0#1 ++ len).getLsbD n = false := by
  rw [BitVec.getLsbD_append]
  simp

theorem getLsbD_copyByte {n m : Nat} (idx : BitVec n) (count : BitVec m) :
    (1#1 ++ idx ++ count).getLsbD (m + n) = true := by
  rw [BitVec.getLsbD_append, BitVec.getLsbD_append]
  simp

theorem copyByte_index {n m : Nat} (idx : BitVec n) (count : BitVec m) :
    (1#1 ++ idx ++ count).extractLsb' m n = idx := by
  rw [BitVec.extractLsb'_append_eq_of_le (Nat.le_refl m), Nat.sub_self, BitVec.extractLsb'_append_eq_right]

theorem copyByte_count {n m : Nat} (idx : BitVec n) (count : BitVec m) :
    (1#1 ++ idx ++ count).extractLsb' 0 m = count := BitVec.extractLsb'_append_eq_right

/-! ### As numbers (R117, R118) -/

/-- The lowest field of a word is the word under a mask. -/
theorem toNat_extractLsb'_low {n : Nat} (x : BitVec n) (m : Nat) :
    (x.extractLsb' 0 m).toNat = x.toNat &&& (2 ^ m - 1) := by
  rw [BitVec.extractLsb'_toNat, Nat.shiftRight_zero, Nat.and_two_pow_sub_one_eq_mod]

/-- The field below a clear top bit is the word. -/
theorem toNat_literalField {n : Nat} {cmd : BitVec (1 + n)} (h : cmd.getLsbD n = false) :
    (cmd.extractLsb' 0 n).toNat = cmd.toNat := by
  conv_rhs => rw [← literalByte_eq h, BitVec.toNat_append]
  simp

/-- Bit 7 of a command byte in numbers (R111). -/
theorem getLsbD_seven (cmd : Byte) : cmd.getLsbD 7 = decide (0x80 ≤ cmd.toNat) :=
  (BitVec.msb_eq_getLsbD_last cmd).symm.trans (BitVec.msb_eq_decide cmd)

/-- `LE16` in numbers (00_scope.md R12). -/
theorem toNat_le16 (lo hi : Byte) : (le16 lo hi).toNat = lo.toNat + 256 * hi.toNat := by
  rw [le16, BitVec.toNat_append, ← Nat.shiftLeft_add_eq_or_of_lt lo.isLt, Nat.shiftLeft_eq]
  omega

/-- The two bytes that an emitted extension is split into (R119). -/
theorem toNat_le16_split {n : Nat} (h : n ≤ 0xFFFF) :
    (le16 (BitVec.ofNat 8 (n &&& 0xFF)) (BitVec.ofNat 8 (n >>> 8))).toNat = n := by
  have hlo : n &&& 0xFF = n % 256 := Nat.and_two_pow_sub_one_eq_mod n 8
  rw [toNat_le16, BitVec.toNat_ofNat, BitVec.toNat_ofNat, hlo, Nat.shiftRight_eq_div_pow]
  omega

/-! ## The decoder, one equation per class of command byte (R111, R121) -/

theorem decodeCommand_escape (k : Kind) (rest : List Byte) : decodeCommand k (0x7F#8 :: rest) = withExt .litx rest := rfl

theorem decodeCommand_literal (k : Kind) {cmd : Byte} (h : cmd.getLsbD 7 = false) (hne : cmd ≠ 0x7F#8) (rest : List Byte) :
    decodeCommand k (cmd :: rest) = .ok (.lit (cmd.extractLsb' 0 7), rest) := by
  rw [decodeCommand, if_neg hne, if_pos h]

theorem decodeCommand_copy (k : Kind) {cmd : Byte} (h : cmd.getLsbD 7 = true) (rest : List Byte) :
    decodeCommand k (cmd :: rest) = decodeCopy k cmd rest := by
  have hne : cmd ≠ 0x7F#8 := by rintro rfl; exact absurd h (by decide)
  rw [decodeCommand, if_neg hne, h, if_neg Bool.noConfusion]

/-! ### The command bytes as the encoding tables write them (R113 to R115) -/

theorem decodeCommand_literalByte (k : Kind) (len : BitVec 7) (rest : List Byte) :
    decodeCommand k ((0#1 ++ len) :: rest) = if len = 0x7F#7 then withExt .litx rest else .ok (.lit len, rest) := by
  have hlen : (0#1 ++ len).extractLsb' 0 7 = len := BitVec.extractLsb'_append_eq_right
  by_cases h : len = 0x7F#7
  · rw [if_pos h, h]
    exact decodeCommand_escape k rest
  · have hne : 0#1 ++ len ≠ 0x7F#8 := fun he => h (by rw [← hlen, he]; rfl)
    rw [if_neg h]
    exact (decodeCommand_literal k (getLsbD_literalByte len) hne rest).trans (by rw [hlen])

theorem decodeCommand_copyByte_tc (idx : BitVec 5) (count : BitVec 2) (rest : List Byte) :
    decodeCommand .tc ((1#1 ++ idx ++ count) :: rest) =
      if count = 3#2 then withExt (.cpyxTc idx) rest else .ok (.cpyTc idx count, rest) := by
  refine (decodeCommand_copy .tc (getLsbD_copyByte idx count) rest).trans ?_
  rw [decodeCopy, copyByte_index, copyByte_count]

theorem decodeCommand_copyByte_pal (idx : BitVec 4) (count : BitVec 3) (rest : List Byte) :
    decodeCommand .pal ((1#1 ++ idx ++ count) :: rest) =
      if count = 7#3 then withExt (.cpyxPal idx) rest else .ok (.cpyPal idx count, rest) := by
  refine (decodeCommand_copy .pal (getLsbD_copyByte idx count) rest).trans ?_
  rw [decodeCopy, copyByte_index, copyByte_count]

/-! ### The operands of a copy byte (R117, R118) -/

/-- The two instructions that a copy byte can stand for, by its count field, with their operands. -/
theorem decodeCopy_operands (k : Kind) (cmd : Byte) : ∃ (short : Instr) (long : BitVec 16 → Instr),
    (∀ rest, decodeCopy k cmd rest =
      if cmd.toNat &&& countMask k = countMask k then withExt long rest else .ok (short, rest)) ∧
    copyOperands short =
      some (1, (cmd.toNat &&& countMask k) + countBase k, (cmd.toNat >>> shiftStart k) % tableSize k) ∧
    ∀ ext, copyOperands (long ext) =
      some (3, countMask k + ext.toNat + countBase k, (cmd.toNat >>> shiftStart k) % tableSize k) := by
  cases k with
  | tc =>
    have hcount : (cmd.extractLsb' 0 2).toNat = cmd.toNat &&& countMask .tc := toNat_extractLsb'_low cmd 2
    have hidx : (cmd.extractLsb' 2 5).toNat = (cmd.toNat >>> shiftStart .tc) % tableSize .tc :=
      BitVec.extractLsb'_toNat 2 5 cmd
    refine ⟨.cpyTc (cmd.extractLsb' 2 5) (cmd.extractLsb' 0 2), .cpyxTc (cmd.extractLsb' 2 5),
      fun rest => ?_, ?_, fun ext => ?_⟩
    · rw [decodeCopy, ← hcount]
      exact if_congr BitVec.toNat_inj.symm rfl rfl
    · rw [copyOperands, hcount, hidx, countBase_tc]
    · rw [copyOperands, hidx, countBase_tc, countMask_tc]
      congr 3
      omega
  | pal =>
    have hcount : (cmd.extractLsb' 0 3).toNat = cmd.toNat &&& countMask .pal := toNat_extractLsb'_low cmd 3
    have hidx : (cmd.extractLsb' 3 4).toNat = (cmd.toNat >>> shiftStart .pal) % tableSize .pal :=
      BitVec.extractLsb'_toNat 3 4 cmd
    refine ⟨.cpyPal (cmd.extractLsb' 3 4) (cmd.extractLsb' 0 3), .cpyxPal (cmd.extractLsb' 3 4),
      fun rest => ?_, ?_, fun ext => ?_⟩
    · rw [decodeCopy, ← hcount]
      exact if_congr BitVec.toNat_inj.symm rfl rfl
    · rw [copyOperands, hcount, hidx, countBase_pal]
    · rw [copyOperands, hidx, countBase_pal, countMask_pal]
      congr 3
      omega

/-! ## Decoder and encoder agree (R120) -/

theorem withExt_extBytes (make : BitVec 16 → Instr) (ext : BitVec 16) (rest : List Byte) :
    withExt make (extBytes ext ++ rest) = .ok (make ext, rest) := by
  have hext : le16 (ext.extractLsb' 0 8) (ext.extractLsb' 8 8) = ext :=
    BitVec.extractLsb'_append_extractLsb' (w := 8) (len := 8) (x := ext)
  exact congrArg (fun e => Except.ok (make e, rest)) hext

theorem extBytes_le16 (lo hi : Byte) : extBytes (le16 lo hi) = [lo, hi] := by
  have hlo : (le16 lo hi).extractLsb' 0 8 = lo := BitVec.extractLsb'_append_eq_right
  have hhi : (le16 lo hi).extractLsb' 8 8 = hi := BitVec.extractLsb'_append_eq_left
  rw [extBytes, hlo, hhi]

/-- The bytes are the header, in a stream of kind `k`, of an instruction that the encoding can write. -/
structure HeaderOf (k : Kind) (i : Instr) (header : List Byte) : Prop where
  wf : i.wf = true
  fits : i.fitsKind k = true
  code : encode i = .stream header

/-- A command byte that decodes by its field to a short or, where it is saturated, to an escaped form. -/
theorem HeaderOf.of_field {k : Kind} {saturated : Prop} [Decidable saturated] {short : Instr} {long : BitVec 16 → Instr}
    {cmd : Byte} {bs rest : List Byte} {i : Instr}
    (h : (if saturated then withExt long bs else .ok (short, bs)) = .ok (i, rest))
    (hlong : saturated → ∀ ext, HeaderOf k (long ext) (cmd :: extBytes ext)) (hshort : ¬ saturated → HeaderOf k short [cmd]) :
    ∃ header, HeaderOf k i header ∧ cmd :: bs = header ++ rest := by
  split at h
  case isTrue hsat =>
    obtain ⟨lo, hi, rfl, rfl⟩ := withExt_ok h
    exact ⟨_, hlong hsat _, by rw [extBytes_le16]; rfl⟩
  case isFalse hfree =>
    cases h
    exact ⟨_, hshort hfree, rfl⟩

/-- From the bytes to the instruction: by the class of the command byte, then by whether its field is saturated. -/
theorem HeaderOf.of_decodeCommand {k : Kind} {bytes rest : List Byte} {i : Instr}
    (h : decodeCommand k bytes = .ok (i, rest)) :
    ∃ header, HeaderOf k i header ∧ bytes = header ++ rest := by
  cases bytes with
  | nil => cases h
  | cons cmd bs =>
    cases hbit : cmd.getLsbD 7 with
    | false =>
      rw [← literalByte_eq (n := 7) hbit] at h ⊢
      rw [decodeCommand_literalByte] at h
      exact HeaderOf.of_field h (fun hsat _ => ⟨rfl, rfl, by rw [hsat]; rfl⟩) fun hfree => ⟨bne_iff_ne.2 hfree, rfl, rfl⟩
    | true =>
      cases k with
      | tc =>
        rw [← copyByte_eq (n := 5) (m := 2) hbit] at h ⊢
        rw [decodeCommand_copyByte_tc] at h
        exact HeaderOf.of_field h (fun hsat _ => ⟨rfl, rfl, by rw [hsat]; rfl⟩) fun hfree => ⟨bne_iff_ne.2 hfree, rfl, rfl⟩
      | pal =>
        rw [← copyByte_eq (n := 4) (m := 3) hbit] at h ⊢
        rw [decodeCommand_copyByte_pal] at h
        exact HeaderOf.of_field h (fun hsat _ => ⟨rfl, rfl, by rw [hsat]; rfl⟩) fun hfree => ⟨bne_iff_ne.2 hfree, rfl, rfl⟩

/-- From the instruction to the bytes: the command byte of each constructor, saturated exactly in the escaped forms. -/
theorem HeaderOf.decodeCommand_append {k : Kind} {i : Instr} {header : List Byte} (h : HeaderOf k i header)
    (rest : List Byte) :
    decodeCommand k (header ++ rest) = .ok (i, rest) := by
  obtain ⟨hwf, hfits, hcode⟩ := h
  cases i <;> cases hcode
  case lit len =>
    exact (decodeCommand_literalByte k len rest).trans (if_neg (bne_iff_ne.1 hwf))
  case litx ext => exact withExt_extBytes .litx ext rest
  case cpyTc idx count =>
    obtain rfl := beq_iff_eq.1 hfits
    exact (decodeCommand_copyByte_tc idx count rest).trans (if_neg (bne_iff_ne.1 hwf))
  case cpyxTc idx ext =>
    obtain rfl := beq_iff_eq.1 hfits
    exact (decodeCommand_copyByte_tc idx 3#2 _).trans (withExt_extBytes (.cpyxTc idx) ext rest)
  case cpyPal idx count =>
    obtain rfl := beq_iff_eq.1 hfits
    exact (decodeCommand_copyByte_pal idx count rest).trans (if_neg (bne_iff_ne.1 hwf))
  case cpyxPal idx ext =>
    obtain rfl := beq_iff_eq.1 hfits
    exact (decodeCommand_copyByte_pal idx 7#3 _).trans (withExt_extBytes (.cpyxPal idx) ext rest)

/-- The word of a job command decodes to that command (10_state.md R33). -/
theorem decodeCtrl_ctrlCommand (kind : Kind) (irqEn : Bool) :
    decodeCtrl (ctrlCommand .decode kind irqEn) = .ok (.decode kind irqEn) ∧
    decodeCtrl (ctrlCommand .encode kind irqEn) = .ok (.encode kind irqEn) := by
  cases kind <;> cases irqEn <;> exact ⟨rfl, rfl⟩

/-- Settles O6: a code is decoded where it stands, a stream command by `HeaderOf.decodeCommand_append`. -/
theorem decodeOfEncodeIsTheInstruction : Obligations.DecodeOfEncodeIsTheInstruction := by
  intro k i hwf hfits
  have hstream : ∀ header rest, encode i = .stream header → decodeCommand k (header ++ rest) = .ok (i, rest) :=
    fun header rest hcode => HeaderOf.decodeCommand_append ⟨hwf, hfits, hcode⟩ rest
  refine ⟨?_, hstream⟩
  cases hcode : encode i with
  | positional =>
    cases i
    case seed => rfl
    all_goals cases hcode
  | stream header => exact (congrArg (decodeCommand k) (List.append_nil header)).symm.trans (hstream header [] hcode)
  | ctrl v =>
    cases i
    case decode kind irqEn => cases hcode; rw [decodeCode, (decodeCtrl_ctrlCommand kind irqEn).1]
    case encode kind irqEn => cases hcode; rw [decodeCode, (decodeCtrl_ctrlCommand kind irqEn).2]
    all_goals cases hcode

/-- Settles O7 (`HeaderOf.of_decodeCommand`). -/
theorem decodedCommandHasOneEncoding : Obligations.DecodedCommandHasOneEncoding := by
  intro k bytes rest i h
  obtain ⟨header, ⟨hwf, hfits, hcode⟩, hbytes⟩ := HeaderOf.of_decodeCommand h
  exact ⟨hwf, hfits, header, hcode, hbytes⟩

/-! ## Every byte is a command byte (R111, R117, R118, R123) -/

/-- Settles O9: bit 7 and the escape byte select the equation of the decoder, a saturated count field the extension. -/
theorem commandFieldsAreMaskAndShift : Obligations.CommandFieldsAreMaskAndShift := by
  intro k cmd e0 e1 rest
  refine ⟨fun h7 => ?_, fun h7 hne => ?_, fun hesc => ?_⟩
  · obtain ⟨short, long, hdec, hshort, hlong⟩ := decodeCopy_operands k cmd
    by_cases hsat : cmd.toNat &&& countMask k = countMask k
    · refine ⟨long (le16 e0 e1), rest, 3, _, ?_, hlong _, absurd hsat, fun _ => ⟨rfl, ?_⟩⟩
      · rw [decodeCommand_copy k h7, hdec, if_pos hsat, withExt]
      · rw [hsat, toNat_le16]
    · refine ⟨short, e0 :: e1 :: rest, 1, _, ?_, hshort, fun _ => ⟨rfl, rfl⟩, fun h => absurd h hsat⟩
      rw [decodeCommand_copy k h7, hdec, if_neg hsat]
  · exact ⟨_, _, decodeCommand_literal k h7 hne _, by rw [literalOperands, toNat_literalField (n := 7) h7]⟩
  · subst hesc
    refine ⟨.litx (le16 e0 e1), rest, rfl, ?_⟩
    rw [literalOperands, toNat_le16, BitVec.toNat_ofNat]
    congr 2
    omega

/-- No instruction is both a literal and a copy. -/
theorem literalOperands_or_copyOperands_none (i : Instr) : literalOperands i = none ∨ copyOperands i = none := by
  cases i <;> simp [literalOperands, copyOperands]

/-- Settles O8: the bytes decode as O9 says, and the operands found there exclude those of the other class. -/
theorem everyCommandByteDecodes : Obligations.EveryCommandByteDecodes := by
  intro k cmd e0 e1 rest
  obtain ⟨hcopy, hlit, hesc⟩ := commandFieldsAreMaskAndShift k cmd e0 e1 rest
  cases h7 : cmd.getLsbD 7 with
  | true =>
    obtain ⟨i, left, header, n, hdec, hop, -⟩ := hcopy h7
    have hnone := (literalOperands_or_copyOperands_none i).resolve_right (by simp [hop])
    exact ⟨i, left, hdec, by simp [hnone], by simp [hop]⟩
  | false =>
    obtain ⟨i, left, p, hdec, hop⟩ : ∃ i left p,
        decodeCommand k (cmd :: e0 :: e1 :: rest) = .ok (i, left) ∧ literalOperands i = some p := by
      by_cases he : cmd = 0x7F#8
      · obtain ⟨i, left, h⟩ := hesc he
        exact ⟨i, left, _, h⟩
      · obtain ⟨i, left, h⟩ := hlit h7 he
        exact ⟨i, left, _, h⟩
    have hnone := (literalOperands_or_copyOperands_none i).resolve_left (by simp [hop])
    exact ⟨i, left, hdec, by simp [hop], by simp [hnone]⟩

/-- Settles O10: eight runs of the decoder. -/
theorem writtenWordsDecode : Obligations.WrittenWordsDecode := by
  unfold Obligations.WrittenWordsDecode
  decide

/-! ## The headers that the encode job emits decode back (R119) -/

/-- The fields of an emitted copy byte do not overlap. -/
theorem emittedCopyByte_eq {k : Kind} {i c : Nat} (hi : i < tableSize k) (hc : c ≤ countMask k) :
    (i <<< shiftStart k) ||| 0x80 ||| c = (tableSize k + i) <<< shiftStart k + c := by
  have hlow : c < 2 ^ shiftStart k := by cases k <;> exact Nat.lt_succ_of_le hc
  have htop : tableSize k + i = tableSize k ||| i := by
    cases k
    · exact Nat.two_pow_add_eq_or_of_lt (i := 5) hi 1
    · exact Nat.two_pow_add_eq_or_of_lt (i := 4) hi 1
  have hbit : tableSize k <<< shiftStart k = 0x80 := by cases k <;> rfl
  rw [Nat.shiftLeft_add_eq_or_of_lt hlow, htop, Nat.shiftLeft_or_distrib, hbit, Nat.or_comm 0x80]

/-- The fields of an emitted copy byte read back (R117). -/
theorem emittedCopyByte_fields {k : Kind} {i c : Nat} (hi : i < tableSize k) (hc : c ≤ countMask k) {cmd : Byte}
    (h : cmd = BitVec.ofNat 8 ((i <<< shiftStart k) ||| 0x80 ||| c)) :
    cmd.getLsbD 7 = true ∧ cmd.toNat &&& countMask k = c ∧ (cmd.toNat >>> shiftStart k) % tableSize k = i := by
  have hmask : ∀ n, n &&& countMask k = n % 2 ^ shiftStart k := by
    cases k
    · exact fun n => Nat.and_two_pow_sub_one_eq_mod n 2
    · exact fun n => Nat.and_two_pow_sub_one_eq_mod n 3
  have hnat := congrArg BitVec.toNat h
  rw [emittedCopyByte_eq hi hc, BitVec.toNat_ofNat, Nat.shiftLeft_eq] at hnat
  rw [getLsbD_seven, decide_eq_true_iff, hmask, Nat.shiftRight_eq_div_pow]
  cases k <;> simp only [tableSize, shiftStart_tc, shiftStart_pal, countMask_tc, countMask_pal] at * <;> omega

/-- An emitted copy byte decodes to a copy of its index and count, with an extension where the count is saturated. -/
theorem decodeCommand_emittedCopyByte {k : Kind} {i c : Nat} (hi : i < tableSize k) (hc : c ≤ countMask k) :
    ∃ (short : Instr) (long : BitVec 16 → Instr),
      (∀ rest, decodeCommand k (BitVec.ofNat 8 ((i <<< shiftStart k) ||| 0x80 ||| c) :: rest) =
        if c = countMask k then withExt long rest else .ok (short, rest)) ∧
      copyOperands short = some (1, c + countBase k, i) ∧
      ∀ ext, copyOperands (long ext) = some (3, countMask k + ext.toNat + countBase k, i) := by
  obtain ⟨h7, hcount, hidx⟩ := emittedCopyByte_fields hi hc rfl
  obtain ⟨short, long, hdec, hshort, hlong⟩ := decodeCopy_operands k (BitVec.ofNat 8 ((i <<< shiftStart k) ||| 0x80 ||| c))
  rw [hcount, hidx] at hshort
  rw [hidx] at hlong
  exact ⟨short, long, fun rest => by rw [decodeCommand_copy k h7, hdec, hcount], hshort, hlong⟩

theorem countBase_eq (k : Kind) : countBase k = ignoreThreshold k + 1 := by cases k <;> simp

/-- Settles O41: a unit with an extension has a saturated count field, a shorter one has a free count. -/
theorem copyUnitDecodesBack : Obligations.CopyUnitDecodesBack := by
  intro k i len rest hi hlo hhi
  have hbase := countBase_eq k
  have hthr : countThreshold k = countBase k + countMask k := rfl
  by_cases hlong : countThreshold k ≤ len
  · obtain ⟨_, long, hdec, -, hop⟩ := decodeCommand_emittedCopyByte hi (Nat.le_refl (countMask k))
    rw [copyUnit, if_pos hlong]
    refine ⟨_, (hdec _).trans (if_pos rfl), ?_⟩
    rw [hop, toNat_le16_split (by omega), List.length_cons, List.length_cons, List.length_singleton]
    congr 3
    omega
  · obtain ⟨short, _, hdec, hop, -⟩ := decodeCommand_emittedCopyByte hi (c := len - countBase k) (by omega)
    rw [copyUnit, if_neg hlong]
    refine ⟨short, (hdec _).trans (if_neg (by omega)), ?_⟩
    rw [hop, List.length_singleton]
    congr 3
    omega

/-- Settles O42: a literal of up to 0x7F pixels fits the length field below its escape value; the largest has extension
0xFFFE. -/
theorem literalHeaderDecodesBack : Obligations.LiteralHeaderDecodesBack := by
  intro k size rest hlo hhi
  unfold maxThunkSize at hhi
  by_cases hshort : size ≤ 0x7F
  · have hnat : (BitVec.ofNat 8 (size - 1)).toNat = size - 1 := by rw [BitVec.toNat_ofNat]; omega
    have h7 : (BitVec.ofNat 8 (size - 1)).getLsbD 7 = false := by
      rw [getLsbD_seven, hnat, decide_eq_false_iff_not]
      omega
    have hne : BitVec.ofNat 8 (size - 1) ≠ 0x7F#8 := by bv_omega
    rw [literalHeader, if_pos hshort]
    refine ⟨_, decodeCommand_literal k h7 hne rest, ?_, nofun⟩
    rw [literalOperands, toNat_literalField (n := 7) h7, hnat, List.length_singleton]
    congr 2
    omega
  · have hext := toNat_le16_split (n := size - 0x80) (by omega)
    rw [literalHeader, if_neg hshort]
    refine ⟨_, decodeCommand_escape k _, ?_, fun h => ?_⟩
    · rw [literalOperands, hext]
      congr 2
      omega
    · injection h with h
      rw [h] at hext
      simp at hext
      omega

end Sys2Proof.Machine

/-! # Proofs: the shift resolver (40_shift_resolver.md)

The two parts of a shift code (R156) are its floored quotient and remainder by 16. -/

namespace Sys2Proof.Machine

/-- The low four bits of a two's complement byte are its remainder by 16, also where it is negative. -/
theorem rowDelta_eq_emod (code : BitVec 8) : (rowDelta code : Int) = code.toInt % 16 := by
  have hlow : rowDelta code = code.toNat % 16 := by
    rw [rowDelta, BitVec.toNat_and]
    exact Nat.and_two_pow_sub_one_eq_mod code.toNat 4
  rw [hlow, BitVec.toInt_eq_toNat_cond]
  split <;> omega

theorem colComponent_eq_div (code : BitVec 8) : colComponent code = code.toInt / 16 := by
  rw [colComponent, BitVec.toInt_sshiftRight]
  exact Int.shiftRight_eq_div_pow code.toInt 4

/-- Settles O37, by the `@[simp]` value lemmas of each kind. -/
theorem bitLayoutValues : Obligations.BitLayoutValues :=
  ⟨countMask_tc, countMask_pal, shiftStart_tc, shiftStart_pal, countBase_tc, countBase_pal, ignoreThreshold_tc,
    ignoreThreshold_pal, countThreshold_tc, countThreshold_pal⟩

/-- Settles O38: division with remainder by 16, and the range of a signed byte. -/
theorem shiftCodeDecomposes : Obligations.ShiftCodeDecomposes := by
  intro code
  have hrow := rowDelta_eq_emod code
  have hcol := colComponent_eq_div code
  have hlo : -128 ≤ code.toInt := BitVec.le_toInt code
  have hhi : code.toInt < 128 := BitVec.toInt_lt
  omega

end Sys2Proof.Machine

/-! # Proofs: the decoder (41_decoder.md)

The engine's turn in a step (R312), the fetch of a command (R173, R174) and how the seed, the literal runs and the copy runs
each go (R172, R175 to R181): one equation per test that ends the run and one for the run that passes. -/

namespace Sys2Proof.Machine

/-! ## A step of a decode job -/

theorem step_of_engineMoves {s : State} (h : engineMoves s) : step s = engineTurn (afterTurn s) := by
  obtain ht | ⟨rest, ht⟩ := h
  · have hs : afterTurn s = s := by rw [afterTurn, ht, List.tail_nil, ← ht]
    rw [step, ht, hs]
  · rw [step, ht, afterTurn, ht, List.tail_cons]

/-- While bytes of the image remain, the engine's turn in a decode job is a command (R173). -/
theorem step_decode_command {s : State} (h : engineMoves s) (hl : s.engine = .loop) (ho : s.job.op = .decode)
    (hrem : s.job.remBytes ≠ 0) : step s = decodeStep (afterTurn s) := by
  rw [step_of_engineMoves h, engineTurn_loop_decode (s := afterTurn s) hl ho]
  exact if_neg hrem

/-- In a placed source window the fetch is defined, as no byte past the payload is fetched (10_state.md R43). -/
theorem fetch_defined {s : State} (hw : windowsPlaced s) (hroom : headerRoom s.job ≠ 0) :
    s.srcDefined s.job.srcPos (headerRoom s.job) ≠ false := by
  intro hs
  have hp : s.job.srcPos ≤ s.job.srcLen.toNat := by
    unfold headerRoom at hroom
    omega
  exact absurd (srcLen_lt_of_undefined hw hs) (Nat.not_lt_of_le (headerRoom_le hp))

theorem decodeStep_of_ok {s : State} (hw : windowsPlaced s) {i : Instr} {rest : List Byte}
    (h : decodeCommand s.job.kind (fetchBytes s) = .ok (i, rest)) : decodeStep s = exec i s := by
  rcases decodeStep_outcome s with ⟨hroom, hs, -⟩ | ⟨-, e, he⟩ | ⟨i', rest', f, hi, -, e, -⟩
  · exact absurd hs (fetch_defined hw hroom)
  · cases h.symm.trans he
  · cases h.symm.trans hi
    exact e

theorem decodeStep_of_error {s : State} (hw : windowsPlaced s) {err : DecodeError}
    (h : decodeCommand s.job.kind (fetchBytes s) = .error err) : decodeStep s = .next (s.raiseInCommand .truncated) := by
  rcases decodeStep_outcome s with ⟨hroom, hs, -⟩ | ⟨e, -⟩ | ⟨i, rest, f, hi, -, -, -⟩
  · exact absurd hs (fetch_defined hw hroom)
  · exact e
  · cases h.symm.trans hi

/-- Settles O12: the turn is the engine's, in the seed mode SEED itself and in the loop the fetch (`decodeStep_of_ok`). -/
theorem stepRunsTheCommandAtTheCursor : Obligations.StepRunsTheCommandAtTheCursor := by
  intro s hmoves hop
  refine ⟨fun hseed => ?_, fun i rest hloop hrem hw hdec => ?_⟩
  · rw [step_of_engineMoves hmoves]
    exact engineTurn_seed_decode hseed hop
  · rw [step_decode_command hmoves hloop hop hrem]
    exact decodeStep_of_ok (s := afterTurn s) hw hdec

/-- Settles O18: with no byte of the image left the write cursor is at its end (R183). -/
theorem decodeJobEndsWithDone : Obligations.DecodeJobEndsWithDone := by
  intro s h hloop hop hrem
  have htotal : s.job.dstPos = s.job.totalBytes := by
    have := (h.decoder hloop hop).total
    omega
  rw [engineTurn_loop_decode hloop hop, if_pos hrem, ← htotal]
  rfl

/-! ## A missing header byte (R173, R174) -/

theorem withExt_short (make : BitVec 16 → Instr) {bs : List Byte} (h : bs.length < 2) :
    withExt make bs = .error .truncated := by
  match bs with
  | [] => rfl
  | [_] => rfl
  | _ :: _ :: _ => simp at h

/-- A command byte whose field is saturated, without both its extension bytes (30_encoding.md R113 to R115). -/
theorem decodeCommand_missing_extension {k : Kind} {cmd : Byte} {bs : List Byte}
    (hcmd : cmd = 0x7F#8 ∨ (cmd.getLsbD 7 = true ∧ cmd.toNat &&& countMask k = countMask k)) (hbs : bs.length < 2) :
    decodeCommand k (cmd :: bs) = .error .truncated := by
  obtain rfl | ⟨hbit, hsat⟩ := hcmd
  · rw [decodeCommand_escape, withExt_short _ hbs]
  · obtain ⟨short, long, hdec, -⟩ := decodeCopy_operands k cmd
    rw [decodeCommand_copy k hbit, hdec, if_pos hsat, withExt_short _ hbs]

theorem fetchBytes_at_end {s : State} (h : s.job.srcLen.toNat ≤ s.job.srcPos) : fetchBytes s = [] := by
  have hroom : headerRoom s.job = 0 := by
    unfold headerRoom
    omega
  rw [fetchBytes, hroom, Memory.readList]

theorem fetchBytes_before_end {s : State} (h : s.job.srcPos < s.job.srcLen.toNat) :
    ∃ bs, fetchBytes s = s.mem.read (s.job.srcAddr s.job.srcPos) :: bs ∧
      s.job.srcPos + 1 + bs.length ≤ s.job.srcLen.toNat := by
  obtain ⟨n, hn⟩ : ∃ n, headerRoom s.job = n + 1 := Nat.exists_eq_succ_of_ne_zero (by unfold headerRoom; omega)
  refine ⟨s.mem.readList (s.job.srcAddr s.job.srcPos + 1) n, by rw [fetchBytes, hn, Memory.readList], ?_⟩
  have := headerRoom_le h.le
  rw [Memory.readList_length]
  omega

/-- Settles O14: the fetched bytes end before the command byte, or before its extension, so the decoder reads nothing. -/
theorem missingHeaderByteIsTruncated : Obligations.MissingHeaderByteIsTruncated := by
  intro s h hmoves hloop hop hrem hmissing
  have hw : windowsPlaced s := windowsPlaced_of_configOk (h.config (by simp [hloop, Engine.checked]))
  have hdec : decodeCommand s.job.kind (fetchBytes s) = .error .truncated := by
    rcases Nat.lt_or_ge s.job.srcPos s.job.srcLen.toNat with hlt | hge
    · obtain hge | ⟨hshort, hcmd⟩ := hmissing
      · omega
      · obtain ⟨bs, hbytes, hlen⟩ := fetchBytes_before_end hlt
        rw [hbytes]
        exact decodeCommand_missing_extension hcmd (by omega)
    · rw [fetchBytes_at_end hge, decodeCommand]
  rw [step_decode_command hmoves hloop hop hrem]
  exact decodeStep_of_error (s := afterTurn s) hw hdec

/-! ## Bytes copied from the payload (R172, R177) -/

/-- What the byte loop leaves in the destination where the windows are apart: the payload's bytes verbatim. -/
theorem read_copyFromPayload {s : State} (hm : s.mem.wf = true) (ha : windowsApart s) {off pos n j : Nat}
    (hs : off + n ≤ s.job.srcLen.toNat) (hd : pos + n ≤ s.job.dstCap.toNat) (hj : j < n) :
    (s.mem.copyForward (s.job.srcAddr off) (s.job.dstAddr pos) n).read (s.job.dstAddr pos + j) =
      s.mem.read (s.job.srcAddr off + j) := by
  refine Memory.read_copyForward_disjoint s.mem _ _ n hm ?_ hj
  have := (rangesDisjoint_iff ..).1 ha
  unfold Job.srcAddr Job.dstAddr
  omega

/-! ## The seed (R172) -/

theorem execSeed_truncated {s : State} (h : s.job.srcLen.toNat < s.job.d) :
    execSeed s = .next (s.raise .truncated 0 0 0) := by
  rw [execSeed, if_pos h]

theorem execSeed_copies {s : State} (hw : windowsPlaced s) (hs : s.job.d ≤ s.job.srcLen.toNat)
    (hd : s.job.d ≤ s.job.dstCap.toNat) : execSeed s = .next (seedDone s) := by
  rcases execSeed_outcome s with ⟨h, -⟩ | ⟨-, h, -⟩ | ⟨-, h, -⟩ | ⟨-, -, e⟩
  · omega
  · have := srcLen_lt_of_undefined hw h
    omega
  · have := dstCap_lt_of_undefined hw h
    omega
  · exact e

/-- Settles O15: the test of the payload's length, then the copy of one pixel from the payload (`read_copyFromPayload`). -/
theorem seedCopiesTheFirstPixelOrIsTruncated : Obligations.SeedCopiesTheFirstPixelOrIsTruncated := by
  intro s
  refine ⟨fun hshort => execSeed_truncated hshort, fun hm hw ha hs hd => ?_⟩
  refine ⟨_, execSeed_copies hw hs hd, fun j hj => ?_, unchangedOutside_copyForward _ _ _ _⟩
  have := read_copyFromPayload hm ha (off := 0) (pos := 0) (by omega) (by omega) hj
  simpa [Job.srcAddr, Job.dstAddr] using this

/-! ## The literal runs (R175 to R177) -/

/-- The spec's numbers for a literal are those of its form (30_encoding.md R113, R118). -/
theorem exec_of_literalOperands {i : Instr} {header n : Nat} (h : literalOperands i = some (header, n)) (s : State) :
    exec i s = literalBody header n s := by
  suffices hf : commandForm i = some (.literal header n) from exec_form hf s
  cases i <;> cases h
  case lit len => rfl
  case litx ext =>
    rw [commandForm, litxPixels]
    congr 2
    omega

theorem literalBody_pixelOob {s : State} {header n : Nat} (h : s.job.remBytes < n * s.job.d) :
    literalBody header n s = .next (s.raiseInCommand .pixelOob) := by
  rw [literalBody, if_pos h]

theorem literalBody_srcShort {s : State} {header n : Nat} (hn : n * s.job.d ≤ s.job.remBytes)
    (h : s.job.srcLen.toNat < s.job.srcPos + header + n * s.job.d) :
    literalBody header n s = .next (s.raiseInCommand .srcShort) := by
  rw [literalBody, if_neg (Nat.not_lt_of_le hn), if_pos h]

theorem literalBody_copies {s : State} {header n : Nat} (hw : windowsPlaced s) (hn : n * s.job.d ≤ s.job.remBytes)
    (hs : s.job.srcPos + header + n * s.job.d ≤ s.job.srcLen.toNat)
    (hd : s.job.dstPos + n * s.job.d ≤ s.job.dstCap.toNat) :
    literalBody header n s = .next (s.commandDone
      (s.mem.copyForward (s.job.srcAddr (s.job.srcPos + header)) (s.job.dstAddr s.job.dstPos) (n * s.job.d))
      (s.job.srcPos + header + n * s.job.d) (n * s.job.d)) := by
  rcases literalBody_outcome header n s with ⟨h, -⟩ | ⟨-, h, -⟩ | ⟨-, -, h, -⟩ | ⟨-, -, h, -⟩ | ⟨-, -, -, e⟩
  · omega
  · omega
  · exact absurd (srcLen_lt_of_undefined hw h) (Nat.not_lt_of_le hs)
  · exact absurd (dstCap_lt_of_undefined hw h) (Nat.not_lt_of_le hd)
  · exact e

/-- Settles O16: the tests in their order, then the copy from the payload (`read_copyFromPayload`). -/
theorem literalRunCopiesItsDataOrFails : Obligations.LiteralRunCopiesItsDataOrFails := by
  intro s i header n hi
  rw [exec_of_literalOperands hi]
  refine ⟨fun hfail => ?_, fun hm hw ha hn hs hd => ?_⟩
  · by_cases hrem : n * s.job.d > s.job.remBytes
    · rw [if_pos hrem]
      exact literalBody_pixelOob hrem
    · rw [if_neg hrem]
      exact literalBody_srcShort (Nat.le_of_not_lt hrem) (hfail.resolve_left hrem)
  · exact ⟨_, literalBody_copies hw hn hs hd, fun j hj => read_copyFromPayload hm ha hs hd hj,
      unchangedOutside_copyForward _ _ _ _⟩

/-! ## The copy runs (R178 to R181) -/

/-- The spec's numbers for a copy are those of its form (30_encoding.md R114, R115, R118). -/
theorem exec_of_copyOperands {i : Instr} {header n idx : Nat} (h : copyOperands i = some (header, n, idx)) (s : State) :
    exec i s = copyBody header n idx s := by
  suffices hf : commandForm i = some (.copy header n idx) from exec_form hf s
  cases i <;> cases h
  case cpyTc idx count => rw [commandForm, copyPixels, countBase_tc]
  case cpyPal idx count => rw [commandForm, copyPixels, countBase_pal]
  case cpyxTc idx ext =>
    rw [commandForm, copyxPixels, countMask_tc, countBase_tc]
    congr 2
    omega
  case cpyxPal idx ext =>
    rw [commandForm, copyxPixels, countMask_pal, countBase_pal]
    congr 2
    omega

theorem copyBody_pixelOob {s : State} {header n idx : Nat} (h : s.job.remBytes < n * s.job.d) :
    copyBody header n idx s = .next (s.raiseInCommand .pixelOob) := by
  rw [copyBody, if_pos h]

theorem copyBody_shiftParam {s : State} {header n idx : Nat} (hn : n * s.job.d ≤ s.job.remBytes)
    (h : 0 ≤ s.job.byteDelta idx ∨ (s.job.dstPos : Int) + s.job.byteDelta idx < 0) :
    copyBody header n idx s = .next (s.raiseInCommand .shiftParam) := by
  rw [copyBody, if_neg (Nat.not_lt_of_le hn), if_pos h]

/-- A copy from `back` bytes before the write cursor, which the output reaches. -/
theorem copyBody_copies {s : State} {header n idx back : Nat} (hw : windowsPlaced s) (hn : n * s.job.d ≤ s.job.remBytes)
    (hd : s.job.dstPos + n * s.job.d ≤ s.job.dstCap.toNat) (hdelta : s.job.byteDelta idx = -(back : Int))
    (hpos : 0 < back) (hback : back ≤ s.job.dstPos) :
    copyBody header n idx s = .next (s.commandDone
      (s.mem.copyForward (s.job.dstAddr (s.job.dstPos - back)) (s.job.dstAddr s.job.dstPos) (n * s.job.d))
      (s.job.srcPos + header) (n * s.job.d)) := by
  have hsrc : ((s.job.dstPos : Int) + s.job.byteDelta idx).toNat = s.job.dstPos - back := by omega
  rcases copyBody_outcome header n idx s with ⟨h, -⟩ | ⟨-, h, -⟩ | ⟨-, h, -⟩ | ⟨-, -, -, -, e⟩
  · omega
  · omega
  · exact absurd (dstCap_lt_of_undefined hw h) (Nat.not_lt_of_le hd)
  · rw [e, hsrc]

/-- What the byte loop leaves in the destination: the last `back` bytes of the output, repeated (R181, R182). -/
theorem read_copyFromOutput (j : Job) {m : Memory} (hm : m.wf = true) {pos back n i : Nat} (hpos : 0 < back)
    (hback : back ≤ pos) (hi : i < n) :
    (m.copyForward (j.dstAddr (pos - back)) (j.dstAddr pos) n).read (j.dstAddr (pos + i)) =
      m.read (j.dstAddr (pos - back + i % back)) := by
  have hlt : j.dstAddr (pos - back) < j.dstAddr pos := by
    unfold Job.dstAddr
    omega
  have hdist : j.dstAddr pos - j.dstAddr (pos - back) = back := by
    unfold Job.dstAddr
    omega
  have := Memory.read_copyForward_repeat m _ _ n hm hlt hi
  rw [hdist] at this
  simpa [Job.dstAddr, Nat.add_assoc] using this

/-- Settles O17: the tests in their order, then the copy from the output (`read_copyFromOutput`). -/
theorem copyRunRepeatsEarlierOutputOrFails : Obligations.CopyRunRepeatsEarlierOutputOrFails := by
  intro s i header n idx hi
  rw [exec_of_copyOperands hi]
  refine ⟨fun hfail => ?_, fun back hm hw hn hd hdelta hpos hback => ?_⟩
  · by_cases hrem : n * s.job.d > s.job.remBytes
    · rw [if_pos hrem]
      exact copyBody_pixelOob hrem
    · rw [if_neg hrem]
      exact copyBody_shiftParam (Nat.le_of_not_lt hrem) (hfail.resolve_left hrem)
  · exact ⟨_, copyBody_copies hw hn hd hdelta hpos hback, fun j hj => read_copyFromOutput s.job hm hpos hback hj,
      unchangedOutside_copyForward _ _ _ _⟩

end Sys2Proof.Machine

/-! # Proofs: the encoder (42_encoder.md)

The match finder (R220 to R223), then each operation of a pass by its capacity test (R211, R226 to R231), then what follows
for whole jobs: the size bound (R235) and the round trip (R233). -/

namespace Sys2Proof.Machine

/-! ## The match finder (R220 to R223) -/

/-! ### One table entry -/

/-- Every pair of pixels that the extension has passed is equal. -/
theorem extendMatch_same {same : Nat → Bool} (room : Nat) {k : Nat} (hk : ∀ i, i < k → same i = true) :
    ∀ i, i < extendMatch same room k → same i = true := by
  induction room generalizing k with
  | zero => exact hk
  | succ room ih =>
    unfold extendMatch
    split
    next hnext =>
      refine ih fun i hi => ?_
      rcases Nat.lt_succ_iff_lt_or_eq.1 hi with hlt | rfl
      · exact hk i hlt
      · exact hnext
    next => exact hk

/-- An extension that stops before its room is used up stops at an unequal pair. -/
theorem extendMatch_stop {same : Nat → Bool} (room k : Nat) (h : extendMatch same room k < k + room) :
    same (extendMatch same room k) = false := by
  induction room generalizing k with
  | zero => exact absurd h (Nat.lt_irrefl k)
  | succ room ih =>
    unfold extendMatch at h ⊢
    split at h
    next hnext =>
      rw [if_pos hnext]
      exact ih (k + 1) (by omega)
    next hnext =>
      rw [if_neg hnext]
      simpa using hnext

theorem matchEntry_nonneg {s : State} {i : Nat} (h : 0 ≤ s.job.shiftDeltas.getD i 0) : matchEntry s i = 0 :=
  if_pos h

theorem matchEntry_before_image {s : State} {i : Nat} (h : (s.job.current : Int) + s.job.shiftDeltas.getD i 0 < 0) :
    matchEntry s i = 0 := by
  simp only [matchEntry, h, if_true, ite_self]

/-- Whether pixel `k` of a match that refers to pixel `prev` is equal to its reference (R220). -/
def referenceEqual (s : State) (prev k : Nat) : Bool := pixelsEqual s (prev + k) (s.job.current + k)

/-- An entry that is not skipped is one extension, from the empty match to the bound. -/
theorem matchEntry_eq_extendMatch {s : State} {i prev : Nat} (hc : s.job.current < s.job.totalPixels)
    (hneg : s.job.shiftDeltas.getD i 0 < 0) (hprev : (s.job.current : Int) + s.job.shiftDeltas.getD i 0 = (prev : Int)) :
    matchEntry s i = extendMatch (referenceEqual s prev) (matchBound s - s.job.current) 0 := by
  have hroom : matchBound s - s.job.current = matchBound s - s.job.current - 1 + 1 := by
    unfold matchBound maxMatchSize
    omega
  have hstart : ¬ (prev : Int) < 0 := by omega
  simp only [matchEntry, hprev, if_neg (Int.not_le.2 hneg), if_neg hstart, Int.toNat_natCast]
  have hfirst : referenceEqual s prev 0 = pixelsEqual s prev s.job.current := rfl
  rw [hroom, extendMatch, hfirst]
  cases pixelsEqual s prev s.job.current <;> rfl

/-- Settles O39: the skips by the two tests, everything else by the extension's own laws. -/
theorem matchEntryIsTheLongestMatch : Obligations.MatchEntryIsTheLongestMatch := by
  intro s i prev hc
  refine ⟨matchEntry_nonneg, matchEntry_before_image, fun hneg hprev => ?_⟩
  have hentry := matchEntry_eq_extendMatch hc hneg hprev
  have hbound : matchBound s = min (s.job.current + 0x10000) s.job.totalPixels := rfl
  have hle := extendMatch_le (referenceEqual s prev) (matchBound s - s.job.current) 0
  rw [← hbound, hentry]
  refine ⟨extendMatch_same _ fun _ hk => absurd hk (Nat.not_lt_zero _), by omega, fun hshort => ?_⟩
  exact extendMatch_stop (same := referenceEqual s prev) _ _ (by omega)

/-! ### The search -/

/-- `best` is the longest match of the first `n` entries, with the lowest index among equals (R222). -/
structure IsBestMatch (len : Nat → Nat) (n : Nat) (best : Nat × Nat) : Prop where
  longest : ∀ i, i < n → len i ≤ best.1
  lowest : 0 < best.1 → best.2 < n ∧ len best.2 = best.1 ∧ ∀ i, i < best.2 → len i < best.1

theorem IsBestMatch.betterMatch {len : Nat → Nat} {n : Nat} {best : Nat × Nat} (h : IsBestMatch len n best) :
    IsBestMatch len (n + 1) (Machine.betterMatch len best n) := by
  unfold Machine.betterMatch
  split
  next hlonger =>
    refine ⟨fun i hi => ?_, fun _ => ⟨Nat.lt_succ_self n, rfl, fun i hi => ?_⟩⟩
    · rcases Nat.lt_succ_iff_lt_or_eq.1 hi with hlt | rfl
      · exact (h.longest i hlt).trans hlonger.le
      · exact le_rfl
    · exact lt_of_le_of_lt (h.longest i hi) hlonger
  next hshorter =>
    refine ⟨fun i hi => ?_, fun hpos => ?_⟩
    · rcases Nat.lt_succ_iff_lt_or_eq.1 hi with hlt | rfl
      · exact h.longest i hlt
      · exact Nat.le_of_not_lt hshorter
    · obtain ⟨hidx, hlen⟩ := h.lowest hpos
      exact ⟨hidx.trans (Nat.lt_succ_self n), hlen⟩

theorem isBestMatch_foldl (len : Nat → Nat) (n : Nat) :
    IsBestMatch len n ((List.range n).foldl (betterMatch len) (0, 0)) := by
  induction n with
  | zero => exact ⟨nofun, nofun⟩
  | succ n ih =>
    rw [List.range_succ, List.foldl_append]
    exact ih.betterMatch

theorem isBestMatch_matchSearch (s : State) : IsBestMatch (matchEntry s) (tableSize s.job.kind) (matchSearch s) :=
  isBestMatch_foldl _ _

/-- Settles O40, by the fold's invariant over the entries seen so far. -/
theorem longestMatchLowestIndexWins : Obligations.LongestMatchLowestIndexWins := fun s =>
  have h := isBestMatch_matchSearch s
  ⟨h.longest, h.lowest⟩

/-! ## The operations of a pass, by their capacity tests -/

/-! ### An emission unit (R211) -/

theorem emitSeq_overflow {s : State} {bytes : List Byte} (h : s.job.dstCap.toNat < s.job.outPos + bytes.length) :
    emitSeq bytes s = .stop (.next (s.raiseInUnit .dstOverflow)) :=
  if_pos h

theorem emitSeq_fits {s : State} {bytes : List Byte} (hw : windowsPlaced s)
    (h : s.job.outPos + bytes.length ≤ s.job.dstCap.toNat) : emitSeq bytes s = .go (unitDone bytes s) := by
  rcases emitSeq_outcome bytes s with ⟨hcap, -⟩ | ⟨-, hd, -⟩ | ⟨-, e⟩
  · exact absurd hcap (Nat.not_lt_of_le h)
  · exact absurd (dstCap_lt_of_undefined hw hd) (Nat.not_lt_of_le h)
  · exact e

/-- Settles O43: the capacity test, then the run of writes, which reads back in a canonical memory. -/
theorem emissionUnitIsAllOrNothing : Obligations.EmissionUnitIsAllOrNothing := by
  intro s bytes hm
  refine ⟨emitSeq_overflow, fun hfit hw => ⟨_, emitSeq_fits hw hfit, ?_, unchangedOutside_writeList _ _ _⟩⟩
  exact Memory.readList_writeList _ _ _ hm

/-! ### The seed (R212) -/

theorem encodeSeed_fits {s : State} (hc : configOk s = true) (ho : s.job.op = .encode)
    (h : s.job.d ≤ s.job.dstCap.toNat) : encodeSeed s = .next (encodeSeedDone s) := by
  have hw := windowsPlaced_of_configOk hc
  have hsrc := (d_le_totalBytes hc).trans (totalBytes_le_srcLen hc ho)
  rcases encodeSeed_outcome s with ⟨hs, -⟩ | ⟨-, hcap, -⟩ | ⟨-, -, hd, -⟩ | ⟨-, -, e⟩
  · have := srcLen_lt_of_undefined hw hs
    omega
  · omega
  · have := dstCap_lt_of_undefined hw hd
    omega
  · exact e

theorem encodeSeed_overflow {s : State} (hc : configOk s = true) (ho : s.job.op = .encode)
    (h : s.job.dstCap.toNat < s.job.d) : encodeSeed s = .next ((encodeSetup s).raiseInUnit .dstOverflow) := by
  have hw := windowsPlaced_of_configOk hc
  have hsrc := (d_le_totalBytes hc).trans (totalBytes_le_srcLen hc ho)
  rcases encodeSeed_outcome s with ⟨hs, -⟩ | ⟨-, -, e⟩ | ⟨-, hcap, -⟩ | ⟨-, hd, -⟩
  · have := srcLen_lt_of_undefined hw hs
    omega
  · exact e
  · omega
  · have := ((dstDefined_iff ..).1 hd).1
    omega

theorem encodeSeedDone_eq (s : State) :
    encodeSeedDone s = { s with
      mem := s.mem.writeList (s.job.dstAddr 0) (s.mem.readList (s.job.srcAddr 0) s.job.d)
      engine := .loop
      job := { s.job with
        outPos := s.job.d
        litLen := 0
        litStart := 1
        current := 1
        passed := (s.job.d, s.job.d) :: s.job.passed } } := by
  simp [encodeSeedDone, encoderBoundary, unitDone, encodeSetup, State.passBoundary]
  exact ⟨rfl, rfl⟩

/-- Settles O44: one unit of one pixel, from the first `d` source bytes. -/
theorem encodeSeedEmitsTheFirstPixel : Obligations.EncodeSeedEmitsTheFirstPixel := by
  intro s h hl ho
  have hc := h.config (by simp [hl, Engine.checked])
  rw [engineTurn_seed_encode hl ho]
  refine ⟨fun hfit => ⟨_, (encodeSeed_fits hc ho hfit).trans (congrArg _ (encodeSeedDone_eq s)), fun j hj => ?_, ?_⟩,
    fun hcap => ⟨_, encodeSeed_overflow hc ho hcap, rfl, rfl, rfl, rfl, ?_, rfl, rfl⟩⟩
  · have hlen : j < (s.mem.readList (s.job.srcAddr 0) s.job.d).length := by simpa using hj
    have := Memory.read_writeList s.mem (s.job.dstAddr 0) _ j h.memory.canonical hlen
    rw [Memory.readList_getElem] at this
    simpa [Job.srcAddr, Job.dstAddr] using this
  · have := unchangedOutside_writeList s.mem (s.job.dstAddr 0) (s.mem.readList (s.job.srcAddr 0) s.job.d)
    rwa [Memory.readList_length] at this
  · have hd : s.job.d ≤ 3 := by unfold Job.d; cases s.job.kind <;> decide
    have hpos : (((encodeSetup s).raiseInUnit .dstOverflow).srcPosReg).toNat = 1 * s.job.d % 2 ^ 32 := by
      simp [State.raiseInUnit]
    omega

/-! ### The flush of the pending literal (R230) -/

/-- The state after the pending bytes, if there are any, are written. -/
def flushPending (s : State) : State :=
  { s with
    mem := s.mem.writeList (s.job.dstAddr s.job.outPos) (pendingBytes s)
    job := { s.job with outPos := s.job.outPos + (pendingBytes s).length, litLen := 0 } }

theorem EmitOk.pending_defined {s : State} (h : EmitOk s) (h0 : s.job.litLen ≠ 0) :
    s.srcDefined (s.job.litStart * s.job.d) (s.job.litLen * s.job.d) = true :=
  (srcDefined_iff ..).2 ⟨h.pending_in_source h0, h.windowsPlaced.1⟩

theorem EmitOk.flush_overflow {s : State} (h : EmitOk s)
    (hcap : s.job.dstCap.toNat < s.job.outPos + (pendingBytes s).length) :
    flushLiteral s = .stop (.next (s.raiseInUnit .dstOverflow)) :=
  flushLiteral_overflow h.cursors.inCapacity h.pending_defined hcap

theorem EmitOk.flush_fits {s : State} (h : EmitOk s)
    (hfit : s.job.outPos + (pendingBytes s).length ≤ s.job.dstCap.toNat) :
    flushLiteral s = .go (flushPending s) := by
  by_cases h0 : s.job.litLen = 0
  · have hnone : flushPending s = s := by
      unfold flushPending
      rw [pendingBytes_empty h0, ← h0]
      rfl
    rw [hnone, flushLiteral, if_pos h0]
  · have hbytes := pendingBytes_literal h0
    rw [hbytes] at hfit
    rw [flushLiteral, if_neg h0, h.pending_defined h0, emitSeq_fits h.windowsPlaced hfit, flushPending, hbytes]
    rfl

theorem EmitOk.flushed {s : State} (h : EmitOk s)
    (hfit : s.job.outPos + (pendingBytes s).length ≤ s.job.dstCap.toNat) : EmitOk (flushPending s) :=
  (h.flush (h.flush_fits hfit)).1

/-! ### A pass (R213, R224) -/

theorem EmitOk.encodePass_long {s : State} (h : EmitOk s) (hbest : ignoreThreshold s.job.kind < (matchSearch s).1) :
    encodePass s = copyPath (matchSearch s).1 (matchSearch s).2 (Machine.noteMatch s) := by
  have hsrc := totalBytes_le_srcLen h.run.setup.config h.op
  rcases encodePass_outcome s with ⟨hs, -⟩ | ⟨-, -, e⟩ | ⟨-, hle, -⟩
  · have := srcLen_lt_of_undefined h.windowsPlaced hs
    omega
  · exact e
  · omega

theorem EmitOk.encodePass_short {s : State} (h : EmitOk s) (hbest : (matchSearch s).1 ≤ ignoreThreshold s.job.kind) :
    encodePass s = literalPath (Machine.noteMatch s) := by
  have hsrc := totalBytes_le_srcLen h.run.setup.config h.op
  rcases encodePass_outcome s with ⟨hs, -⟩ | ⟨-, hlt, -⟩ | ⟨-, -, e⟩
  · have := srcLen_lt_of_undefined h.windowsPlaced hs
    omega
  · omega
  · exact e

/-! ### The literal path (R226, R229) -/

/-- Settles O45: below the limit the literal path is `AppendLiteral` alone. -/
theorem shortMatchIsAppendedToTheLiteral : Obligations.ShortMatchIsAppendedToTheLiteral := by
  intro s h hl ho hc hbest hshort
  have hbelow : (noteMatch s).job.litLen + 1 ≠ maxThunkSize := Nat.ne_of_lt hshort
  rw [engineTurn_loop_encode hl ho, if_pos hc, (h.emitOk hl ho).encodePass_short hbest]
  exact if_neg hbelow

theorem literalPath_full {s : State} (h : s.job.litLen + 1 = maxThunkSize) :
    literalPath s = (flushLiteral (appendLiteral s)).run fun t => .next (encoderBoundary t) :=
  if_pos h

/-- A pixel appended to a literal that is not empty leaves its start (R226). -/
theorem appendLiteral_pending {s : State} (h : s.job.litLen ≠ 0) :
    appendLiteral s =
      { s with job := { s.job with litLen := s.job.litLen + 1, current := s.job.current + 1 } } := by
  rw [appendLiteral, if_neg h]

/-- The unit of a literal that the appended pixel fills (R229). -/
theorem pendingBytes_full {s : State} (hpos : s.job.litLen ≠ 0) (h : s.job.litLen + 1 = maxThunkSize) :
    pendingBytes (appendLiteral s) = [0x7F#8, 0xFE#8, 0xFF#8] ++
      s.mem.readList (s.job.srcAddr (s.job.litStart * s.job.d)) (0x1007E * s.job.d) := by
  have hheader : literalHeader maxThunkSize = [0x7F#8, 0xFE#8, 0xFF#8] := by decide
  rw [appendLiteral_pending hpos, pendingBytes_literal (Nat.succ_ne_zero _), literalUnit, h, hheader]
  rfl

/-- Settles O46: the flush of the literal that the append has filled. -/
theorem fullLiteralIsFlushedAtOnce : Obligations.FullLiteralIsFlushedAtOnce := by
  intro s h hl ho hc hbest hfull unit
  have hpos : s.job.litLen ≠ 0 := by omega
  have hemit := h.emitOk hl ho
  have happend := hemit.noteMatch.appendLiteral hc
  have hunit : pendingBytes (appendLiteral (noteMatch s)) = unit := pendingBytes_full (s := noteMatch s) hpos hfull
  rw [engineTurn_loop_encode hl ho, if_pos hc, hemit.encodePass_short hbest, literalPath_full (s := noteMatch s) hfull,
    ← hunit]
  refine ⟨fun hfit => ?_, fun hcap => ?_⟩
  · rw [happend.flush_fits hfit, appendLiteral_pending (s := noteMatch s) hpos]
    exact ⟨_, rfl, Memory.readList_writeList _ _ _ h.memory.canonical, unchangedOutside_writeList _ _ _⟩
  · rw [happend.flush_overflow hcap, appendLiteral_pending (s := noteMatch s) hpos]
    rfl

/-! ### The copy path (R227, R228) -/

theorem EmitOk.copyPath_fits {s : State} (h : EmitOk s) {len idx : Nat}
    (hfit : s.job.outPos + (pendingBytes s ++ copyUnit s.job.kind idx len).length ≤ s.job.dstCap.toNat) :
    copyPath len idx s = .next (encoderBoundary (Machine.copyDone len idx (flushPending s))) := by
  rw [List.length_append] at hfit
  have hflush : s.job.outPos + (pendingBytes s).length ≤ s.job.dstCap.toNat := by omega
  have hcopy : emitCopy idx len (flushPending s) =
      .go (unitDone (copyUnit s.job.kind idx len) (flushPending s)) :=
    emitSeq_fits (h.flushed hflush).windowsPlaced (by rw [← Nat.add_assoc] at hfit; exact hfit)
  rw [copyPath, h.flush_fits hflush, Flow.run, hcopy]
  rfl

theorem EmitOk.copyPath_flush_overflow {s : State} (h : EmitOk s) {len idx : Nat}
    (hcap : s.job.dstCap.toNat < s.job.outPos + (pendingBytes s).length) :
    copyPath len idx s = .next (s.raiseInUnit .dstOverflow) := by
  rw [copyPath, h.flush_overflow hcap, Flow.run]

theorem EmitOk.copyPath_copy_overflow {s : State} (h : EmitOk s) {len idx : Nat}
    (hflush : s.job.outPos + (pendingBytes s).length ≤ s.job.dstCap.toNat)
    (hcap : s.job.dstCap.toNat < s.job.outPos + (pendingBytes s ++ copyUnit s.job.kind idx len).length) :
    copyPath len idx s = .next ((flushPending s).raiseInUnit .dstOverflow) := by
  rw [List.length_append, ← Nat.add_assoc] at hcap
  have hcopy : emitCopy idx len (flushPending s) =
      .stop (.next ((flushPending s).raiseInUnit .dstOverflow)) := emitSeq_overflow hcap
  rw [copyPath, h.flush_fits hflush, Flow.run, hcopy, Flow.run]

/-- The flush and the copy after it are one run of writes. -/
theorem copyDone_flushPending_eq (len idx : Nat) (s : State) :
    copyDone len idx (flushPending s) = { s with
      mem := s.mem.writeList (s.job.dstAddr s.job.outPos) (pendingBytes s ++ copyUnit s.job.kind idx len)
      job := { s.job with
        litLen := 0
        outPos := s.job.outPos + (pendingBytes s ++ copyUnit s.job.kind idx len).length
        current := s.job.current + len } } := by
  have hmem : (s.mem.writeList (s.job.dstAddr s.job.outPos) (pendingBytes s)).writeList
      (s.job.dstAddr (s.job.outPos + (pendingBytes s).length)) (copyUnit s.job.kind idx len) =
      s.mem.writeList (s.job.dstAddr s.job.outPos) (pendingBytes s ++ copyUnit s.job.kind idx len) := by
    rw [← Memory.writeList_append, Job.dstAddr, Job.dstAddr, Nat.add_assoc]
  rw [← hmem, List.length_append, ← Nat.add_assoc]
  rfl

/-- Settles O47: the two capacity tests of the copy path, in their order. -/
theorem longMatchFlushesThenCopies : Obligations.LongMatchFlushesThenCopies := by
  intro s h hl ho hc hbest
  have hnote := (h.emitOk hl ho).noteMatch
  rw [engineTurn_loop_encode hl ho, if_pos hc, (h.emitOk hl ho).encodePass_long hbest]
  refine ⟨fun hfit => ?_, fun hcap => ?_, fun hflush hcap => ?_⟩
  · rw [hnote.copyPath_fits hfit, copyDone_flushPending_eq]
    exact ⟨_, rfl, Memory.readList_writeList _ _ _ h.memory.canonical, unchangedOutside_writeList _ _ _⟩
  · exact hnote.copyPath_flush_overflow hcap
  · rw [hnote.copyPath_copy_overflow hflush hcap]
    exact ⟨_, rfl, Memory.readList_writeList _ _ _ h.memory.canonical, unchangedOutside_writeList _ _ _⟩

/-! ### The end of the job (R231) -/

/-- Settles O48: the flush, and where it fits `EndJob(DONE)`. -/
theorem encodeJobEndsWithDone : Obligations.EncodeJobEndsWithDone := by
  intro s h hl ho hc
  have hemit := h.emitOk hl ho
  rw [engineTurn_loop_encode hl ho, if_neg (Nat.not_lt_of_le hc.ge), encodeFinish]
  refine ⟨fun hfit => ?_, fun hcap => ?_⟩
  · rw [hemit.flush_fits hfit]
    exact ⟨_, rfl, Memory.readList_writeList _ _ _ h.memory.canonical, unchangedOutside_writeList _ _ _⟩
  · rw [hemit.flush_overflow hcap, Flow.run, State.raiseInUnit, hc]
    rfl

/-! ## The size bound (R235) -/

/-! ### What a unit costs -/

theorem literalHeader_length (size : Nat) : (literalHeader size).length = if size ≤ 0x7F then 1 else 3 := by
  unfold literalHeader
  split <;> rfl

/-- A copy takes fewer bytes than its pixels (R228, R154). -/
theorem copyUnit_length_lt {k : Kind} {len : Nat} (h : ignoreThreshold k < len) (i : Nat) :
    (copyUnit k i len).length < len * byteDepth k := by
  unfold copyUnit
  split
  next hlong =>
    rw [List.length_cons, List.length_cons, List.length_singleton]
    cases k <;> simp only [countThreshold_tc, countThreshold_pal, byteDepth] at * <;> omega
  next =>
    rw [List.length_singleton]
    cases k <;> simp only [ignoreThreshold_tc, ignoreThreshold_pal, byteDepth] at * <;> omega

/-- What the units of `p` pixels of `d` bytes may cost: the pixels' bytes and one escape per 128 pixels after the first. -/
def sizeBound (d p : Nat) : Nat := p * d + 3 * ((p - 1) / 128)

theorem payloadBound_eq (j : Job) : payloadBound j = sizeBound j.d j.totalPixels + 1 := rfl

theorem payloadWithinBound_iff (s : State) :
    payloadWithinBound s ↔ s.job.outPos ≤ sizeBound s.job.d (s.job.current - s.job.litLen) := Iff.rfl

theorem sizeBound_add (d p n : Nat) : sizeBound d p + n * d ≤ sizeBound d (p + n) := by
  have hpixels : (p + n) * d = p * d + n * d := Nat.add_mul ..
  have hescapes : (p - 1) / 128 ≤ (p + n - 1) / 128 := Nat.div_le_div_right (by omega)
  unfold sizeBound
  omega

theorem sizeBound_mono (d : Nat) {p q : Nat} (h : p ≤ q) : sizeBound d p ≤ sizeBound d q := by
  have := sizeBound_add d p (q - p)
  rw [Nat.add_sub_cancel' h] at this
  omega

/-- A literal with an extension reaches the next escape of the bound. -/
theorem sizeBound_add_long {d p n : Nat} (hp : 1 ≤ p) (hn : 0x7F < n) :
    sizeBound d p + n * d + 3 ≤ sizeBound d (p + n) := by
  have hpixels : (p + n) * d = p * d + n * d := Nat.add_mul ..
  have hescapes : (p - 1) / 128 + 1 ≤ (p + n - 1) / 128 := by omega
  unfold sizeBound
  omega

/-! ### The bound through a turn -/

/-- The pixels that are written end where the pending literal starts. -/
theorem CursorsOk.written {s : State} (h : CursorsOk s) :
    1 ≤ s.job.current - s.job.litLen ∧ s.job.current - s.job.litLen + s.job.litLen = s.job.current := by
  obtain ⟨hcur, -, hpending, hstart, -⟩ := h
  omega

theorem pendingBytes_length {s : State} (h : s.job.litLen ≠ 0) :
    (pendingBytes s).length = (if s.job.litLen ≤ 0x7F then 1 else 3) + s.job.litLen * s.job.d := by
  rw [pendingBytes_literal h, literalUnit, List.length_append, literalHeader_length, Memory.readList_length]

/-- Flushing the pending literal exceeds the bound by one byte at most, that of a short header. -/
theorem flush_within {s : State} (h : CursorsOk s) (hb : payloadWithinBound s) :
    s.job.outPos + (pendingBytes s).length ≤ sizeBound s.job.d s.job.current + 1 := by
  rw [payloadWithinBound_iff] at hb
  obtain ⟨hwritten, hcur⟩ := h.written
  have hadd := sizeBound_add s.job.d (s.job.current - s.job.litLen) s.job.litLen
  rw [hcur] at hadd
  by_cases h0 : s.job.litLen = 0
  · rw [pendingBytes_empty h0, List.length_nil]
    omega
  · rw [pendingBytes_length h0]
    split
    next => omega
    next hlong =>
      have := sizeBound_add_long (d := s.job.d) hwritten (Nat.lt_of_not_le hlong)
      rw [hcur] at this
      omega

/-- The pass of a copy stays within the bound, as the copy saves the byte of the header before it. -/
theorem copy_within {s : State} (h : CursorsOk s) (hb : payloadWithinBound s) {len : Nat}
    (hlen : ignoreThreshold s.job.kind < len) (idx : Nat) :
    s.job.outPos + (pendingBytes s ++ copyUnit s.job.kind idx len).length ≤
      sizeBound s.job.d (s.job.current + len) := by
  have hflush := flush_within h hb
  have hcopy : (copyUnit s.job.kind idx len).length < len * s.job.d := copyUnit_length_lt hlen idx
  have hadd := sizeBound_add s.job.d s.job.current len
  rw [List.length_append]
  omega

/-- The flush of a full literal stays within the bound. -/
theorem full_within {s : State} (h : CursorsOk s) (hb : payloadWithinBound s) (hfull : s.job.litLen + 1 = maxThunkSize) :
    s.job.outPos + (3 + 0x1007E * s.job.d) ≤ sizeBound s.job.d (s.job.current + 1) := by
  rw [payloadWithinBound_iff] at hb
  obtain ⟨hwritten, hcur⟩ := h.written
  have hadd := sizeBound_add_long (d := s.job.d) (n := maxThunkSize) hwritten (by decide)
  rw [← hfull, ← Nat.add_assoc, hcur, hfull] at hadd
  unfold maxThunkSize at hadd
  omega

/-- What R235 says of the state after a turn of a job with the bound `bound`. -/
structure WithinBound (bound : Nat) (t : State) : Prop where
  noError : t.error = false
  running : t.engine = .loop → payloadWithinBound t
  ended : t.engine = .idle → t.done = true ∧ t.dstPosReg.toNat ≤ bound

theorem seed_withinBound {s t : State} (h : StateOk s) (hl : s.engine = .seed) (ho : s.job.op = .encode)
    (hcap : payloadBound s.job ≤ s.job.dstCap.toNat) (hturn : engineTurn s = .next t) :
    WithinBound (payloadBound s.job) t := by
  have hrun := h.runOk (by simp [hl, Engine.checked])
  have htotal := d_le_totalBytes hrun.setup.config
  have hfit : s.job.d ≤ s.job.dstCap.toNat := by
    unfold payloadBound at hcap
    omega
  obtain ⟨m, e, -⟩ := (encodeSeedEmitsTheFirstPixel s h hl ho).1 hfit
  cases e.symm.trans hturn
  have hone : s.job.d ≤ sizeBound s.job.d 1 := by simp [sizeBound]
  exact ⟨hrun.setup.noError, fun _ => hone, nofun⟩

section

variable {s t : State} (h : StateOk s) (hl : s.engine = .loop) (ho : s.job.op = .encode)
  (hcap : payloadBound s.job ≤ s.job.dstCap.toNat) (hb : payloadWithinBound s) (hturn : engineTurn s = .next t)

include h hl ho hcap hb hturn

theorem longPass_withinBound (hc : s.job.current < s.job.totalPixels)
    (hbest : ignoreThreshold s.job.kind < (matchSearch s).1) : WithinBound (payloadBound s.job) t := by
  have hrun := h.runOk (by simp [hl, Engine.checked])
  have hcopy := copy_within (h.encoder hl ho).cursorsOk hb hbest (matchSearch s).2
  have hlen := matchSearch_le hc
  have hmono := sizeBound_mono s.job.d (p := s.job.current + (matchSearch s).1) (q := s.job.totalPixels) (by omega)
  rw [payloadBound_eq] at hcap
  obtain ⟨m, e, -⟩ := (longMatchFlushesThenCopies s h hl ho hc hbest).1 (by omega)
  cases e.symm.trans hturn
  exact ⟨hrun.setup.noError, fun _ => hcopy, fun hidle => by simp [hl] at hidle⟩

theorem shortPass_withinBound (hc : s.job.current < s.job.totalPixels)
    (hbest : (matchSearch s).1 ≤ ignoreThreshold s.job.kind) : WithinBound (payloadBound s.job) t := by
  have hrun := h.runOk (by simp [hl, Engine.checked])
  have hencoder := h.encoder hl ho
  rcases Nat.lt_or_eq_of_le (Nat.succ_le_of_lt hencoder.pendingShort) with hbelow | hfull
  · cases (shortMatchIsAppendedToTheLiteral s h hl ho hc hbest hbelow).symm.trans hturn
    refine ⟨hrun.setup.noError, fun _ => ?_, fun hidle => by simp [hl] at hidle⟩
    rw [payloadWithinBound_iff] at hb ⊢
    exact (Nat.add_sub_add_right s.job.current 1 s.job.litLen).symm ▸ hb
  · have hunit := full_within hencoder.cursorsOk hb hfull
    have hmono := sizeBound_mono s.job.d (p := s.job.current + 1) (q := s.job.totalPixels) hc
    rw [payloadBound_eq] at hcap
    have hlen : ([0x7F#8, 0xFE#8, 0xFF#8] ++
        s.mem.readList (s.job.srcAddr (s.job.litStart * s.job.d)) (0x1007E * s.job.d)).length = 3 + 0x1007E * s.job.d := by
      rw [List.length_append, Memory.readList_length]
      rfl
    obtain ⟨m, e, -⟩ := (fullLiteralIsFlushedAtOnce s h hl ho hc hbest hfull).1 (by omega)
    cases e.symm.trans hturn
    refine ⟨hrun.setup.noError, fun _ => ?_, fun hidle => by simp [hl] at hidle⟩
    rw [payloadWithinBound_iff]
    exact hlen.symm ▸ hunit

theorem finish_withinBound (hc : s.job.current = s.job.totalPixels) : WithinBound (payloadBound s.job) t := by
  have hrun := h.runOk (by simp [hl, Engine.checked])
  have hflush := flush_within (h.encoder hl ho).cursorsOk hb
  rw [hc] at hflush
  rw [payloadBound_eq] at hcap ⊢
  obtain ⟨m, e, -⟩ := (encodeJobEndsWithDone s h hl ho hc).1 (by omega)
  cases e.symm.trans hturn
  refine ⟨hrun.setup.noError, nofun, fun _ => ⟨rfl, ?_⟩⟩
  exact (Nat.mod_le ..).trans hflush

end

/-- Settles O51: in each turn the units cost no more than the bound gives their pixels, so each capacity test passes; the
final flush alone may take the bound's last byte. -/
theorem sufficientCapacityNeverOverflows : Obligations.SufficientCapacityNeverOverflows := by
  intro s t h ho hcap hstart hturn
  suffices hwithin : WithinBound (payloadBound s.job) t from ⟨hwithin.noError, hwithin.running, hwithin.ended⟩
  rcases hstart with hseed | ⟨hl, hb⟩
  · exact seed_withinBound h hseed ho hcap hturn
  · rcases Nat.lt_or_eq_of_le (h.encoder hl ho).inImage with hc | hc
    · rcases Nat.lt_or_ge (ignoreThreshold s.job.kind) (matchSearch s).1 with hlong | hshort
      · exact longPass_withinBound h hl ho hcap hb hturn hc hlong
      · exact shortPass_withinBound h hl ho hcap hb hturn hc hshort
    · exact finish_withinBound h hl ho hcap hb hturn hc

/-! ## The payload that an encode job writes (R212, R226 to R231) -/

/-! ### Payloads as sequences of units -/

/-- Byte `i` of the source image of a job. -/
def State.imageByte (s : State) (i : Nat) : Byte := s.mem.read (s.job.srcAddr i)

/-- The `n` bytes of an image from byte `a` on. -/
def imageBytes (img : Nat → Byte) (a n : Nat) : List Byte := (List.range' a n).map img

@[simp] theorem imageBytes_length (img : Nat → Byte) (a n : Nat) : (imageBytes img a n).length = n := by
  simp [imageBytes]

theorem imageBytes_getElem (img : Nat → Byte) (a n i : Nat) (h : i < (imageBytes img a n).length) :
    (imageBytes img a n)[i] = img (a + i) := by
  simp [imageBytes]

/-- A run of bytes that holds a part of an image. -/
theorem readList_eq_imageBytes {m : Memory} {img : Nat → Byte} {b a n : Nat}
    (h : ∀ i, i < n → m.read (b + i) = img (a + i)) : m.readList b n = imageBytes img a n := by
  apply List.ext_getElem
  · simp
  · intro i hi _
    rw [Memory.readList_getElem, imageBytes_getElem]
    exact h i (by simpa using hi)

/-- `bytes` are a payload of the first `p` pixels of an image: the seed pixel (R212), then literals (R230) and copies of
equal pixels (R228). -/
inductive Encodes (k : Kind) (deltas : List Int) (img : Nat → Byte) : List Byte → Nat → Prop where
  | seed : Encodes k deltas img (imageBytes img 0 (byteDepth k)) 1
  | literal {bytes : List Byte} {p : Nat} (h : Encodes k deltas img bytes p) (n : Nat) (hpos : 1 ≤ n)
      (hmax : n ≤ maxThunkSize) :
      Encodes k deltas img (bytes ++ (literalHeader n ++ imageBytes img (p * byteDepth k) (n * byteDepth k))) (p + n)
  | copy {bytes : List Byte} {p : Nat} (h : Encodes k deltas img bytes p) (idx len back : Nat) (hidx : idx < tableSize k)
      (hlo : ignoreThreshold k < len) (hhi : len ≤ 0x10000) (hdelta : deltas.getD idx 0 = -(back : Int)) (hpos : 0 < back)
      (hback : back ≤ p)
      (hsame : ∀ j, j < len * byteDepth k → img ((p - back) * byteDepth k + j) = img (p * byteDepth k + j)) :
      Encodes k deltas img (bytes ++ copyUnit k idx len) (p + len)

/-- `bytes` are a payload of the first `p` pixels of the source image of the job of `s`. -/
def State.PayloadOf (s : State) (bytes : List Byte) (p : Nat) : Prop :=
  Encodes s.job.kind s.job.shiftDeltas s.imageByte bytes p

/-- `unit` takes a payload of `p` pixels to one of `q` pixels. -/
def State.Extends (s : State) (unit : List Byte) (p q : Nat) : Prop :=
  ∀ bytes, s.PayloadOf bytes p → s.PayloadOf (bytes ++ unit) q

theorem State.Extends.nil (s : State) (p : Nat) : s.Extends [] p p := fun bytes h => (List.append_nil bytes).symm ▸ h

theorem State.Extends.append {s : State} {xs ys : List Byte} {p q r : Nat} (h : s.Extends xs p q) (h' : s.Extends ys q r) :
    s.Extends (xs ++ ys) p r := fun bytes hb => by
  rw [← List.append_assoc]
  exact h' _ (h _ hb)

/-! ### The constants of a job through its turns -/

section

variable {s t : State} (h : t.setup = s.setup)

include h

theorem kind_of_setup_eq : t.job.kind = s.job.kind := congrArg (fun x => x.job.kind) h
theorem op_of_setup_eq : t.job.op = s.job.op := congrArg (fun x => x.job.op) h
theorem d_of_setup_eq : t.job.d = s.job.d := congrArg (fun x => x.job.d) h
theorem totalPixels_of_setup_eq : t.job.totalPixels = s.job.totalPixels := congrArg (fun x => x.job.totalPixels) h
theorem totalBytes_of_setup_eq : t.job.totalBytes = s.job.totalBytes := congrArg (fun x => x.job.totalBytes) h
theorem shiftDeltas_of_setup_eq : t.job.shiftDeltas = s.job.shiftDeltas := congrArg (fun x => x.job.shiftDeltas) h
theorem srcLen_of_setup_eq : t.job.srcLen = s.job.srcLen := congrArg (fun x => x.job.srcLen) h
theorem srcAddr_of_setup_eq : t.job.srcAddr = s.job.srcAddr := congrArg (fun x => x.job.srcAddr) h
theorem dstAddr_of_setup_eq : t.job.dstAddr = s.job.dstAddr := congrArg (fun x => x.job.dstAddr) h
theorem turns_of_setup_eq : t.turns = s.turns := congrArg (fun x => x.turns) h

end

/-- A byte of the source window is none of the bytes written inside the destination window (20_memory.md R82). -/
theorem srcAddr_outside {s : State} (hc : configOk s = true) {i off n : Nat} (hi : i < s.job.srcLen.toNat)
    (hw : off + n ≤ s.job.dstCap.toNat) :
    s.job.srcAddr i < s.job.dstAddr off ∨ s.job.dstAddr off + n ≤ s.job.srcAddr i := by
  obtain ⟨-, -, -, -, hapart, -⟩ := (configOk_iff s).1 hc
  rw [rangesDisjoint_iff] at hapart
  unfold Job.srcAddr Job.dstAddr
  omega

/-! ### What the encoder has written -/

/-- In the state `t` of the encode job of `s` the source image is untouched and a payload of the first `p` pixels is
written. -/
structure Written (s t : State) (p : Nat) : Prop where
  setup : t.setup = s.setup
  source : ∀ i, i < s.job.totalBytes → t.imageByte i = s.imageByte i
  payload : s.PayloadOf (t.mem.readList (t.job.dstAddr 0) t.job.outPos) p

/-- A unit written at the output cursor and read back, and nothing else written. -/
structure UnitWritten (unit : List Byte) (t t' : State) : Prop where
  setup : t'.setup = t.setup
  cursor : t'.job.outPos = t.job.outPos + unit.length
  inWindow : t.job.outPos + unit.length ≤ t.job.dstCap.toNat
  reads : t'.mem.readList (t.job.dstAddr t.job.outPos) unit.length = unit
  frame : unchangedOutside t.mem t'.mem (t.job.dstAddr t.job.outPos) unit.length

/-- A unit is appended to the payload, and the source window has no byte of it. -/
theorem Written.emit {s t t' : State} {p q : Nat} {unit : List Byte} (h : Written s t p) (hok : EmitOk t)
    (hu : UnitWritten unit t t') (hext : s.Extends unit p q) : Written s t' q where
  setup := hu.setup.trans h.setup
  source i hi := by
    have hsrc : i < t.job.srcLen.toNat :=
      lt_of_lt_of_le (totalBytes_of_setup_eq h.setup ▸ hi) (totalBytes_le_srcLen hok.run.setup.config hok.op)
    have hsame : t'.imageByte i = t.imageByte i := by
      rw [State.imageByte, srcAddr_of_setup_eq hu.setup]
      exact hu.frame _ (srcAddr_outside hok.run.setup.config hsrc hu.inWindow)
    exact hsame.trans (h.source i hi)
  payload := by
    have hbefore : t'.mem.readList (t.job.dstAddr 0) t.job.outPos = t.mem.readList (t.job.dstAddr 0) t.job.outPos :=
      Memory.readList_congr fun i hi => hu.frame _ (by unfold Job.dstAddr; omega)
    have hcursor : t.job.dstAddr 0 + t.job.outPos = t.job.dstAddr t.job.outPos := by
      unfold Job.dstAddr
      omega
    rw [hu.cursor, dstAddr_of_setup_eq hu.setup, Memory.readList_append, hbefore, hcursor, hu.reads]
    exact hext _ h.payload

/-- The cursors that the payload does not depend on. -/
theorem Written.congr {s t t' : State} {p : Nat} (h : Written s t p) (hsetup : t'.setup = t.setup) (hmem : t'.mem = t.mem)
    (hout : t'.job.outPos = t.job.outPos) : Written s t' p where
  setup := hsetup.trans h.setup
  source i hi := by
    rw [State.imageByte, srcAddr_of_setup_eq hsetup, hmem]
    exact h.source i hi
  payload := by
    rw [dstAddr_of_setup_eq hsetup, hmem, hout]
    exact h.payload

/-! ### Its units -/

/-- A literal of the next `n` pixels (R230). -/
theorem Written.literal {s t : State} {p n : Nat} (h : Written s t p) (hpos : 1 ≤ n) (hmax : n ≤ maxThunkSize)
    (hend : p + n ≤ t.job.totalPixels) :
    s.Extends (literalHeader n ++ t.mem.readList (t.job.srcAddr (p * t.job.d)) (n * t.job.d)) p (p + n) := by
  intro bytes hb
  have hpixels : t.mem.readList (t.job.srcAddr (p * t.job.d)) (n * t.job.d) =
      imageBytes s.imageByte (p * s.job.d) (n * s.job.d) := by
    rw [← d_of_setup_eq h.setup]
    refine readList_eq_imageBytes fun i hi => ?_
    have hbyte : p * t.job.d + i < t.job.totalBytes :=
      calc p * t.job.d + i < p * t.job.d + n * t.job.d := Nat.add_lt_add_left hi _
        _ = (p + n) * t.job.d := (Nat.add_mul ..).symm
        _ ≤ t.job.totalBytes := Nat.mul_le_mul_right _ hend
    rw [← h.source _ (totalBytes_of_setup_eq h.setup ▸ hbyte), State.imageByte, Job.srcAddr, Job.srcAddr, Nat.add_assoc]
  rw [hpixels]
  exact .literal hb n hpos hmax

/-- The flush of the pending literal (R230). -/
theorem Written.pending {s t : State} (h : Written s t (t.job.current - t.job.litLen)) (hc : CursorsOk t)
    (hmax : t.job.litLen ≤ maxThunkSize) :
    s.Extends (pendingBytes t) (t.job.current - t.job.litLen) t.job.current := by
  by_cases h0 : t.job.litLen = 0
  · rw [pendingBytes_empty h0, h0]
    exact .nil s t.job.current
  · have hstart := hc.pending (Nat.pos_of_ne_zero h0)
    have hcur : t.job.current - t.job.litLen = t.job.litStart := by omega
    rw [hcur] at h ⊢
    have hext := h.literal (Nat.pos_of_ne_zero h0) hmax (hstart ▸ hc.inImage)
    rw [hstart] at hext
    rw [pendingBytes_literal h0]
    exact hext

/-- Equal pixels are equal byte by byte (00_scope.md R14). -/
theorem imageByte_of_pixelsEqual {s : State} {a b n : Nat} (h : ∀ k, k < n → pixelsEqual s (a + k) (b + k) = true)
    {j : Nat} (hj : j < n * s.job.d) : s.imageByte (a * s.job.d + j) = s.imageByte (b * s.job.d + j) := by
  have hpixel := of_decide_eq_true (h (j / s.job.d) (Nat.div_lt_of_lt_mul (Nat.mul_comm .. ▸ hj)))
  have hmod := Nat.mod_lt j s.job.d_pos
  have hbyte : ∀ p, (s.mem.readList (s.job.srcAddr ((p + j / s.job.d) * s.job.d)) s.job.d)[j % s.job.d]? =
      some (s.imageByte (p * s.job.d + j)) := fun p => by
    have hoffset : (p + j / s.job.d) * s.job.d + j % s.job.d = p * s.job.d + j := by
      rw [Nat.add_mul, Nat.add_assoc, Nat.div_add_mod']
    rw [List.getElem?_eq_getElem (by simpa using hmod), Memory.readList_getElem, State.imageByte, Job.srcAddr, Job.srcAddr,
      Nat.add_assoc, hoffset]
  exact Option.some.inj (hbyte a ▸ hbyte b ▸ congrArg (·[j % s.job.d]?) hpixel)

/-- What a match that the search has found refers to (R221, R222): the pixels that stand `back` pixels before. -/
theorem matchSearch_reference {s : State} (hc : s.job.current < s.job.totalPixels) (hpos : 0 < (matchSearch s).1) :
    ∃ back : Nat, s.job.shiftDeltas.getD (matchSearch s).2 0 = -(back : Int) ∧ 0 < back ∧ back ≤ s.job.current ∧
      (∀ k, k < (matchSearch s).1 → pixelsEqual s (s.job.current - back + k) (s.job.current + k) = true) ∧
      s.job.current + (matchSearch s).1 ≤ min (s.job.current + 0x10000) s.job.totalPixels := by
  obtain ⟨-, hlen, -⟩ := (longestMatchLowestIndexWins s).2 hpos
  obtain ⟨back, hback⟩ : ∃ back : Nat, s.job.shiftDeltas.getD (matchSearch s).2 0 = -(back : Int) := by
    obtain ⟨hskip, -⟩ := matchEntryIsTheLongestMatch s (matchSearch s).2 0 hc
    rcases Int.le_total 0 (s.job.shiftDeltas.getD (matchSearch s).2 0) with h | h
    · have := hskip h
      omega
    · exact Int.exists_eq_neg_ofNat h
  obtain ⟨hskip, hbefore, hmatch⟩ := matchEntryIsTheLongestMatch s (matchSearch s).2 (s.job.current - back) hc
  rw [hback] at hskip hbefore hmatch
  have hneg : 0 < back := by
    by_contra hn
    have := hskip (by omega)
    omega
  have hinside : back ≤ s.job.current := by
    by_contra hn
    have := hbefore (by omega)
    omega
  obtain ⟨hequal, hbound, -⟩ := hmatch (by omega) (by omega)
  rw [hlen] at hequal hbound
  exact ⟨back, hback, hneg, hinside, hequal, hbound⟩

/-- The copy of the search's match (R228): the match finder compared the source pixels themselves. -/
theorem Written.copy {s t : State} {p : Nat} (h : Written s t p) (hc : t.job.current < t.job.totalPixels)
    (hbest : ignoreThreshold t.job.kind < (matchSearch t).1) :
    s.Extends (copyUnit t.job.kind (matchSearch t).2 (matchSearch t).1) t.job.current
      (t.job.current + (matchSearch t).1) := fun bytes hb => by
  have hpos : 0 < (matchSearch t).1 := by omega
  obtain ⟨hidx, -⟩ := (longestMatchLowestIndexWins t).2 hpos
  obtain ⟨back, hdelta, hback, hinside, hequal, hbound⟩ := matchSearch_reference hc hpos
  rw [shiftDeltas_of_setup_eq h.setup] at hdelta
  rw [kind_of_setup_eq h.setup] at hidx hbest ⊢
  refine .copy hb _ _ back hidx hbest (by omega) hdelta hback hinside fun j hj => ?_
  rw [show byteDepth s.job.kind = t.job.d from (d_of_setup_eq h.setup).symm] at hj ⊢
  have hcur : t.job.current * t.job.d + j < s.job.totalBytes :=
    calc t.job.current * t.job.d + j < t.job.current * t.job.d + (matchSearch t).1 * t.job.d := Nat.add_lt_add_left hj _
      _ = (t.job.current + (matchSearch t).1) * t.job.d := (Nat.add_mul ..).symm
      _ ≤ t.job.totalBytes := Nat.mul_le_mul_right _ (by omega)
      _ = s.job.totalBytes := totalBytes_of_setup_eq h.setup
  have hprev : (t.job.current - back) * t.job.d ≤ t.job.current * t.job.d := Nat.mul_le_mul_right _ (Nat.sub_le ..)
  rw [← h.source _ (by omega), ← h.source _ hcur]
  exact imageByte_of_pixelsEqual hequal hj

/-! ### Runs of the engine alone -/

theorem step_of_noTurns {s : State} (h : s.turns = []) : step s = engineTurn s := by
  rw [step, h]

/-- An answered run of one step more is an answered first step and the run from its answer. -/
theorem run_succ_inv {n : Nat} {s t : State} (h : Sys2Proof.core.run (n + 1) s = .next t) :
    ∃ u, step s = .next u ∧ Sys2Proof.core.run n u = .next t := by
  cases hstep : step s with
  | next u => exact ⟨u, rfl, run_of_step n hstep ▸ h⟩
  | fault f =>
    have hcore : Sys2Proof.core.step s = .fault f := hstep
    simp [Host.Core.run, hcore] at h
  | refused r =>
    have hcore : Sys2Proof.core.step s = .refused r := hstep
    simp [Host.Core.run, hcore] at h

/-- What every answered step keeps holds at the end of an answered run. -/
theorem run_keeps {P : State → Prop} (hstep : ∀ t u, P t → step t = .next u → P u) {n : Nat} {s e : State} (hs : P s)
    (h : Sys2Proof.core.run n s = .next e) : P e := by
  induction n generalizing s with
  | zero =>
    cases h
    exact hs
  | succ n ih =>
    obtain ⟨u, hu, hrun⟩ := run_succ_inv h
    exact ih (hstep s u hs hu) hrun

/-- A run goes on by a step of its last state. -/
theorem run_snoc {n : Nat} {s t u : State} (h : Sys2Proof.core.run n s = .next t) (hstep : step t = .next u) :
    Sys2Proof.core.run (n + 1) s = .next u := by
  induction n generalizing s with
  | zero =>
    cases h
    exact run_of_step 0 hstep
  | succ n ih =>
    obtain ⟨v, hv, hrun⟩ := run_succ_inv h
    rw [run_of_step _ hv]
    exact ih hrun

/-! ### A run of an encode job -/

/-- Where a run of the encode job of `s`, from its seed, can stand. -/
inductive EncodeRun (s : State) : State → Prop where
  | atSeed : EncodeRun s s
  | running {t : State} (hl : t.engine = .loop) (hok : StateOk t)
      (h : Written s t (t.job.current - t.job.litLen)) : EncodeRun s t
  | failed {t : State} (hi : t.engine = .idle) (ht : t.turns = []) (he : t.error = true) : EncodeRun s t
  | finished {t : State} (hi : t.engine = .idle) (ht : t.turns = [])
      (h : s.PayloadOf (t.mem.readList (s.job.dstAddr 0) t.dstPosReg.toNat) s.job.totalPixels) : EncodeRun s t

/-- The seed starts the payload with pixel 0 (R212). -/
theorem EncodeRun.seed {s t : State} (hok : StateOk s) (hl : s.engine = .seed) (ho : s.job.op = .encode)
    (ht : s.turns = []) (hstep : step s = .next t) : EncodeRun s t := by
  have hokt := everyStepKeepsTheInvariant s t hok hstep
  have hturn := step_of_noTurns ht ▸ hstep
  have hc := hok.config (by simp [hl, Engine.checked])
  rcases Nat.lt_or_ge s.job.dstCap.toNat s.job.d with hcap | hfit
  · rw [engineTurn_seed_encode hl ho, encodeSeed_overflow hc ho hcap] at hturn
    cases hturn
    exact .failed rfl ht rfl
  · obtain ⟨m, e, hpixel, hframe⟩ := (encodeSeedEmitsTheFirstPixel s hok hl ho).1 hfit
    cases e.symm.trans hturn
    have hsource : ∀ i, i < s.job.totalBytes → m.read (s.job.srcAddr i) = s.imageByte i := fun i hi =>
      hframe _ (srcAddr_outside hc (lt_of_lt_of_le hi (totalBytes_le_srcLen hc ho)) (by omega))
    have hbytes : m.readList (s.job.dstAddr 0) s.job.d = imageBytes s.imageByte 0 s.job.d :=
      readList_eq_imageBytes fun i hi => by
        rw [Nat.zero_add]
        exact hpixel i hi
    have hpayload : s.PayloadOf (m.readList (s.job.dstAddr 0) s.job.d) 1 := hbytes ▸ Encodes.seed
    exact .running rfl hokt ⟨rfl, hsource, hpayload⟩

/-- The literal path of a pass (R226, R229). -/
theorem EncodeRun.shortPass {s t u : State} (hl : t.engine = .loop) (hok : StateOk t) (ho : t.job.op = .encode)
    (h : Written s t (t.job.current - t.job.litLen)) (ht : t.turns = []) (hc : t.job.current < t.job.totalPixels)
    (hbest : (matchSearch t).1 ≤ ignoreThreshold t.job.kind) (hoku : StateOk u) (hturn : engineTurn t = .next u) :
    EncodeRun s u := by
  have hencoder := hok.encoder hl ho
  rcases Nat.lt_or_eq_of_le (Nat.succ_le_of_lt hencoder.pendingShort) with hbelow | hfull
  · cases (shortMatchIsAppendedToTheLiteral t hok hl ho hc hbest hbelow).symm.trans hturn
    refine .running hl hoku ?_
    have hsame := Nat.add_sub_add_right t.job.current 1 t.job.litLen
    exact hsame.symm ▸ h.congr rfl rfl rfl
  · have hpos : t.job.litLen ≠ 0 := by
      unfold maxThunkSize at hfull
      omega
    obtain ⟨hfits, hover⟩ := fullLiteralIsFlushedAtOnce t hok hl ho hc hbest hfull
    rcases Nat.lt_or_ge t.job.dstCap.toNat (t.job.outPos + _) with hcap | hfit
    · cases (hover hcap).symm.trans hturn
      exact .failed rfl ht rfl
    · obtain ⟨m, e, hread, hframe⟩ := hfits hfit
      cases e.symm.trans hturn
      have happend := (hok.emitOk hl ho).noteMatch.appendLiteral hc
      have hwritten : Written s (appendLiteral (noteMatch t)) (t.job.current - t.job.litLen) := h.congr rfl rfl rfl
      rw [← Nat.add_sub_add_right t.job.current 1 t.job.litLen] at hwritten
      have hext := hwritten.pending happend.cursors hfull.le
      rw [pendingBytes_full (s := noteMatch t) hpos hfull] at hext
      exact .running hl hoku (hwritten.emit happend ⟨rfl, rfl, hfit, hread, hframe⟩ hext)

/-- The copy path of a pass (R227). -/
theorem EncodeRun.longPass {s t u : State} (hl : t.engine = .loop) (hok : StateOk t) (ho : t.job.op = .encode)
    (h : Written s t (t.job.current - t.job.litLen)) (ht : t.turns = []) (hc : t.job.current < t.job.totalPixels)
    (hbest : ignoreThreshold t.job.kind < (matchSearch t).1) (hoku : StateOk u) (hturn : engineTurn t = .next u) :
    EncodeRun s u := by
  have hencoder := hok.encoder hl ho
  obtain ⟨hfits, hflush, hcopy⟩ := longMatchFlushesThenCopies t hok hl ho hc hbest
  by_cases hcapFlush : t.job.dstCap.toNat < t.job.outPos + (pendingBytes t).length
  · cases (hflush hcapFlush).symm.trans hturn
    exact .failed rfl ht rfl
  rcases Nat.lt_or_ge t.job.dstCap.toNat (t.job.outPos + _) with hcap | hfit
  · obtain ⟨m, e, -⟩ := hcopy (Nat.le_of_not_lt hcapFlush) hcap
    cases e.symm.trans hturn
    exact .failed rfl ht rfl
  · obtain ⟨m, e, hread, hframe⟩ := hfits hfit
    cases e.symm.trans hturn
    have hext := (h.pending hencoder.cursorsOk hencoder.pendingShort.le).append (h.copy hc hbest)
    exact .running hl hoku (h.emit (hok.emitOk hl ho) ⟨rfl, rfl, hfit, hread, hframe⟩ hext)

/-- The final flush and the end of the job (R231). -/
theorem EncodeRun.finish {s t u : State} (hl : t.engine = .loop) (hok : StateOk t) (ho : t.job.op = .encode)
    (h : Written s t (t.job.current - t.job.litLen)) (ht : t.turns = []) (hc : t.job.current = t.job.totalPixels)
    (hturn : engineTurn t = .next u) : EncodeRun s u := by
  have hencoder := hok.encoder hl ho
  obtain ⟨hfits, hover⟩ := encodeJobEndsWithDone t hok hl ho hc
  rcases Nat.lt_or_ge t.job.dstCap.toNat (t.job.outPos + _) with hcap | hfit
  · cases (hover hcap).symm.trans hturn
    exact .failed rfl ht rfl
  · obtain ⟨m, e, hread, hframe⟩ := hfits hfit
    cases e.symm.trans hturn
    have hext := h.pending hencoder.cursorsOk hencoder.pendingShort.le
    have hwritten := h.emit (hok.emitOk hl ho)
      (t' := { t with mem := m, job := { t.job with outPos := t.job.outPos + (pendingBytes t).length, litLen := 0 } })
      ⟨rfl, rfl, hfit, hread, hframe⟩ hext
    have hpos : (BitVec.ofNat 32 (t.job.outPos + (pendingBytes t).length)).toNat =
        t.job.outPos + (pendingBytes t).length := Nat.mod_eq_of_lt (lt_of_le_of_lt hfit t.job.dstCap.isLt)
    have hpayload : s.PayloadOf (m.readList (t.job.dstAddr 0) (t.job.outPos + (pendingBytes t).length)) t.job.current :=
      hwritten.payload
    rw [hc, totalPixels_of_setup_eq h.setup, dstAddr_of_setup_eq h.setup] at hpayload
    exact .finished rfl ht (hpos.symm ▸ hpayload)

/-- A step of an ended job changes nothing. -/
theorem step_of_ended {s t : State} (hi : s.engine = .idle) (ht : s.turns = []) (hstep : step s = .next t) : t = s := by
  rw [step_of_noTurns ht, engineTurn_idle hi] at hstep
  cases hstep
  rfl

/-- Every answered step of the engine goes on in a run of the encode job. -/
theorem EncodeRun.step {s t u : State} (hok : StateOk s) (hseed : s.engine = .seed) (ho : s.job.op = .encode)
    (hs : s.turns = []) (h : EncodeRun s t) (hstep : Machine.step t = .next u) : EncodeRun s u := by
  cases h with
  | atSeed => exact .seed hok hseed ho hs hstep
  | running hl hokt h =>
    have hoku := everyStepKeepsTheInvariant t u hokt hstep
    have ht : t.turns = [] := (turns_of_setup_eq h.setup).trans hs
    have hot : t.job.op = .encode := (op_of_setup_eq h.setup).trans ho
    rw [step_of_noTurns ht] at hstep
    rcases Nat.lt_or_eq_of_le (hokt.encoder hl hot).inImage with hc | hc
    · rcases Nat.lt_or_ge (ignoreThreshold t.job.kind) (matchSearch t).1 with hlong | hshort
      · exact .longPass hl hokt hot h ht hc hlong hoku hstep
      · exact .shortPass hl hokt hot h ht hc hshort hoku hstep
    · exact .finish hl hokt hot h ht hc hstep
  | failed hi ht he =>
    cases step_of_ended hi ht hstep
    exact .failed hi ht he
  | finished hi ht h =>
    cases step_of_ended hi ht hstep
    exact .finished hi ht h

/-- An encode job that ends with `DONE` has written a payload of its whole image. -/
theorem payloadOf_encodeRun {s e : State} {n : Nat} (hok : StateOk s) (hseed : s.engine = .seed) (ho : s.job.op = .encode)
    (hs : s.turns = []) (hrun : Sys2Proof.core.run n s = .next e) (hdone : endedDone e) :
    s.PayloadOf (e.mem.readList (s.job.dstAddr 0) e.dstPosReg.toNat) s.job.totalPixels := by
  obtain ⟨hidle, -, hnoError⟩ := hdone
  have h : EncodeRun s e := run_keeps (fun _ _ h hstep => h.step hok hseed ho hs hstep) .atSeed hrun
  cases h with
  | atSeed => simp [hseed] at hidle
  | running hl => simp [hl] at hidle
  | failed _ _ he => simp [he] at hnoError
  | finished _ _ h => exact h

/-! ## Decoding a payload (R233) -/

/-! ### The bytes in the source window -/

/-- The source window of the job of `u` holds `bytes` from offset `pos` on. -/
structure CarriesAt (u : State) (pos : Nat) (bytes : List Byte) : Prop where
  fits : pos + bytes.length ≤ u.job.srcLen.toNat
  reads : u.mem.readList (u.job.srcAddr pos) bytes.length = bytes

theorem CarriesAt.append {u : State} {pos : Nat} {xs ys : List Byte} (h : CarriesAt u pos (xs ++ ys)) :
    CarriesAt u pos xs ∧ CarriesAt u (pos + xs.length) ys := by
  obtain ⟨hfits, hreads⟩ := h
  rw [List.length_append] at hfits
  rw [List.length_append, Memory.readList_append] at hreads
  obtain ⟨hxs, hys⟩ := List.append_inj hreads (Memory.readList_length ..)
  refine ⟨⟨by omega, hxs⟩, by omega, ?_⟩
  rw [Job.srcAddr, ← Nat.add_assoc]
  exact hys

theorem CarriesAt.read_imageBytes {u : State} {pos a n : Nat} {img : Nat → Byte} (h : CarriesAt u pos (imageBytes img a n))
    {j : Nat} (hj : j < n) : u.mem.read (u.job.srcAddr pos + j) = img (a + j) := by
  have hlen : j < (u.mem.readList (u.job.srcAddr pos) n).length := by simpa using hj
  have hreads := h.reads
  rw [imageBytes_length] at hreads
  rw [← Memory.readList_getElem _ _ n j hlen, List.getElem_of_eq hreads, imageBytes_getElem]

/-! ### A repeated sequence -/

/-- A sequence that repeats with period `b` from `a` on has at `a + b + j` what its first period has at `j mod b`. -/
theorem eq_of_periodic {f : Nat → Byte} {a b n : Nat} (hb : 0 < b) (h : ∀ j, j < n → f (a + j) = f (a + b + j))
    {j : Nat} (hj : j < n) : f (a + b + j) = f (a + j % b) := by
  induction j using Nat.strong_induction_on with
  | _ j ih =>
    rw [← h j hj]
    by_cases hlt : j < b
    · rw [Nat.mod_eq_of_lt hlt]
    · rw [Nat.mod_eq_sub_mod (Nat.le_of_not_lt hlt), ← ih (j - b) (by omega) (by omega)]
      congr 1
      omega

/-! ### Where the decoder stands -/

/-- The decode job of `u` has read `pos` bytes of its payload and produced the first `p` pixels of an image. -/
structure Decoded (img : Nat → Byte) (u : State) (pos p : Nat) (v : State) : Prop where
  ok : StateOk v
  loop : v.engine = .loop
  setup : v.setup = u.setup
  srcPos : v.job.srcPos = pos
  dstPos : v.job.dstPos = p * v.job.d
  source : ∀ i, i < v.job.srcLen.toNat → v.imageByte i = u.imageByte i
  output : ∀ i, i < p * v.job.d → v.mem.read (v.job.dstAddr i) = img i

section

variable {img : Nat → Byte} {u v : State} {pos p : Nat} (h : Decoded img u pos p v)

include h

theorem Decoded.config : configOk v = true := h.ok.config (by simp [h.loop, Engine.checked])

theorem Decoded.windowsApart : windowsApart v := by
  obtain ⟨-, -, -, -, hapart, -⟩ := (configOk_iff v).1 h.config
  exact hapart

/-- The source window still holds the payload. -/
theorem Decoded.carriesAt {off : Nat} {bytes : List Byte} (hb : CarriesAt u off bytes) : CarriesAt v off bytes where
  fits := srcLen_of_setup_eq h.setup ▸ hb.fits
  reads := by
    have hfits := hb.fits
    rw [← srcLen_of_setup_eq h.setup] at hfits
    refine Eq.trans (Memory.readList_congr fun i hi => ?_) hb.reads
    have := h.source (off + i) (by omega)
    rwa [State.imageByte, State.imageByte, Job.srcAddr, Job.srcAddr, ← Nat.add_assoc, ← Nat.add_assoc] at this

/-- The bytes that remain are those of the remaining pixels (10_state.md R45). -/
theorem Decoded.remBytes_eq (ho : u.job.op = .decode) (hp : p ≤ u.job.totalPixels) :
    v.job.remBytes = (u.job.totalPixels - p) * v.job.d := by
  have htotal := (h.ok.decoder h.loop ((op_of_setup_eq h.setup).trans ho)).total
  have hbytes : v.job.totalBytes = p * v.job.d + (u.job.totalPixels - p) * v.job.d := by
    rw [← Nat.add_mul, Nat.add_sub_cancel' hp, Job.totalBytes, totalPixels_of_setup_eq h.setup]
  have := h.dstPos
  omega

theorem Decoded.turns_nil (ht : u.turns = []) : v.turns = [] := (turns_of_setup_eq h.setup).trans ht

/-- The next step runs the command whose header stands at the read cursor (R173). -/
theorem Decoded.step_eq_exec (ho : u.job.op = .decode) (ht : u.turns = []) (hp : p < u.job.totalPixels)
    {header : List Byte} {P : Instr → Prop} (hcarries : CarriesAt u pos header) (hshort : header.length ≤ 3)
    (hdec : ∀ rest, ∃ i, decodeCommand u.job.kind (header ++ rest) = .ok (i, rest) ∧ P i) :
    ∃ i, P i ∧ step v = exec i v := by
  have hop := (op_of_setup_eq h.setup).trans ho
  have hrem : v.job.remBytes ≠ 0 := by
    rw [h.remBytes_eq ho hp.le]
    exact Nat.mul_ne_zero (by omega) v.job.d_pos.ne'
  have hw := windowsPlaced_of_configOk h.config
  obtain ⟨hfits, hreads⟩ := h.carriesAt hcarries
  have hfetch : fetchBytes v = header ++ v.mem.readList (v.job.srcAddr pos + header.length)
      (headerRoom v.job - header.length) := by
    have hroom : headerRoom v.job = header.length + (headerRoom v.job - header.length) := by
      have := h.srcPos
      unfold headerRoom
      omega
    rw [fetchBytes, h.srcPos]
    conv_lhs => rw [hroom, Memory.readList_append, hreads]
  rw [step_of_noTurns (h.turns_nil ht), engineTurn_loop_decode h.loop hop, if_neg hrem]
  obtain ⟨i, hi, hP⟩ := hdec (v.mem.readList (v.job.srcAddr pos + header.length) (headerRoom v.job - header.length))
  rw [← hfetch, ← kind_of_setup_eq h.setup] at hi
  exact ⟨i, hP, decodeStep_of_ok hw hi⟩

/-- A command that leaves the next `n` pixels of the image takes the decoder on. -/
theorem Decoded.extend {w : State} {n pos' : Nat} (hw : StateOk w) (hl : w.engine = .loop)
    (hs : w.setup = v.setup) (hsrc : w.job.srcPos = pos') (hdst : w.job.dstPos = v.job.dstPos + n * v.job.d)
    (hfit : v.job.dstPos + n * v.job.d ≤ v.job.dstCap.toNat)
    (hread : ∀ j, j < n * v.job.d → w.mem.read (v.job.dstAddr (p * v.job.d + j)) = img (p * v.job.d + j))
    (hframe : unchangedOutside v.mem w.mem (v.job.dstAddr v.job.dstPos) (n * v.job.d)) :
    Decoded img u pos' (p + n) w where
  ok := hw
  loop := hl
  setup := hs.trans h.setup
  srcPos := hsrc
  dstPos := by rw [hdst, h.dstPos, d_of_setup_eq hs, Nat.add_mul]
  source i hi := by
    rw [srcLen_of_setup_eq hs] at hi
    refine Eq.trans ?_ (h.source i hi)
    rw [State.imageByte, srcAddr_of_setup_eq hs]
    exact hframe _ (srcAddr_outside h.config hi hfit)
  output i hi := by
    rw [d_of_setup_eq hs, Nat.add_mul] at hi
    rw [dstAddr_of_setup_eq hs]
    by_cases hold : i < p * v.job.d
    · rw [← h.output i hold]
      refine hframe _ (.inl ?_)
      rw [h.dstPos]
      exact Nat.add_lt_add_left hold _
    · obtain ⟨j, rfl⟩ := Nat.exists_eq_add_of_le (Nat.le_of_not_lt hold)
      exact hread j (by omega)

/-- The remaining pixels fit what remains of the image and the destination window (10_state.md R44, R45). -/
theorem Decoded.fits (ho : u.job.op = .decode) {n : Nat} (hn : p + n ≤ u.job.totalPixels) :
    n * v.job.d ≤ v.job.remBytes ∧ v.job.dstPos + n * v.job.d ≤ v.job.dstCap.toNat := by
  have hrem : n * v.job.d ≤ v.job.remBytes := by
    rw [h.remBytes_eq ho (by omega)]
    exact Nat.mul_le_mul_right _ (by omega)
  have := h.ok.remaining_fits h.loop ((op_of_setup_eq h.setup).trans ho)
  omega

/-! ### One unit -/

/-- A literal unit decodes to its pixels (R175 to R177). -/
theorem Decoded.literal (ho : u.job.op = .decode) (ht : u.turns = []) {n : Nat} (hpos : 1 ≤ n) (hmax : n ≤ maxThunkSize)
    (hn : p + n ≤ u.job.totalPixels)
    (hcarries : CarriesAt u pos (literalHeader n ++ imageBytes img (p * u.job.d) (n * u.job.d))) :
    ∃ w, step v = .next w ∧
      Decoded img u (pos + (literalHeader n ++ imageBytes img (p * u.job.d) (n * u.job.d)).length) (p + n) w := by
  obtain ⟨hheader, hdata⟩ := hcarries.append
  have hshort : (literalHeader n).length ≤ 3 := by
    rw [literalHeader_length]
    split <;> decide
  obtain ⟨i, ⟨hi, -⟩, hstep⟩ := h.step_eq_exec ho ht (by omega) hheader hshort fun rest =>
    literalHeaderDecodesBack u.job.kind n rest hpos hmax
  obtain ⟨hrem, hcap⟩ := h.fits ho hn
  rw [← d_of_setup_eq h.setup] at hdata ⊢
  have hdata := h.carriesAt hdata
  have hfits := hdata.fits
  rw [imageBytes_length, ← h.srcPos] at hfits
  obtain ⟨m, e, hread, hframe⟩ := (literalRunCopiesItsDataOrFails v i _ n hi).2 h.ok.memory.canonical
    (windowsPlaced_of_configOk h.config) h.windowsApart hrem hfits hcap
  have hnext := hstep.trans e
  refine ⟨_, hnext, h.extend (everyStepKeepsTheInvariant v _ h.ok hnext) h.loop rfl ?_ rfl hcap (fun j hj => ?_) hframe⟩
  · rw [List.length_append, imageBytes_length, ← Nat.add_assoc, ← h.srcPos]
  · have hbyte := hread j hj
    rw [h.srcPos, hdata.read_imageBytes hj, h.dstPos] at hbyte
    rwa [Job.dstAddr, ← Nat.add_assoc]

/-- A copy unit decodes to the pixels that the match finder found equal (R178 to R182). -/
theorem Decoded.copy (ho : u.job.op = .decode) (ht : u.turns = []) {idx len back : Nat} (hidx : idx < tableSize u.job.kind)
    (hlo : ignoreThreshold u.job.kind < len) (hhi : len ≤ 0x10000) (hn : p + len ≤ u.job.totalPixels)
    (hdelta : u.job.shiftDeltas.getD idx 0 = -(back : Int)) (hback : 0 < back) (hinside : back ≤ p)
    (hsame : ∀ j, j < len * u.job.d → img ((p - back) * u.job.d + j) = img (p * u.job.d + j))
    (hcarries : CarriesAt u pos (copyUnit u.job.kind idx len)) :
    ∃ w, step v = .next w ∧ Decoded img u (pos + (copyUnit u.job.kind idx len).length) (p + len) w := by
  have hshort : (copyUnit u.job.kind idx len).length ≤ 3 := by
    unfold copyUnit
    split <;> simp
  obtain ⟨i, hi, hstep⟩ := h.step_eq_exec ho ht (by omega) hcarries hshort fun rest =>
    copyUnitDecodesBack u.job.kind idx len rest hidx hlo hhi
  obtain ⟨hrem, hcap⟩ := h.fits ho hn
  rw [← d_of_setup_eq h.setup] at hsame
  have hsplit : (p - back) * v.job.d + back * v.job.d = p * v.job.d := by
    rw [← Nat.add_mul, Nat.sub_add_cancel hinside]
  have hbytes : v.job.shiftDeltas.getD idx 0 * (v.job.d : Int) = -((back * v.job.d : Nat) : Int) := by
    rw [shiftDeltas_of_setup_eq h.setup, hdelta, Int.neg_mul, Int.natCast_mul]
  have hbackBytes : 0 < back * v.job.d := Nat.mul_pos hback v.job.d_pos
  have hdst := h.dstPos
  obtain ⟨m, e, hread, hframe⟩ := (copyRunRepeatsEarlierOutputOrFails v i _ len idx hi).2 (back * v.job.d)
    h.ok.memory.canonical (windowsPlaced_of_configOk h.config) hrem hcap hbytes hbackBytes (by omega)
  have hnext := hstep.trans e
  refine ⟨_, hnext, h.extend (everyStepKeepsTheInvariant v _ h.ok hnext) h.loop rfl ?_ rfl hcap (fun j hj => ?_) hframe⟩
  · rw [← h.srcPos]
  · have hmod := Nat.mod_lt j hbackBytes
    have hstart : v.job.dstPos - back * v.job.d = (p - back) * v.job.d := by omega
    have hrepeat := eq_of_periodic hbackBytes (fun j hj => hsplit.symm ▸ hsame j hj) hj
    rw [hsplit] at hrepeat
    rw [hrepeat, ← hdst, hread j hj, h.output _ (by omega), hstart]

/-- When every pixel is produced the job ends with `DONE`, at the end of the payload (R184). -/
theorem Decoded.finish (ho : u.job.op = .decode) (ht : u.turns = []) (hp : p = u.job.totalPixels) :
    ∃ w, step v = .next w ∧ endedDone w ∧ w.srcPosReg = BitVec.ofNat 32 pos ∧ w.mem = v.mem := by
  have hrem : v.job.remBytes = 0 := by
    rw [h.remBytes_eq ho hp.le, hp, Nat.sub_self, Nat.zero_mul]
  have hend := decodeJobEndsWithDone v h.ok h.loop ((op_of_setup_eq h.setup).trans ho) hrem
  have hnoError : v.error = false := (h.ok.status.quietWhileBusy (by simp [State.busy, h.loop])).2
  rw [h.srcPos] at hend
  exact ⟨_, (step_of_noTurns (h.turns_nil ht)).trans hend, ⟨rfl, rfl, hnoError⟩, rfl, rfl⟩

end

/-! ### The whole payload -/

/-- The seed pixel (R172). -/
theorem decoded_seed {img : Nat → Byte} {u : State} (hok : StateOk u) (hl : u.engine = .seed) (ho : u.job.op = .decode)
    (ht : u.turns = []) (hcarries : CarriesAt u 0 (imageBytes img 0 u.job.d)) :
    ∃ v, step u = .next v ∧ Decoded img u u.job.d 1 v := by
  have hc := hok.config (by simp [hl, Engine.checked])
  have hcap := (d_le_totalBytes hc).trans (totalBytes_le_dstCap hc ho)
  obtain ⟨-, -, -, -, hapart, -⟩ := (configOk_iff u).1 hc
  have hfits := hcarries.fits
  rw [imageBytes_length, Nat.zero_add] at hfits
  obtain ⟨m, e, hread, hframe⟩ := (seedCopiesTheFirstPixelOrIsTruncated u).2 hok.memory.canonical
    (windowsPlaced_of_configOk hc) hapart hfits hcap
  have hnext := (step_of_noTurns ht).trans ((engineTurn_seed_decode hl ho).trans e)
  have hsource : ∀ i, i < u.job.srcLen.toNat → m.read (u.job.srcAddr i) = u.imageByte i := fun i hi =>
    hframe _ (srcAddr_outside hc hi (by omega))
  have houtput : ∀ i, i < 1 * u.job.d → m.read (u.job.dstAddr i) = img i := fun i hi => by
    rw [Nat.one_mul] at hi
    have hpixel := hcarries.read_imageBytes hi
    rw [Nat.zero_add] at hpixel
    exact (hread i hi).trans hpixel
  exact ⟨_, hnext, everyStepKeepsTheInvariant u _ hok hnext, rfl, rfl, rfl, (Nat.one_mul _).symm, hsource, houtput⟩

/-- The decode job goes through the units of a payload one by one. -/
theorem Encodes.decoded {img : Nat → Byte} {u : State} (hok : StateOk u) (hl : u.engine = .seed) (ho : u.job.op = .decode)
    (ht : u.turns = []) {bytes : List Byte} {p : Nat} (henc : Encodes u.job.kind u.job.shiftDeltas img bytes p)
    (hcarries : CarriesAt u 0 bytes) (hp : p ≤ u.job.totalPixels) :
    ∃ m v, Sys2Proof.core.run m u = .next v ∧ Decoded img u bytes.length p v := by
  induction henc with
  | seed =>
    obtain ⟨v, hv, hdec⟩ := decoded_seed hok hl ho ht hcarries
    rw [imageBytes_length]
    exact ⟨1, v, run_of_step 0 hv, hdec⟩
  | literal _ n hpos hmax ih =>
    obtain ⟨hbytes, hunit⟩ := hcarries.append
    obtain ⟨m, v, hrun, hdec⟩ := ih hbytes (by omega)
    rw [Nat.zero_add] at hunit
    obtain ⟨w, hstep, hw⟩ := hdec.literal ho ht hpos hmax hp hunit
    rw [List.length_append]
    exact ⟨m + 1, w, run_snoc hrun hstep, hw⟩
  | copy _ idx len back hidx hlo hhi hdelta hback hinside hsame ih =>
    obtain ⟨hbytes, hunit⟩ := hcarries.append
    obtain ⟨m, v, hrun, hdec⟩ := ih hbytes (by omega)
    rw [Nat.zero_add] at hunit
    obtain ⟨w, hstep, hw⟩ := hdec.copy ho ht hidx hlo hhi hp hdelta hback hinside hsame hunit
    rw [List.length_append]
    exact ⟨m + 1, w, run_snoc hrun hstep, hw⟩

/-- Settles O52: the encode job's run writes a payload of its image (`payloadOf_encodeRun`), and the decode job's run goes
through its units (`Encodes.decoded`). -/
theorem decodeOfEncodeReproducesThePixels : Obligations.DecodeOfEncodeReproducesThePixels := by
  intro s e u n hs hsl hso hst hrun hdone hu hul huo hut hkind hwidth hheight hparams hlen hpayload
  have hcarries : CarriesAt u 0 (e.mem.readList (s.job.dstAddr 0) e.dstPosReg.toNat) := by
    refine ⟨by simpa using hlen, ?_⟩
    rw [Memory.readList_length]
    refine Memory.readList_congr fun i hi => ?_
    have := hpayload i hi
    simpa [Job.srcAddr, Job.dstAddr] using this
  have hdeltas : u.job.shiftDeltas = s.job.shiftDeltas := by
    rw [(hu.latch (by simp [State.busy, hul])).deltas, (hs.latch (by simp [State.busy, hsl])).deltas, hkind, hwidth,
      hparams]
  have hpixels : s.job.totalPixels = u.job.totalPixels := by
    rw [Job.totalPixels, Job.totalPixels, hwidth, hheight]
  have henc := payloadOf_encodeRun hs hsl hso hst hrun hdone
  rw [State.PayloadOf, ← hkind, ← hdeltas] at henc
  obtain ⟨m, v, hv, hdec⟩ := henc.decoded hu hul huo hut hcarries hpixels.le
  obtain ⟨w, hstep, hend, hpos, hmem⟩ := hdec.finish huo hut hpixels
  refine ⟨m + 1, w, run_snoc hv hstep, hend, ?_, fun i hi => ?_⟩
  · rw [hpos, Memory.readList_length, BitVec.ofNat_toNat, BitVec.setWidth_eq]
  · rw [hmem, ← dstAddr_of_setup_eq hdec.setup]
    refine hdec.output i ?_
    rw [d_of_setup_eq hdec.setup, Job.d, hkind]
    exact hi

end Sys2Proof.Machine

/-! # Proofs: exceptions (60_exceptions.md)

The interrupt as a level (R285), the configuration check (R273), the errors of a decode job (R276, R277), and what the host's
accesses leave of a running job (R282, R310, R315). -/

namespace Sys2Proof.Machine

/-! ## The interrupt (R285) -/

/-- Settles O23: the three bits of the words that the formula names (`getLsbD_ctrlWord`, `getLsbD_statusWord`). -/
theorem interruptIsALevel : Obligations.InterruptIsALevel := by
  intro s
  have hen : s.ctrlWord.getLsbD 3 = s.irqEn := getLsbD_ctrlWord s 3
  have hdone : s.statusWord.getLsbD 1 = s.done := getLsbD_statusWord s 1
  have herror : s.statusWord.getLsbD 2 = s.error := getLsbD_statusWord s 2
  rw [hen, hdone, herror, State.irq]

/-! ## The configuration check (R273) -/

/-- Check 5: the window that holds the image has room for it. -/
theorem capacityOk_iff (j : Job) :
    capacityOk j = true ↔
      (j.op = .decode → j.totalBytes ≤ j.dstCap.toNat) ∧ (j.op = .encode → j.totalBytes ≤ j.srcLen.toNat) := by
  unfold capacityOk
  cases j.op <;> simp

theorem configCheck_invalid {s : State} (h : ¬ configOk s = true) : configCheck s = .next (s.raise .config 0 0 0) := by
  simp [configCheck, h]

theorem configCheck_valid {s : State} (h : configOk s = true) (hd : deviceInWindow s = false) :
    configCheck s = .next { s with engine := .seed } := by
  simp [configCheck, h, hd]

/-- Settles O21: the five tests in integers are `configOk`, which decides between the error and the seed. -/
theorem configurationCheck : Obligations.ConfigurationCheck := by
  intro s he pixels bytes src srcEnd dst dstEnd valid
  have hvalid : configOk s = true ↔ valid := by
    rw [configOk_iff, rangesDisjoint_iff, capacityOk_iff]
    rfl
  rw [← hvalid, engineTurn_check he]
  exact ⟨configCheck_invalid, configCheck_valid⟩

/-! ## The errors of a decode job (R276, R277) -/

/-- The flags of a good state with `ERROR` set: the job has ended, `DONE` is 0, and the code is one of R271. -/
theorem StateOk.of_error {s : State} (h : StateOk s) (he : s.error = true) :
    s.engine = .idle ∧ s.done = false ∧ 1 ≤ s.errCode.toNat ∧ s.errCode.toNat ≤ 6 := by
  have hidle : s.busy = false := Bool.eq_false_iff.2 fun hb => by simp [(h.status.quietWhileBusy hb).2] at he
  have hdone : s.done = false := Bool.eq_false_iff.2 fun hd => h.status.exclusive ⟨hd, he⟩
  exact ⟨engine_of_not_busy hidle, hdone, h.status.codeInRange he⟩

/-- A turn of a decode job that ends in an error has done nothing but raise it: in a command, or before the first one. -/
theorem EngineTurn.raised {s t : State} (h : EngineTurn s t) (ho : s.job.op = .decode) (hs : s.error = false)
    (ht : t.error = true) :
    (s.engine = .loop ∧ ∃ e, t = s.raiseInCommand e) ∨ (s.engine ≠ .loop ∧ ∃ e, t = s.raise e 0 0 0) := by
  cases h with
  | idle => exact absurd ht (by simp [hs])
  | checkFailed he => exact .inr ⟨by simp [he], _, rfl⟩
  | checkPassed => exact absurd ht (by simp [hs])
  | decode _ h =>
    cases h with
    | seedShort hl => exact .inr ⟨by simp [hl], _, rfl⟩
    | failed hl e => exact .inl ⟨hl, e, rfl⟩
    | seeded | command | finished => exact absurd ht (by simp [hs])
  | encode ho' => simp [ho] at ho'

/-- Settles O36: the turn has only raised the error (`EngineTurn.raised`), and a command's positions lie in the windows,
so the registers hold them exactly. -/
theorem failingDecodeStepWritesNothing : Obligations.FailingDecodeStepWritesNothing := by
  intro s t h hb ho hturn ht
  have hT := engineTurn_turn hturn
  obtain ⟨hidle, hdone, hlo, hhi⟩ := (hT.stateOk h).of_error ht
  obtain ⟨hl, e, rfl⟩ | ⟨hl, e, rfl⟩ := hT.raised ho (h.status.quietWhileBusy hb).2 ht
  · have hsrc : s.job.srcPos < 2 ^ 32 := lt_of_le_of_lt (h.decoder hl ho).inPayload s.job.srcLen.isLt
    have hdst : s.job.dstPos < 2 ^ 32 :=
      lt_of_le_of_lt (le_trans (Nat.le_add_right ..) (h.remaining_fits hl ho)) s.job.dstCap.isLt
    refine ⟨rfl, hidle, hdone, hlo, hhi, fun _ => ?_, fun hn => absurd hl hn⟩
    simpa using And.intro hsrc (And.intro hdst hsrc)
  · exact ⟨rfl, hidle, hdone, hlo, hhi, fun hn => absurd hn hl, fun _ => ⟨rfl, rfl, rfl⟩⟩

/-! ## The host beside a running job (R282, R310, R315) -/

/-- What a running job depends on is in `t` as in `s`: its mode, its state, the parameters and the bytes of its windows. -/
structure Undisturbed (s t : State) : Prop where
  engine : t.engine = s.engine
  job : t.job = s.job
  params : t.params = s.params
  source : ∀ i, i < s.job.srcLen.toNat → t.mem.read (s.job.srcAddr i) = s.mem.read (s.job.srcAddr i)
  output : ∀ i, i < s.job.dstCap.toNat → t.mem.read (s.job.dstAddr i) = s.mem.read (s.job.dstAddr i)

theorem Undisturbed.of_mem_eq {s t : State} (he : t.engine = s.engine) (hj : t.job = s.job) (hp : t.params = s.params)
    (hm : t.mem = s.mem) : Undisturbed s t :=
  ⟨he, hj, hp, fun _ _ => by rw [hm], fun _ _ => by rw [hm]⟩

/-- The steps a job still has to take are counted from its mode and its state alone. -/
theorem Undisturbed.remainingSteps {s t : State} (h : Undisturbed s t) :
    Machine.remainingSteps t = Machine.remainingSteps s := by
  unfold Machine.remainingSteps
  rw [h.engine, h.job]

/-- A register write while BUSY reaches `IRQ_EN` and the flags at most (10_state.md R33, R34; R315). -/
theorem RegisterWrite.undisturbed {v : Word} {s t : State} (hb : s.busy = true) (h : RegisterWrite v s t) :
    Undisturbed s t := by
  cases h with
  | start op k irq => rw [startJob_busy op k irq hb]; exact .of_mem_eq rfl rfl rfl rfl
  | latch => rw [latchCtrl_busy v hb]; exact .of_mem_eq rfl rfl rfl rfl
  | acknowledge | ignored => exact .of_mem_eq rfl rfl rfl rfl
  | jobRegister hidle => simp [hb] at hidle

/-- A byte stored outside the windows of a running job is none of theirs (R310). -/
theorem Undisturbed.store {s : State} (hb : s.busy = true) {a : Nat} (hw : inBusyWindow s a = false) (v : Byte) :
    Undisturbed s { s with mem := s.mem.write a v } := by
  have hout := mt (inBusyWindow_iff s a).2 (Bool.eq_false_iff.1 hw)
  refine ⟨rfl, rfl, rfl, fun i hi => ?_, fun i hi => ?_⟩
  · refine Memory.read_write_other _ v fun heq => hout ⟨hb, .inl ?_⟩
    unfold Job.srcAddr at heq
    omega
  · refine Memory.read_write_other _ v fun heq => hout ⟨hb, .inr ?_⟩
    unfold Job.dstAddr at heq
    omega

/-- Every access of the host that is answered leaves a running job undisturbed. -/
theorem hostTurn_undisturbed {s t : State} {a : HostAction} (hb : s.busy = true) (ha : a ≠ .reset)
    (h : hostTurn a s = .next t) : Undisturbed s t := by
  cases a with
  | regRead addr size =>
    simp only [hostTurn, hostRegRead] at h
    split at h <;> cases h
    exact .of_mem_eq rfl rfl rfl rfl
  | regWrite addr size v =>
    simp only [hostTurn, hostRegWrite] at h
    split at h
    · obtain ⟨u, hu, hw⟩ := writeRegister_outcome (regOffset s addr) v s
      cases hu.symm.trans h
      exact hw.undisturbed hb
    · cases h
  | memRead addr =>
    simp only [hostTurn, hostMemRead] at h
    split_ifs at h <;> cases h <;> exact .of_mem_eq rfl rfl rfl rfl
  | memWrite addr v =>
    simp only [hostTurn, hostMemWrite] at h
    split_ifs at h with htop hdev hw
    cases h
    exact .store hb (Bool.eq_false_iff.2 hw) v
  | reset => exact absurd rfl ha

/-- Settles O55: the parts of `Undisturbed`, and the steps to take, which follow from them. -/
theorem hostTurnKeepsARunningJob : Obligations.HostTurnKeepsARunningJob := by
  intro s t a hb ha h
  have hu := hostTurn_undisturbed hb ha h
  exact ⟨hu.engine, hu.job, hu.params, hu.remainingSteps, hu.source, hu.output⟩

end Sys2Proof.Machine

/-! # Proofs: reset and hazards (70_reset_and_hazards.md)

Reset (R300, R301), START (R303), the host's writes beside a running job (R310, R315), and liveness (R312, R316): one turn of
the engine ends the job or advances it, by its mode; over a list of turns the steps a job can still take are the measure. -/

namespace Sys2Proof.Machine

/-! ## Reset (R300, R301) -/

/-- Settles O1: the registers of `platformReset`, read at each offset; the positions are those of the idle engine. -/
theorem resetRestoresEveryRegister : Obligations.ResetRestoresEveryRegister := by
  intro s
  refine ⟨platformReset s, rfl, ?_, rfl, rfl, by simp [State.irq], rfl, rfl, rfl⟩
  have hctrl : (platformReset s).ctrlWord = 0 := by
    rw [State.ctrlWord, platformReset_irqEn, platformReset_kind, platformReset_op]
    decide
  have hstatus : (platformReset s).statusWord = 0 := by
    rw [State.statusWord, platformReset_errCode, platformReset_error, platformReset_done, platformReset_busy]
    decide
  have hsrc := readRegister_srcPos_idle (platformReset_busy s)
  have hdst := readRegister_dstPos_idle (platformReset_busy s)
  simp only [List.forall_mem_cons, List.not_mem_nil, false_imp_iff, implies_true, and_true]
  exact ⟨hctrl, hstatus, rfl, rfl, rfl, rfl, rfl, rfl, hsrc, hdst, rfl⟩

/-- Settles O2: after reset the engine is IDLE, no byte is listed, the bases are 0 and no flag is set. -/
theorem resetSatisfiesTheInvariant : Obligations.ResetSatisfiesTheInvariant :=
  have htop : 0 < State.reset.addressTop := Nat.two_pow_pos _
  .of_idle rfl ⟨rfl, rfl⟩ ⟨htop, htop⟩ (.quiet rfl rfl rfl)

/-! ## START (R303) -/

/-- Settles O19: the job is the one `latchJob` makes of the registers. -/
theorem startBeginsAJob : Obligations.StartBeginsAJob := by
  intro s k irq op hidle
  refine ⟨latchJob op k s, ?_, rfl, rfl, rfl, rfl, rfl, rfl, rfl, rfl, rfl⟩
  rw [← startJob_idle op k irq hidle]
  cases op
  · exact exec_decode k irq s
  · exact exec_encode k irq s

/-! ## The host's writes beside a running job (R310, R315) -/

/-- A write to `CTRL` while BUSY, with or without START (10_state.md R33). -/
theorem writeCtrl_busy {s : State} (v : Word) (hb : s.busy = true) :
    writeCtrl v s = .next { s with irqEn := v.getLsbD 3 } := by
  have hdecode := decodeCtrl_eq v
  split_ifs at hdecode
  · rw [writeCtrl_command hdecode, exec_encode, startJob_busy _ _ _ hb]
  · rw [writeCtrl_command hdecode, exec_decode, startJob_busy _ _ _ hb]
  · rw [writeCtrl_noCommand hdecode, latchCtrl_busy v hb]

/-- The other registers but `STATUS` ignore writes while BUSY (10_state.md R35 to R41). -/
theorem writeRegister_busy {s : State} {offset : Nat} (v : Word) (hb : s.busy = true) (hctrl : offset ≠ 0x00)
    (hstatus : offset ≠ 0x04) : writeRegister offset v s = .next s := by
  unfold writeRegister
  split
  case h_1 => exact absurd rfl hctrl
  case h_2 => exact absurd rfl hstatus
  case h_9 => rfl
  all_goals rw [writeJobRegister_busy _ hb]

/-- Settles O25: `CTRL` and the registers that ignore the write, one lemma each. -/
theorem registerWritesWhileBusyAreIgnored : Obligations.RegisterWritesWhileBusyAreIgnored := by
  intro s addr v hb ha
  rw [hostTurn_regWrite v ha]
  refine ⟨fun hctrl => ?_, writeRegister_busy v hb⟩
  rw [hctrl]
  exact writeCtrl_busy v hb

/-- Settles O32: the address is that of an existing byte in no device, so the test for a running window decides. -/
theorem writeToARunningWindowIsRefused : Obligations.WriteToARunningWindowIsRefused := by
  intro s a v hb ha hd hin
  have htop : ¬ s.addressTop ≤ a := Nat.not_le_of_lt ha
  have hw : inBusyWindow s a = true := (inBusyWindow_iff s a).2 ⟨hb, hin⟩
  simp [hostTurn, hostMemWrite, htop, hd, hw]

/-! ## A turn of the engine ends the job or advances it (R312, R316) -/

/-- A turn of a running job from `s` to `t` has ended the job or left it fewer steps to take, and has left the list of
turns as it was. -/
structure Progress (s t : State) : Prop where
  turns : t.turns = s.turns
  progress : ended t ∨ (t.engine.checked = true ∧ remainingSteps t < remainingSteps s)

/-- The engine's next turn in `s` is answered and makes progress. -/
def TurnProgresses (s : State) : Prop := ∃ t, engineTurn s = .next t ∧ Progress s t

theorem turnProgresses_of_ended {s t : State} (hturn : engineTurn s = .next t) (ht : t.turns = s.turns) (hend : ended t) :
    TurnProgresses s :=
  ⟨t, hturn, ht, .inl hend⟩

theorem ended_of_error {t : State} (hi : t.engine = .idle) (he : t.error = true) : ended t := ⟨hi, .inr he⟩

theorem ended_of_done {t : State} (hi : t.engine = .idle) (hd : t.done = true) : ended t := ⟨hi, .inl hd⟩

/-! ### The configuration check -/

theorem check_progresses {s : State} (he : s.engine = .check) (hd : deviceInWindow s = false) : TurnProgresses s := by
  by_cases hc : configOk s = true
  · refine ⟨_, (engineTurn_check he).trans (configCheck_valid hc hd), rfl, .inr ⟨rfl, ?_⟩⟩
    rw [remainingSteps_check he, remainingSteps_seed rfl]
    exact Nat.lt_succ_self _
  · exact turnProgresses_of_ended ((engineTurn_check he).trans (configCheck_invalid hc)) rfl (ended_of_error rfl rfl)

/-! ### A decode job -/

/-- A run of at least one pixel leaves fewer whole pixels (10_state.md R45). -/
theorem div_sub_mul_lt {rem n d : Nat} (hd : 0 < d) (hn : 0 < n) (h : n * d ≤ rem) : (rem - n * d) / d < rem / d := by
  have hle : n ≤ rem / d := (Nat.le_div_iff_mul_le hd).2 h
  rw [Nat.mul_comm, Nat.sub_mul_div]
  omega

theorem decodeSeed_progresses {s : State} (h : StateOk s) (hl : s.engine = .seed) (ho : s.job.op = .decode) :
    TurnProgresses s := by
  have hc := h.config (by simp [hl, Engine.checked])
  have hturn := engineTurn_seed_decode hl ho
  rcases execSeed_outcome s with ⟨-, e⟩ | ⟨-, -, e⟩ | ⟨-, -, e⟩ | ⟨-, -, e⟩
  · exact turnProgresses_of_ended (hturn.trans e) rfl (ended_of_error rfl rfl)
  · exact absurd e (execSeed_ne_fault hc ho _)
  · exact absurd e (execSeed_ne_fault hc ho _)
  · refine ⟨_, hturn.trans e, rfl, .inr ⟨rfl, ?_⟩⟩
    have hpixels : s.job.totalBytes / s.job.d = s.job.totalPixels := Nat.mul_div_cancel _ s.job.d_pos
    have hone := div_sub_mul_lt s.job.d_pos Nat.one_pos (Nat.one_mul s.job.d ▸ d_le_totalBytes hc)
    rw [Nat.one_mul, hpixels] at hone
    rw [remainingSteps_seed hl, remainingSteps_decode (s := seedDone s) rfl ho]
    exact Nat.succ_lt_succ hone

/-- The pixels of a command form. -/
def CommandForm.pixels : CommandForm → Nat
  | .literal _ n => n
  | .copy _ n _ => n

/-- Every command produces at least one pixel (30_encoding.md R113 to R115). -/
theorem commandForm_pixels_pos {i : Instr} {f : CommandForm} (h : commandForm i = some f) : 0 < f.pixels := by
  have hbase (k : Kind) : 0 < countBase k := countBase_eq k ▸ Nat.succ_pos _
  cases i <;> cases h
  case lit | litx => exact Nat.succ_pos _
  case cpyTc | cpyPal | cpyxTc | cpyxPal => exact Nat.add_pos_right _ (hbase _)

/-- A command of a good decode job fails, or it produces its pixels. -/
theorem CommandForm.run_outcome {s : State} (hw : windowsPlaced s)
    (hfit : s.job.dstPos + s.job.remBytes ≤ s.job.dstCap.toNat) (f : CommandForm) :
    (∃ e, f.run s = .next (s.raiseInCommand e)) ∨
    (f.pixels * s.job.d ≤ s.job.remBytes ∧ ∃ mem pos, f.run s = .next (s.commandDone mem pos (f.pixels * s.job.d))) := by
  cases f with
  | literal header n =>
    have hne := literalBody_ne_fault hw hfit header n
    rcases literalBody_outcome header n s with ⟨-, e⟩ | ⟨-, -, e⟩ | ⟨-, -, -, e⟩ | ⟨-, -, -, e⟩ | ⟨hn, -, -, e⟩
    · exact .inl ⟨_, e⟩
    · exact .inl ⟨_, e⟩
    · exact absurd e (hne _)
    · exact absurd e (hne _)
    · exact .inr ⟨hn, _, _, e⟩
  | copy header n idx =>
    have hne := copyBody_ne_fault hw hfit header n idx
    rcases copyBody_outcome header n idx s with ⟨-, e⟩ | ⟨-, -, e⟩ | ⟨-, -, e⟩ | ⟨hn, -, -, -, e⟩
    · exact .inl ⟨_, e⟩
    · exact .inl ⟨_, e⟩
    · exact absurd e (hne _)
    · exact .inr ⟨hn, _, _, e⟩

theorem decodeLoop_progresses {s : State} (h : StateOk s) (hl : s.engine = .loop) (ho : s.job.op = .decode) :
    TurnProgresses s := by
  by_cases hr : s.job.remBytes = 0
  · exact turnProgresses_of_ended (decodeJobEndsWithDone s h hl ho hr) rfl (ended_of_done rfl rfl)
  have hturn : engineTurn s = decodeStep s := (engineTurn_loop_decode hl ho).trans (if_neg hr)
  have hw := windowsPlaced_of_configOk (h.config (by simp [hl, Engine.checked]))
  have hfit := h.remaining_fits hl ho
  rcases decodeStep_outcome s with ⟨-, -, e⟩ | ⟨e, -⟩ | ⟨i, rest, f, -, hf, e, hrun⟩
  · exact absurd e (decodeStep_ne_fault hw (h.decoder hl ho).inPayload hfit _)
  · exact turnProgresses_of_ended (hturn.trans e) rfl (ended_of_error rfl rfl)
  · rw [e, hrun] at hturn
    obtain ⟨err, e⟩ | ⟨hn, mem, pos, e⟩ := f.run_outcome hw hfit
    · exact turnProgresses_of_ended (hturn.trans e) rfl (ended_of_error rfl rfl)
    · refine ⟨_, hturn.trans e, rfl, .inr ⟨by simp [hl, Engine.checked], ?_⟩⟩
      rw [remainingSteps_decode hl ho, remainingSteps_decode (s := s.commandDone ..) hl ho]
      exact Nat.succ_lt_succ (div_sub_mul_lt s.job.d_pos (commandForm_pixels_pos hf) hn)

/-! ### An encode job -/

theorem encodeSeed_progresses {s : State} (h : StateOk s) (hl : s.engine = .seed) (ho : s.job.op = .encode) :
    TurnProgresses s := by
  have hc := h.config (by simp [hl, Engine.checked])
  have hturn := engineTurn_seed_encode hl ho
  rcases Nat.lt_or_ge s.job.dstCap.toNat s.job.d with hcap | hfit
  · exact turnProgresses_of_ended (hturn.trans (encodeSeed_overflow hc ho hcap)) rfl (ended_of_error rfl rfl)
  · refine ⟨_, hturn.trans (encodeSeed_fits hc ho hfit), rfl, .inr ⟨rfl, ?_⟩⟩
    have hpixels := ((configOk_iff s).1 hc).1
    rw [remainingSteps_seed hl, remainingSteps_encode (s := encodeSeedDone s) rfl ho]
    simp only [encodeSeedDone_job_totalPixels, encodeSeedDone_job_current]
    omega

/-- A turn of the encoder's loop that moves `current` on inside the image leaves fewer passes to take. -/
theorem turnProgresses_of_current {s t : State} (hturn : engineTurn s = .next t) (hsetup : t.setup = s.setup)
    (hl : s.engine = .loop) (ho : s.job.op = .encode) (hlt : t.engine = .loop) (hc : s.job.current < s.job.totalPixels)
    (hcur : s.job.current < t.job.current) : TurnProgresses s := by
  refine ⟨t, hturn, turns_of_setup_eq hsetup, .inr ⟨by simp [hlt, Engine.checked], ?_⟩⟩
  rw [remainingSteps_encode hl ho, remainingSteps_encode hlt ((op_of_setup_eq hsetup).trans ho),
    totalPixels_of_setup_eq hsetup]
  omega

theorem shortPass_progresses {s : State} (h : StateOk s) (hl : s.engine = .loop) (ho : s.job.op = .encode)
    (hc : s.job.current < s.job.totalPixels) (hbest : (matchSearch s).1 ≤ ignoreThreshold s.job.kind) :
    TurnProgresses s := by
  have hnext := Nat.lt_succ_self s.job.current
  rcases Nat.lt_or_eq_of_le (Nat.succ_le_of_lt (h.encoder hl ho).pendingShort) with hbelow | hfull
  · exact turnProgresses_of_current (shortMatchIsAppendedToTheLiteral s h hl ho hc hbest hbelow) rfl hl ho hl hc hnext
  · obtain ⟨hfits, hover⟩ := fullLiteralIsFlushedAtOnce s h hl ho hc hbest hfull
    rcases Nat.lt_or_ge s.job.dstCap.toNat (s.job.outPos + _) with hcap | hfit
    · exact turnProgresses_of_ended (hover hcap) rfl (ended_of_error rfl rfl)
    · obtain ⟨m, e, -⟩ := hfits hfit
      exact turnProgresses_of_current e rfl hl ho hl hc hnext

theorem longPass_progresses {s : State} (h : StateOk s) (hl : s.engine = .loop) (ho : s.job.op = .encode)
    (hc : s.job.current < s.job.totalPixels) (hbest : ignoreThreshold s.job.kind < (matchSearch s).1) :
    TurnProgresses s := by
  obtain ⟨hfits, hflush, hcopy⟩ := longMatchFlushesThenCopies s h hl ho hc hbest
  by_cases hcapFlush : s.job.dstCap.toNat < s.job.outPos + (pendingBytes s).length
  · exact turnProgresses_of_ended (hflush hcapFlush) rfl (ended_of_error rfl rfl)
  rcases Nat.lt_or_ge s.job.dstCap.toNat (s.job.outPos + _) with hcap | hfit
  · obtain ⟨m, e, -⟩ := hcopy (Nat.le_of_not_lt hcapFlush) hcap
    exact turnProgresses_of_ended e rfl (ended_of_error rfl rfl)
  · obtain ⟨m, e, -⟩ := hfits hfit
    exact turnProgresses_of_current e rfl hl ho hl hc (Nat.lt_add_of_pos_right (Nat.zero_lt_of_lt hbest))

theorem encodeFinish_progresses {s : State} (h : StateOk s) (hl : s.engine = .loop) (ho : s.job.op = .encode)
    (hc : s.job.current = s.job.totalPixels) : TurnProgresses s := by
  obtain ⟨hfits, hover⟩ := encodeJobEndsWithDone s h hl ho hc
  rcases Nat.lt_or_ge s.job.dstCap.toNat (s.job.outPos + (pendingBytes s).length) with hcap | hfit
  · exact turnProgresses_of_ended (hover hcap) rfl (ended_of_error rfl rfl)
  · obtain ⟨m, e, -⟩ := hfits hfit
    exact turnProgresses_of_ended e rfl (ended_of_done rfl rfl)

theorem encodeLoop_progresses {s : State} (h : StateOk s) (hl : s.engine = .loop) (ho : s.job.op = .encode) :
    TurnProgresses s := by
  rcases Nat.lt_or_eq_of_le (h.encoder hl ho).inImage with hc | hc
  · rcases Nat.lt_or_ge (ignoreThreshold s.job.kind) (matchSearch s).1 with hlong | hshort
    · exact longPass_progresses h hl ho hc hlong
    · exact shortPass_progresses h hl ho hc hshort
  · exact encodeFinish_progresses h hl ho hc

/-! ### Every mode -/

theorem busy_turnProgresses {s : State} (h : StateOk s) (hb : s.busy = true) (hd : deviceInWindow s = false) :
    TurnProgresses s := by
  cases he : s.engine with
  | idle => simp [State.busy, he] at hb
  | check => exact check_progresses he hd
  | seed =>
    cases ho : s.job.op with
    | decode => exact decodeSeed_progresses h he ho
    | encode => exact encodeSeed_progresses h he ho
  | loop =>
    cases ho : s.job.op with
    | decode => exact decodeLoop_progresses h he ho
    | encode => exact encodeLoop_progresses h he ho

/-- Settles O54: a job that has not ended is past its configuration check, where the invariant knows of no device. -/
theorem engineTurnEndsOrAdvancesTheJob : Obligations.EngineTurnEndsOrAdvancesTheJob := by
  intro s h hb hd
  obtain ⟨t, hturn, -, hprogress⟩ := busy_turnProgresses h hb hd
  have hok := (engineTurn_turn hturn).stateOk h
  exact ⟨t, hturn, hprogress.imp_right fun ⟨hc, hlt⟩ => ⟨busy_of_checked hc, hok.noDevice hc, hlt⟩⟩

/-! ## Every job ends (R316) -/

/-! ### The turns that are left -/

theorem RegisterWrite.turns {v : Word} {s t : State} (h : RegisterWrite v s t) : t.turns = s.turns := by
  cases h with
  | start op k irq => unfold startJob; split <;> rfl
  | latch => unfold latchCtrl; split <;> rfl
  | acknowledge | jobRegister | ignored => rfl

theorem HostTurn.turns {s t : State} (h : HostTurn s t) : t.turns = s.turns := by
  cases h with
  | read | store | reset => rfl
  | write v hw => exact hw.turns

theorem engineTurnsIn_engineMoves {s : State} (h : engineMoves s) (n : Nat) :
    engineTurnsIn (n + 1) s.turns = engineTurnsIn n s.turns.tail + 1 := by
  obtain ht | ⟨rest, ht⟩ := h <;> rw [ht]
  · rw [List.tail_nil, engineTurnsIn_nil, engineTurnsIn_nil]
  · exact engineTurnsIn_engine n rest

/-- The host's next turn from `s` is one that the machine faults or refuses. -/
def HostStops (s : State) : Prop :=
  ∃ a rest, s.turns = .host a :: rest ∧ ∀ u, hostTurn a { s with turns := rest } ≠ .next u

/-- Within `n` turns the job of `s` ends after at most `bound` turns of the engine, or the machine stops at the host's. -/
def EndsWithin (n bound : Nat) (s : State) : Prop :=
  (∃ k t, k ≤ n ∧ engineTurnsIn k s.turns ≤ bound ∧ Sys2Proof.core.run k s = .next t ∧ ended t) ∨
  (∃ k t, k < n ∧ Sys2Proof.core.run k s = .next t ∧ HostStops t)

theorem endsWithin_of_ended {s : State} (n bound : Nat) (h : ended s) : EndsWithin n bound s :=
  .inl ⟨0, s, Nat.zero_le _, by simp, rfl, h⟩

theorem endsWithin_of_hostStops {s : State} (n bound : Nat) (h : HostStops s) : EndsWithin (n + 1) bound s :=
  .inr ⟨0, s, Nat.succ_pos n, rfl, h⟩

/-- What the answer of a step does within its bound, the state before it does with the `c` turns of the engine (one or none)
that the step takes added. -/
theorem EndsWithin.of_step {n bound c bound' : Nat} {s t : State} (hstep : step s = .next t)
    (hcount : ∀ k, engineTurnsIn (k + 1) s.turns = engineTurnsIn k t.turns + c) (hbound : bound + c ≤ bound')
    (h : EndsWithin n bound t) : EndsWithin (n + 1) bound' s := by
  obtain ⟨k, u, hk, hturns, hrun, hend⟩ | ⟨k, u, hk, hrun, hstop⟩ := h
  · refine .inl ⟨k + 1, u, Nat.succ_le_succ hk, ?_, (run_of_step k hstep).trans hrun, hend⟩
    rw [hcount]
    omega
  · exact .inr ⟨k + 1, u, Nat.succ_lt_succ hk, (run_of_step k hstep).trans hrun, hstop⟩

/-! ### The induction over the turns -/

theorem remainingSteps_pos {s : State} (hb : s.busy = true) : 0 < remainingSteps s := by
  cases he : s.engine with
  | idle => simp [State.busy, he] at hb
  | check => exact remainingSteps_check he ▸ Nat.succ_pos _
  | seed => exact remainingSteps_seed he ▸ Nat.succ_pos _
  | loop =>
    cases ho : s.job.op with
    | decode => exact remainingSteps_decode he ho ▸ Nat.succ_pos _
    | encode => exact remainingSteps_encode he ho ▸ Nat.succ_pos _

theorem mem_take_of_mem_take_tail {α : Type} {n : Nat} {l : List α} {x : α} (h : x ∈ l.tail.take n) :
    x ∈ l.take (n + 1) := by
  cases l with
  | nil => simp at h
  | cons y l => exact List.mem_cons_of_mem y h

theorem Undisturbed.busy {s t : State} (h : Undisturbed s t) : t.busy = s.busy := by
  rw [State.busy, State.busy, h.engine]

theorem Undisturbed.deviceInWindow {s t : State} (h : Undisturbed s t) :
    Machine.deviceInWindow t = Machine.deviceInWindow s := by
  rw [Machine.deviceInWindow, Machine.deviceInWindow, h.params, h.job]

/-- A running job that the engine can go on with, and whose next `n` turns hold no reset. -/
structure Runs (n : Nat) (s : State) : Prop where
  ok : StateOk s
  busy : s.busy = true
  noDevice : deviceInWindow s = false
  noReset : ∀ turn ∈ s.turns.take n, turn ≠ .host .reset

/-- A turn of the engine ends the job or leaves it fewer steps to take. -/
theorem Runs.engineStep {n : Nat} {s : State} (h : Runs (n + 1) s) (hm : engineMoves s) :
    ∃ t, step s = .next t ∧ t.turns = s.turns.tail ∧ (ended t ∨ (Runs n t ∧ remainingSteps t < remainingSteps s)) := by
  have hok : StateOk (afterTurn s) := h.ok.takeTurn _
  obtain ⟨t, hturn, hturns, hprogress⟩ := busy_turnProgresses hok h.busy h.noDevice
  have hturns : t.turns = s.turns.tail := hturns
  have hokt := (engineTurn_turn hturn).stateOk hok
  refine ⟨t, (step_of_engineMoves hm).trans hturn, hturns, hprogress.imp_right fun ⟨hc, hlt⟩ => ⟨?_, hlt⟩⟩
  exact
    { ok := hokt
      busy := busy_of_checked hc
      noDevice := hokt.noDevice hc
      noReset := fun turn hmem => h.noReset turn (mem_take_of_mem_take_tail (hturns ▸ hmem)) }

/-- A turn of the host stops the machine or leaves the job as it is (R282, R310, R315). -/
theorem Runs.hostStep {n : Nat} {s : State} (h : Runs (n + 1) s) {a : HostAction} {rest : List Turn}
    (hs : s.turns = .host a :: rest) :
    HostStops s ∨ ∃ t, step s = .next t ∧ t.turns = rest ∧ Runs n t ∧ remainingSteps t = remainingSteps s := by
  by_cases hstop : ∀ u, hostTurn a { s with turns := rest } ≠ .next u
  · exact .inl ⟨a, rest, hs, hstop⟩
  · simp only [not_forall, not_not] at hstop
    obtain ⟨t, hturn⟩ := hstop
    have hhost := hostTurn_turn hturn
    have hturns : t.turns = s.turns.tail := by rw [hs, hhost.turns, List.tail_cons]
    have ha : a ≠ .reset := fun hreset => h.noReset (.host a) (by simp [hs]) (hreset ▸ rfl)
    have hsame := hostTurn_undisturbed (s := { s with turns := rest }) h.busy ha hturn
    refine .inr ⟨t, (step_host hs).trans hturn, hhost.turns, ?_, hsame.remainingSteps⟩
    exact
      { ok := hhost.stateOk (h.ok.takeTurn rest)
        busy := hsame.busy.trans h.busy
        noDevice := hsame.deviceInWindow.trans h.noDevice
        noReset := fun turn hmem => h.noReset turn (mem_take_of_mem_take_tail (hturns ▸ hmem)) }

/-- With as many turns of the engine as the job can still take steps, the job ends or the machine stops at a turn of the
host. -/
theorem Runs.endsWithin {n : Nat} {s : State} (h : Runs n s) (hleft : remainingSteps s ≤ engineTurnsIn n s.turns) :
    EndsWithin n (remainingSteps s) s := by
  induction n generalizing s with
  | zero =>
    have hpos := remainingSteps_pos h.busy
    rw [engineTurnsIn_zero] at hleft
    omega
  | succ n ih =>
    have engineCase (hm : engineMoves s) : EndsWithin (n + 1) (remainingSteps s) s := by
      obtain ⟨t, hstep, hturns, hprogress⟩ := h.engineStep hm
      have hcount (k : Nat) : engineTurnsIn (k + 1) s.turns = engineTurnsIn k t.turns + 1 :=
        hturns ▸ engineTurnsIn_engineMoves hm k
      obtain hend | ⟨hrun, hlt⟩ := hprogress
      · exact (endsWithin_of_ended n 0 hend).of_step hstep hcount (remainingSteps_pos h.busy)
      · rw [hcount] at hleft
        exact (ih hrun (by omega)).of_step hstep hcount hlt
    cases hs : s.turns with
    | nil => exact engineCase (.inl hs)
    | cons turn rest =>
      cases turn with
      | engine => exact engineCase (.inr ⟨rest, hs⟩)
      | host a =>
        obtain hstop | ⟨t, hstep, hturns, hrun, hsame⟩ := h.hostStep hs
        · exact endsWithin_of_hostStops n _ hstop
        · have hcount (k : Nat) : engineTurnsIn (k + 1) s.turns = engineTurnsIn k t.turns + 0 := by
            rw [hs, hturns, engineTurnsIn_host, Nat.add_zero]
          rw [hcount, ← hsame] at hleft
          exact (ih hrun hleft).of_step hstep hcount hsame.le

/-- Settles O49: at its configuration check a job has `totalPixels + 2` steps to take. -/
theorem everyJobEnds : Obligations.EveryJobEnds := by
  intro s n hok he hd hreset hleft
  have hrun : Runs n s := { ok := hok, busy := by simp [State.busy, he], noDevice := hd, noReset := hreset }
  rw [← remainingSteps_check he] at hleft ⊢
  obtain hend | ⟨k, t, hk, hrun, a, rest, hturns, hstop⟩ := hrun.endsWithin hleft
  · exact .inl hend
  · exact .inr ⟨k, t, a, rest, hk, hrun, hturns, hstop⟩

end Sys2Proof.Machine
